-- ==== Sys2Proof/Word.lean ====
section
/-! DEFINITION. The one word type of the machine: every quantity that PTB adds, compares bit by bit or shifts is an
unsigned byte (spec R9, R270). Buffer indices, counts and references are not words and are not bit vectors. -/

namespace Sys2Proof

/-- `u8`, an unsigned 8-bit integer (R9). -/
abbrev Byte := BitVec 8

end Sys2Proof
end

