-- ==== Sys2Proof/Config.lean ====
section
/-! DEFINITION. What is fixed for the machine (00_scope.md R6): the sizes of this hardware, which the types of the state
are built from; the structure `Config`, which the operations take as an argument (Machine/Hardware.lean has its value for
this hardware); the OPEN `LINKCRC`; and the free values that 93_implementation_defined.md calls draws. An opaque constant
has no body, so a theorem that mentions one holds whatever it is. -/

namespace Sys2Proof

/-- The link CRC function (R6, R190): an initial accumulator and a total step of accumulator and byte. -/
structure LinkCrc where
  /-- `CRC_INIT`. -/
  init : Byte
  /-- `crc_step acc byte`. -/
  step : Byte → Byte → Byte
  deriving Inhabited

/-! ## The sizes of this hardware, from the value column of R6 -/

namespace Hw

/-- `N_BUF`: buffers of the pool. -/
abbrev nBuf : Nat := 32
/-- `HDR_BYTES`: `id`, `type`, `remaining_fragments`, `flags`. -/
abbrev hdrBytes : Nat := 4
/-- `PAYLOAD_BYTES`. -/
abbrev payloadBytes : Nat := 32
/-- `DATA_BYTES`: the bytes the link CRC covers. -/
abbrev dataBytes : Nat := 36
/-- `CRC_BYTES`. -/
abbrev crcBytes : Nat := 1
/-- `PKT_BYTES`: bytes of a packet and of a buffer. -/
abbrev pktBytes : Nat := 37
/-- `LEAD`: bytes the block sends before packet byte 0. -/
abbrev lead : Nat := 1
/-- `XFER_ID_BITS`: the width of the transfer id. -/
abbrev xferIdBits : Nat := 8

end Hw

/-! ## The structure of R6 -/

/-- The parameters of R6. The last field says that the sizes are those the types of the state are built from, so that no
operation is given a Config whose sizes the state cannot hold (log entry 27). -/
structure Config where
  /-- `N_BUF`. -/
  nBuf : Nat
  /-- `HDR_BYTES`. -/
  hdrBytes : Nat
  /-- `PAYLOAD_BYTES`. -/
  payloadBytes : Nat
  /-- `CRC_BYTES`. -/
  crcBytes : Nat
  /-- `LEAD`: bytes the block sends before packet byte 0. -/
  lead : Nat
  /-- `XFER_ID_BITS`. -/
  xferIdBits : Nat
  /-- `XFER_ID_INIT`: the transfer id of the first frame after reset. -/
  xferIdInit : BitVec xferIdBits
  /-- `LINKCRC`. -/
  linkCrc : LinkCrc
  /-- `TX_DEQ_AT_START` (R164). -/
  txDeqAtStart : Bool
  /-- The state has these sizes. -/
  sizes : nBuf = Hw.nBuf ∧ hdrBytes = Hw.hdrBytes ∧ payloadBytes = Hw.payloadBytes ∧ crcBytes = Hw.crcBytes ∧
    xferIdBits = Hw.xferIdBits

namespace Config

/-- `DATA_BYTES` (R6, derived): HDR_BYTES + PAYLOAD_BYTES, the bytes the link CRC covers. -/
def dataBytes (c : Config) : Nat := c.hdrBytes + c.payloadBytes

/-- `PKT_BYTES` (R6, derived): DATA_BYTES + CRC_BYTES. -/
def pktBytes (c : Config) : Nat := c.dataBytes + c.crcBytes

/-- `ZIDX` (R6, R24): N_BUF, the index that names the zero buffer Z and no buffer. In the state Z is a constructor of its
own (`Target.zero`). -/
def zidx (c : Config) : Nat := c.nBuf

theorem dataBytes_eq (c : Config) : c.dataBytes = 36 := congrArg₂ (· + ·) c.sizes.2.1 c.sizes.2.2.1

theorem pktBytes_eq (c : Config) : c.pktBytes = 37 := congrArg₂ (· + ·) c.dataBytes_eq c.sizes.2.2.2.1

theorem lt_dataBytes (c : Config) {k : Nat} (h : k < c.dataBytes) : k < 36 := c.dataBytes_eq ▸ h

theorem lt_pktBytes (c : Config) {k : Nat} (h : k < c.dataBytes) : k < 37 := Nat.lt_succ_of_lt (c.lt_dataBytes h)

theorem zidx_eq (c : Config) : c.zidx = 32 := c.sizes.1

theorem xferIdBits_eq (c : Config) : c.xferIdBits = 8 := c.sizes.2.2.2.2

/-- `XFER_ID_INIT` at the width the state has. -/
def firstXferId (c : Config) : BitVec (delta% Hw.xferIdBits) := c.xferIdInit.cast c.xferIdBits_eq

end Config

/-- The ten packet type codes that R95 names without a value (`T_SYNC` ... `T_ERROR`). PTB treats all 256 values of the
`type` byte alike, so no operation reads them (log entry 26). -/
structure TypeCodes where
  sync : Byte
  ack : Byte
  erase : Byte
  write : Byte
  readReq : Byte
  readResp : Byte
  go : Byte
  query : Byte
  queryResp : Byte
  error : Byte
  deriving Inhabited

namespace Config

/-- The `LINKCRC` of this hardware (R6, R190), OPEN: nothing is assumed of it but that it is a total function (log entry
6). -/
opaque hardwareLinkCrc : LinkCrc

/-- `Empty` (R95): the type a zeroed header carries, and that of an idle frame. -/
def typeEmpty : Byte := 0x00
/-- `Reset` (R95). -/
def typeReset : Byte := 0xFE

/-- The other ten type codes (R95), OPEN (log entry 26). -/
opaque typeCodes : TypeCodes

/-- What R95 gives of the ten codes: pairwise distinct, and different from Empty and Reset. A premise for a claim that
needs it, never assumed. -/
def typeCodesDistinct (t : TypeCodes) : Prop :=
  [typeEmpty, typeReset, t.sync, t.ack, t.erase, t.write, t.readReq, t.readResp, t.go, t.query, t.queryResp,
    t.error].Nodup

/-- `draw()` (R8, R10): the n-th value the sources leave open in a run (U2, U4, U5; log entry 7). -/
opaque draw : Nat → Byte

/-- The payload draws of R41 (U3): the byte that pool address `a` holds after the `r`-th hardware reset, drawn once and
from then on ordinary memory (log entry 8). -/
opaque powerOnByte : (r : Nat) → (a : Nat) → Byte

end Config

end Sys2Proof
end

