-- ==== Sys2Proof/Syntax.lean ====
section
/-! DEFINITION. The names PTB's operations are written with, the words of the client port, and `Instr`: one constructor
for each row of spec/opcode_table.json, in the table's order. -/

namespace Sys2Proof

/-- A buffer index, 0 .. N_BUF-1 (R21): the only name a buffer has (R61). -/
abbrev BufIdx := Fin (delta% Hw.nBuf)

/-- An offset into a buffer, 0 .. PKT_BYTES-1 (R22, R60). -/
abbrev Offset := Fin (delta% Hw.pktBytes)

/-- The three queues (R25). -/
inductive QueueName
  | free
  | inbox
  | outbox
  deriving DecidableEq, Repr

/-- A node reference of a queue (R26): the queue's own sentinel `SENT`, or a buffer. -/
inductive NodeRef
  | sent
  | node (i : BufIdx)
  deriving DecidableEq, Repr

/-- A word the client presents at the port (R100, R103): a command word, or a buffer-access word with its data byte. -/
inductive PortWord
  /-- `CW`, R100. -/
  | cw (w : BitVec 8)
  /-- `BA` and `wdata`, R103. A read ignores `wdata` (log entry 24). -/
  | ba (w : BitVec 12) (wdata : Byte)
  deriving DecidableEq, Repr

/-- The operations of PTB: one constructor for each row of spec/opcode_table.json. -/
inductive Instr
  /-- NOP (R145). -/
  | nop
  /-- ALLOC (R141). -/
  | alloc
  /-- FREE (R142). -/
  | free (i : BufIdx)
  /-- SEND (R143). -/
  | send (i : BufIdx)
  /-- RECEIVE (R144). -/
  | receive
  /-- The reserved command `op = 0b101` with any index (R104, R153). -/
  | reserved101 (idx : BitVec 5)
  /-- SHUTDOWN (R152). -/
  | shutdown
  /-- INIT (R148). -/
  | init
  /-- BUF_RD (R146); `off` is the 6-bit field, 37 .. 63 included. -/
  | bufRd (i : BufIdx) (off : BitVec 6)
  /-- BUF_WR (R147). -/
  | bufWr (i : BufIdx) (off : BitVec 6) (v : Byte)
  /-- EDGE (R160). -/
  | edge
  /-- XCHG (R170): the host shifts `m` in. -/
  | xchg (m : Byte)
  /-- START (R162). -/
  | start
  /-- FINISH (R167). -/
  | finish
  /-- ALLOC_INTERNAL (R149). -/
  | allocInternal
  /-- FREE_INTERNAL (R149). -/
  | freeInternal (i : BufIdx)
  /-- Q_INIT (R121). -/
  | qInit (q : QueueName)
  /-- ENQ.SWAP (R122). -/
  | enqSwap (q : QueueName) (x : BufIdx)
  /-- ENQ.LINK (R123). -/
  | enqLink (q : QueueName) (p : NodeRef) (x : BufIdx)
  /-- DEQ.HEAD (R125). -/
  | deqHead (q : QueueName)
  /-- DEQ.LONE (R126). -/
  | deqLone (q : QueueName) (h : BufIdx)
  /-- DEQ.SUCC (R127). -/
  | deqSucc (q : QueueName) (h : BufIdx) (lone : Bool)
  /-- DEQ.UNLINK (R128). -/
  | deqUnlink (q : QueueName) (h : BufIdx) (s : Option BufIdx)
  /-- DEQ.CLEAR (R129). -/
  | deqClear (h : BufIdx)
  /-- CRC.RESET (R192). -/
  | crcReset
  /-- CRC.RX_STEP (R193). -/
  | crcRxStep (m : Byte)
  /-- CRC.RX_CHECK (R194). -/
  | crcRxCheck (m : Byte)
  /-- CRC.TX_STEP (R195). -/
  | crcTxStep (v : Byte)
  /-- CRC.TX_SEND (R195). -/
  | crcTxSend
  /-- CRC.FLAG (R196). -/
  | crcFlag
  deriving DecidableEq, Repr

end Sys2Proof
end

