-- ==== Sys2Proof/WellFormed.lean ====
section
/-! DEFINITION. Which terms of `Instr` are operations the spec describes. Operand widths are in the types, so a port
operation is always well formed (an offset of 37 .. 63 is an operand the port takes and answers with ERR_RANGE, R104).
What is left to check are the operands of two queue micro-steps. -/

namespace Sys2Proof

/-- ENQ.LINK links node `x` behind the tail its own swap returned: that tail is another node or the sentinel, never `x`
itself, because `x` is in no queue when it is enqueued (R122, R133). -/
def linkOperandsOk (p : NodeRef) (x : BufIdx) : Bool := p != .node x

/-- DEQ.UNLINK is given the successor of `h`, and the nodes of a queue are all distinct (R27, R128). -/
def unlinkOperandsOk (h : BufIdx) (s : Option BufIdx) : Bool := s != some h

/-- The well-formed operations. -/
def Instr.wf : Instr → Bool
  | .enqLink _ p x => linkOperandsOk p x
  | .deqUnlink _ h s => unlinkOperandsOk h s
  | .nop | .alloc | .free _ | .send _ | .receive | .reserved101 _ | .shutdown | .init
  | .bufRd _ _ | .bufWr _ _ _ | .edge | .xchg _ | .start | .finish
  | .allocInternal | .freeInternal _ | .qInit _ | .enqSwap _ _ | .deqHead _ | .deqLone _ _
  | .deqSucc _ _ _ | .deqClear _ | .crcReset | .crcRxStep _ | .crcRxCheck _ | .crcTxStep _
  | .crcTxSend | .crcFlag => true

end Sys2Proof
end

