-- ==== Sys2Proof/Decode.lean ====
section
/-! DEFINITION. The words of the client port (30_encoding.md R100 to R104): the decoder, total on every word and
rejecting by name, then the encoder from the same tables, then the reading of a row of spec/opcode_table.json. Link
events, handler routines and micro-steps have no encoding (R105). -/

namespace Sys2Proof

/-- Why a word names no operation (R104). -/
inductive Reject
  /-- A command that takes no buffer came with `idx != 0` (R104): the port answers ERR_ILLEGAL (R153). -/
  | idxNotZero (op : BitVec 3) (idx : BitVec 5)
  deriving DecidableEq, Repr

/-- `CW[7:5]` (R100). -/
def cwOp (w : BitVec 8) : BitVec 3 := w.extractLsb' 5 3

/-- `CW[4:0]` (R100). -/
def cwIdx (w : BitVec 8) : BitVec 5 := w.extractLsb' 0 5

/-- `BA[11]` (R103): 0 a read, 1 a write. -/
def baW (w : BitVec 12) : BitVec 1 := w.extractLsb' 11 1

/-- `BA[10:6]` (R103). -/
def baIdx (w : BitVec 12) : BitVec 5 := w.extractLsb' 6 5

/-- `BA[5:0]` (R103). -/
def baOff (w : BitVec 12) : BitVec 6 := w.extractLsb' 0 6

/-- The buffer a 5-bit index field names (R100): every value is a buffer. -/
def bufOfField (f : BitVec 5) : BufIdx := f.toFin

/-- A command that takes no buffer: its `idx` field must be 0 (R100, R104). -/
def withoutBuffer (w : BitVec 8) (i : Instr) : Except Reject Instr :=
  if cwIdx w = 0 then .ok i else .error (.idxNotZero (cwOp w) (cwIdx w))

/-- The operation codes of `CW` (R101). -/
def decodeCW (w : BitVec 8) : Except Reject Instr :=
  match (cwOp w).toNat with
  | 0 => withoutBuffer w .nop
  | 1 => withoutBuffer w .alloc
  | 2 => .ok (.free (bufOfField (cwIdx w)))
  | 3 => .ok (.send (bufOfField (cwIdx w)))
  | 4 => withoutBuffer w .receive
  | 5 => .ok (.reserved101 (cwIdx w))
  | 6 => withoutBuffer w .shutdown
  | _ => withoutBuffer w .init

/-- The buffer-access word (R103). -/
def decodeBA (w : BitVec 12) (wdata : Byte) : Instr :=
  if baW w = 0 then .bufRd (bufOfField (baIdx w)) (baOff w)
  else .bufWr (bufOfField (baIdx w)) (baOff w) wdata

/-- What a word at the client port asks for. -/
def decode : PortWord → Except Reject Instr
  | .cw w => decodeCW w
  | .ba w wdata => .ok (decodeBA w wdata)

/-- The 5-bit field that names a buffer (R100, R103). -/
def fieldOfBuf (i : BufIdx) : BitVec 5 := BitVec.ofFin i

/-- A command word from its two fields (R100). -/
def packCW (op : BitVec 3) (idx : BitVec 5) : BitVec 8 := op ++ idx

/-- A buffer-access word from its three fields (R103). -/
def packBA (wbit : BitVec 1) (idx : BitVec 5) (off : BitVec 6) : BitVec 12 := wbit ++ idx ++ off

/-- The word of an operation of the client port (R101, R103); none for an operation without an encoding (R105). -/
def encode : Instr → Option PortWord
  | .nop => some (.cw (packCW 0b000#3 0))
  | .alloc => some (.cw (packCW 0b001#3 0))
  | .free i => some (.cw (packCW 0b010#3 (fieldOfBuf i)))
  | .send i => some (.cw (packCW 0b011#3 (fieldOfBuf i)))
  | .receive => some (.cw (packCW 0b100#3 0))
  | .reserved101 idx => some (.cw (packCW 0b101#3 idx))
  | .shutdown => some (.cw (packCW 0b110#3 0))
  | .init => some (.cw (packCW 0b111#3 0))
  | .bufRd i off => some (.ba (packBA 0#1 (fieldOfBuf i) off) 0)
  | .bufWr i off v => some (.ba (packBA 1#1 (fieldOfBuf i) off) v)
  | .edge | .xchg _ | .start | .finish | .allocInternal | .freeInternal _ | .qInit _ | .enqSwap _ _
  | .enqLink _ _ _ | .deqHead _ | .deqLone _ _ | .deqSucc _ _ _ | .deqUnlink _ _ _ | .deqClear _
  | .crcReset | .crcRxStep _ | .crcRxCheck _ | .crcTxStep _ | .crcTxSend | .crcFlag => none

/-- The port word that a row of spec/opcode_table.json with `nbits` bits stands for: a row of 8 bits is a command word, a
row of 12 bits (16 in whole bytes) a buffer-access word whose data byte, to which the table gives no bits, is 0
(log entry 18). -/
def tableWord (nbits w : Nat) : Option PortWord :=
  if nbits = 8 then
    if w < 256 then some (.cw (BitVec.ofNat 8 w)) else none
  else if nbits = 12 ∨ nbits = 16 then
    if w < 4096 then some (.ba (BitVec.ofNat 12 w) 0) else none
  else none

/-- The instruction the decoder reads from a row's word. -/
def decodeTableWord (nbits w : Nat) : Option Instr :=
  match tableWord nbits w with
  | none => none
  | some p => (decode p).toOption

/-- The status field of a response word (R102, R211). -/
inductive Status
  | ok
  | okIdx
  | none
  | errOwner
  | errIllegal
  | errRange
  deriving DecidableEq, Repr

/-- The codes of the status field (R102). -/
def Status.bits : Status → BitVec 3
  | .ok => 0b000#3
  | .okIdx => 0b001#3
  | .none => 0b010#3
  | .errOwner => 0b011#3
  | .errIllegal => 0b100#3
  | .errRange => 0b101#3

/-- The status a 3-bit field stands for; 0b110 and 0b111 are reserved and never produced (R102, U12). -/
def statusOfBits (b : BitVec 3) : Option Status :=
  match b.toNat with
  | 0 => some .ok
  | 1 => some .okIdx
  | 2 => some .none
  | 3 => some .errOwner
  | 4 => some .errIllegal
  | 5 => some .errRange
  | _ => Option.none

/-- What the port answers (R102): a status, the buffer when the status is OK_IDX, and the data byte of a read. -/
structure Response where
  status : Status
  idx : Option BufIdx
  data : Option Byte
  deriving DecidableEq, Repr

/-- The index field of a response word (R102): the buffer index when the status is OK_IDX, 0b00000 otherwise. -/
def Response.idxField (r : Response) : BitVec 5 :=
  match r.status, r.idx with
  | .okIdx, some i => fieldOfBuf i
  | _, _ => 0#5

/-- The response word `RW` (R102): `status[7:5] idx[4:0]`. -/
def Response.word (r : Response) : BitVec 8 := r.status.bits ++ r.idxField

end Sys2Proof
end

