-- ==== Sys2Proof/Machine/Crc.lean ====
section
/-! DEFINITION. The link CRC as a function (43_crc_validator.md R190, R191): what the meanings use, the fold over a byte
sequence, and the default instance of the spec's numeric examples. -/

namespace Sys2Proof.Machine

/-- The `LINKCRC` every meaning uses: the OPEN parameter of Config (R190, log entry 6). -/
def linkCrc : LinkCrc := Config.hardwareLinkCrc

/-- `crc(v)`, the fold of `crc_step` from `CRC_INIT` over a byte sequence, first byte first (R190). -/
def crcOf (c : LinkCrc) (v : List Byte) : Byte := v.foldl c.step c.init

/-- One of the eight rounds of R191: shift left by one, and XOR 0x07 if the bit shifted out was 1. -/
def crc8Round (c : Byte) : Byte := if c.msb then (c <<< 1) ^^^ 0x07#8 else c <<< 1

/-- `n` rounds of R191. -/
def crc8Rounds : Nat → Byte → Byte
  | 0, c => c
  | n + 1, c => crc8Rounds n (crc8Round c)

/-- `step(acc, byte)` of R191. -/
def crc8Step (acc byte : Byte) : Byte := crc8Rounds 8 (acc ^^^ byte)

/-- The default instance of `LINKCRC` (R191), used by the spec's numeric examples only. -/
def defaultLinkCrc : LinkCrc := { init := 0x00#8, step := crc8Step }

end Sys2Proof.Machine
end

