-- ==== Sys2Proof/Machine/Hardware.lean ====
section
/-! DEFINITION. The structure `Config` of 00_scope.md R6 at its values for this hardware. -/

namespace Sys2Proof.Machine

/-- The Config of PTB, the value column of R6: `LINKCRC` OPEN (log entry 6), `TX_DEQ_AT_START` true (log entry 20). -/
def ptb : Config where
  nBuf := Hw.nBuf
  hdrBytes := Hw.hdrBytes
  payloadBytes := Hw.payloadBytes
  crcBytes := Hw.crcBytes
  lead := Hw.lead
  xferIdBits := Hw.xferIdBits
  xferIdInit := 0
  linkCrc := linkCrc
  txDeqAtStart := true
  sizes := ⟨rfl, rfl, rfl, rfl, rfl⟩

end Sys2Proof.Machine
end

