-- ==== Sys2Proof/Machine/State.lean ====
section
/-! DEFINITION. The state of PTB: every item of 10_state.md R20, the model-only mark of R43, and the model's own plain
data (the schedule of the steps to come, the output ports, the counters that index free values), each said to be the
model's own where it stands. -/

namespace Sys2Proof.Machine

/-- Pool bytes (R21, R60): (address, byte) pairs, addresses rising; the byte at offset `off` of buffer `i` has the
address `64 * i + off` (log entry 10). -/
abbrev Memory := List Host.Cell

/-- A queue object (R25): its head word, and its `last` word, which starts at the sentinel. -/
structure Queue where
  head : Option BufIdx
  last : NodeRef
  deriving DecidableEq, Repr

/-- The link space (R60): `next[i]` of every buffer (R23) and the three queue objects (R25). `none` is `NIL`. -/
structure Links where
  next : Vector (Option BufIdx) (delta% Hw.nBuf)
  free : Queue
  inbox : Queue
  outbox : Queue
  deriving DecidableEq, Repr

/-- Where a buffer is (R30). -/
inductive Owner
  | free
  | inbox
  | outbox
  | rxStaged
  | txStaged
  | client
  deriving DecidableEq, Repr

/-- What a DMA channel points at (R34, R35): the zero buffer Z (`ZIDX`, R24), or a buffer. -/
inductive Target
  | zero
  | buf (i : BufIdx)
  deriving DecidableEq, Repr

/-- A DMA channel with transfer count `count` (R34, R35). -/
structure Dma (count : Nat) where
  en : Bool
  tcif : Bool
  idx : Target
  pos : Fin (count + 1)
  deriving DecidableEq, Repr

/-- The SPI unit (R36). -/
structure Spi where
  lead : Byte
  k : Nat
  rxcrc : Byte
  txcrc : Byte
  crcerr : Bool
  deriving DecidableEq, Repr

/-- Where the client's command in progress stands between two of its steps: `cmd.op` and `cmd.step` of R39 in one, since
only these pairs can rest (R272: ZERO, SEND.SWAP and HEAD run in the step that issues the command). -/
inductive CmdPos
  | idle
  | freeSwap
  | freeLink
  | sendLink
  | recvLone
  | recvSucc
  | recvUnlink
  | recvClear
  deriving DecidableEq, Repr

/-- The client's command in progress and its temporaries (R39). -/
structure Cmd where
  pos : CmdPos
  x : BufIdx
  p : NodeRef
  h : BufIdx
  lone : Bool
  s : Option BufIdx
  deriving DecidableEq, Repr

/-- One entry of the schedule: a step of R275, or the hardware reset of R240. -/
inductive Event
  /-- `Link.EDGE`: one transition of the frame delimiter, in either direction (R161). -/
  | edge
  /-- `Link.XCHG m`: one byte time, the host sending `m`. -/
  | xchg (m : Byte)
  /-- `Client.issue w`: the client presents a word. -/
  | issue (w : PortWord)
  /-- `Client.continue`: the client runs the next micro-step of its command (R272). -/
  | proceed
  /-- The hardware reset of the microcontroller (R240; log entry 14). -/
  | hwReset
  deriving DecidableEq, Repr

/-- What an internal operation hands to its caller (R8): the model's own, for the rows of formats HANDLER, MICRO and CRC
when `exec` runs one of them alone (log entry 17). -/
inductive Ret
  /-- No internal operation has run alone. -/
  | nothing
  /-- Done, without a result value. -/
  | done
  /-- `NONE`. -/
  | none
  /-- A buffer. -/
  | buf (i : BufIdx)
  /-- A node reference (the previous tail). -/
  | ref (p : NodeRef)
  /-- A link value (a successor; `none` is `NIL`). -/
  | link (s : Option BufIdx)
  /-- A flag. -/
  | flag (b : Bool)
  deriving DecidableEq, Repr

/-- The whole machine. -/
structure State where
  /-- `buf[i].b[off]` (R21, R22). -/
  pool : Memory
  /-- The link space (R23, R25). -/
  links : Links
  /-- `owner[i]` (R30). -/
  owner : Vector Owner (delta% Hw.nBuf)
  /-- `cur_rx` (R29); `none` is `NONE`. -/
  curRx : Option BufIdx
  /-- `cur_tx` (R29). -/
  curTx : Option BufIdx
  /-- `busy` (R31). -/
  busy : Bool
  /-- `enabled` (R33). -/
  enabled : Bool
  /-- `xfer_id` (R32). -/
  xferId : BitVec (delta% Hw.xferIdBits)
  /-- `dma_rx`, transfer count PKT_BYTES = 37 (R34). -/
  dmaRx : Dma (delta% Hw.pktBytes)
  /-- `dma_tx`, transfer count DATA_BYTES = 36 (R35). -/
  dmaTx : Dma (delta% Hw.dataBytes)
  /-- The SPI unit (R36). -/
  spi : Spi
  /-- The client's command in progress (R39). -/
  cmd : Cmd
  /-- `link_fault` (R43), the sticky model-only mark. -/
  linkFault : Bool
  /-- The model's own: what the client port answered last; none while a command is in progress (log entry 5). -/
  resp : Option Response
  /-- The model's own: the byte the block sent last (log entry 5). -/
  miso : Option Byte
  /-- The model's own: the result of the last internal operation run alone (log entries 5, 17). -/
  ret : Ret
  /-- The model's own: the steps to come, first one next (R40 "the schedule"; log entry 1). -/
  inputs : List Event
  /-- The model's own: how many draws have been taken (log entry 7). -/
  draws : Nat
  /-- The model's own: how many hardware resets have followed the first (log entries 8, 14). -/
  resets : Nat
  deriving DecidableEq, Repr

/-- Why the machine stops with a fault. There is no constructor: "PTB itself has no fatal condition" (R225), "No step
blocks, none is partial" (R275), and an address that does not exist (R61) cannot be written down in the operand types
(log entry 25). -/
inductive Fault
  deriving DecidableEq, Repr

/-- Why an operation has no meaning. -/
inductive Refusal
  /-- Raised by an arm of `exec` whose instruction has no meaning yet, and by nothing else; safe, since the machine stops. -/
  | notModelled (mnemonic : String)
  deriving DecidableEq, Repr

/-- An empty queue (R121, R41): no head, `last` at the sentinel. -/
def Queue.empty : Queue := { head := none, last := .sent }

/-- The link space after reset (R41), `0`, `1`, ..., `N_BUF - 1` linked in this order: all buffers in FREE in ascending order, INBOX and OUTBOX empty. -/
def Links.reset : Links where
  next := Vector.ofFn fun i => if h : i.val + 1 < delta% Hw.nBuf then some ⟨i.val + 1, h⟩ else none
  free := { head := some 0, last := .node ⟨(delta% Hw.nBuf) - 1, by omega⟩ }
  inbox := Queue.empty
  outbox := Queue.empty

/-- A DMA channel after reset (R41). -/
def Dma.reset (count : Nat) : Dma count := { en := false, tcif := false, idx := .zero, pos := 0 }

/-- The SPI unit after reset (R41) under a link CRC function. -/
def Spi.reset (c : LinkCrc) : Spi := { lead := 0, k := 0, rxcrc := c.init, txcrc := c.init, crcerr := false }

/-- The command port after reset: `Idle` (R41); the temporaries, which the spec leaves open, hold values the model names
(log entry 11) and are written before they are read (U15). -/
def Cmd.reset : Cmd := { pos := .idle, x := 0, p := .sent, h := 0, lone := false, s := none }

/-- The state after reset under a Config (R41). No pool byte is listed: headers read 0x00 and payloads are
draws (log entry 8). The last six fields are the model's own (log entry 19). -/
def State.resetWith (c : Config) : State where
  pool := []
  links := Links.reset
  owner := Vector.replicate (delta% Hw.nBuf) .free
  curRx := none
  curTx := none
  busy := false
  enabled := true
  xferId := c.firstXferId
  dmaRx := Dma.reset (delta% Hw.pktBytes)
  dmaTx := Dma.reset (delta% Hw.dataBytes)
  spi := Spi.reset c.linkCrc
  cmd := Cmd.reset
  linkFault := false
  resp := none
  miso := none
  ret := .nothing
  inputs := []
  draws := 0
  resets := 0

/-- The machine right after reset (R41, R240). -/
def State.reset : State := State.resetWith ptb

end Sys2Proof.Machine
end

