-- ==== Sys2Proof/Machine/Ops.lean ====
section
/-! DEFINITION. The named operations over memory and registers: pool bytes (R10, R60), the link space with its two atomic
primitives (R26, R66), ownership (R30), draws (R8), the client's response (R102), and the entry of the one interrupt,
the edge, with its return (R221, R222). -/

namespace Sys2Proof.Machine

/-- What an operation answers. -/
abbrev Answer := Host.Outcome State Fault Refusal

/-! ## Pool bytes -/

/-- The address of the byte at offset `off` of buffer `i`: the ten low bits of a BA word, so that no two buffers share
an address and no offset runs on into the next buffer (R61, log entry 10). -/
def poolKey (i : BufIdx) (off : Offset) : Nat := 64 * i.val + off.val

/-- The addresses of bytes that exist (R60). -/
def keyExists (a : Nat) : Bool := decide (a / 64 < Hw.nBuf) && decide (a % 64 < Hw.pktBytes)

/-- What an address that is not listed holds: a header byte holds 0x00 (R41); a payload byte and the slot at offset 36
have no value the model names (log entries 8, 9). -/
def unlistedByte (a : Nat) : Option Byte := if a % 64 < Hw.hdrBytes then some 0x00#8 else none

/-- The value listed for an address. -/
def Memory.lookup : Memory → Nat → Option Byte
  | [], _ => none
  | c :: t, a => if c.1 = a then some c.2 else Memory.lookup t a

/-- The byte at an address: the listed value; else the header's 0x00; else the free value drawn at the `r`-th hardware
reset (R41, U3). -/
def Memory.read (r : Nat) (m : Memory) (a : Nat) : Byte :=
  match Memory.lookup m a with
  | some v => v
  | none =>
    match unlistedByte a with
    | some v => v
    | none => Config.powerOnByte r a

/-- List a value for an address, in address order. -/
def Memory.put : Memory → Nat → Byte → Memory
  | [], a, v => [(a, v)]
  | c :: t, a, v =>
    if a < c.1 then (a, v) :: c :: t
    else if a = c.1 then (a, v) :: t
    else c :: Memory.put t a v

/-- Take an address off the list. -/
def Memory.drop (m : Memory) (a : Nat) : Memory := m.filter fun c => decide (c.1 ≠ a)

/-- Store a byte, keeping the canonical form: the value an unlisted address holds is not listed. -/
def Memory.write (m : Memory) (a : Nat) (v : Byte) : Memory :=
  if unlistedByte a = some v then Memory.drop m a else Memory.put m a v

/-- Take every header byte back to its reset value 0x00 and keep all others (R148: INIT). -/
def Memory.clearHeaders (m : Memory) : Memory := m.filter fun c => decide (Hw.hdrBytes ≤ c.1 % 64)

/-- Every address on the list lies above `a`. -/
def Memory.above (a : Nat) (m : Memory) : Bool := m.all fun c => decide (a < c.1)

/-- The canonical form: addresses strictly rising, each of a byte that exists, none listed with the value an unlisted
address holds. -/
def Memory.wf : Memory → Bool
  | [] => true
  | c :: t => Memory.above c.1 t && keyExists c.1 && decide (unlistedByte c.1 ≠ some c.2) && Memory.wf t

/-- The pool byte at offset `off` of buffer `i`. -/
def State.byteAt (s : State) (i : BufIdx) (off : Offset) : Byte := s.pool.read s.resets (poolKey i off)

/-- `MemRead(i, off)` (R10): Z reads 0x00 at every offset (R24). -/
def State.memRead (s : State) (t : Target) (off : Offset) : Byte :=
  match t with
  | .zero => 0x00#8
  | .buf i => s.byteAt i off

/-- `MemRead(i, off, n)` (R10): the `n` bytes from `off`, lowest offset first, where all of them exist (R61). -/
def State.memReadN (s : State) (t : Target) (off n : Nat) (h : off + n ≤ delta% Hw.pktBytes) : List Byte :=
  (List.finRange n).map fun j => s.memRead t ⟨off + j.val, by omega⟩

/-- `MemWrite(i, off, v)` (R10): a write to Z changes nothing (R24). -/
def State.memWrite (s : State) (t : Target) (off : Offset) (v : Byte) : State :=
  match t with
  | .zero => s
  | .buf i => { s with pool := s.pool.write (poolKey i off) v }

/-- The four stores of 0x00 into the header of buffer `i` (R142, R149). -/
def State.zeroHeader (s : State) (i : BufIdx) : State :=
  (((s.memWrite (.buf i) 0 0x00#8).memWrite (.buf i) 1 0x00#8).memWrite (.buf i) 2 0x00#8).memWrite (.buf i) 3 0x00#8

/-! ## Link space -/

/-- The queue object of a name (R25). -/
def Links.queue (l : Links) : QueueName → Queue
  | .free => l.free
  | .inbox => l.inbox
  | .outbox => l.outbox

/-- Write a queue object. -/
def Links.setQueue (l : Links) (q : QueueName) (v : Queue) : Links :=
  match q with
  | .free => { l with free := v }
  | .inbox => { l with inbox := v }
  | .outbox => { l with outbox := v }

/-- `next[i]` (R23). -/
def Links.nextOf (l : Links) (i : BufIdx) : Option BufIdx := l.next.get i

/-- `next[i] <- v`. -/
def Links.setNext (l : Links) (i : BufIdx) (v : Option BufIdx) : Links :=
  { l with next := l.next.set i.val v i.isLt }

/-- `nxt(q, r)` (R10, R26). -/
def Links.nxt (l : Links) (q : QueueName) : NodeRef → Option BufIdx
  | .sent => (l.queue q).head
  | .node i => l.nextOf i

/-- `set_nxt(q, r, v)` (R10, R26): the sentinel's successor field is the queue's head word. -/
def Links.setNxt (l : Links) (q : QueueName) (r : NodeRef) (v : Option BufIdx) : Links :=
  match r with
  | .sent => l.setQueue q { l.queue q with head := v }
  | .node i => l.setNext i v

/-- `swap(q.last, v)` (R66): one indivisible step that returns the old value. -/
def Links.swapLast (l : Links) (q : QueueName) (v : NodeRef) : NodeRef × Links :=
  ((l.queue q).last, l.setQueue q { l.queue q with last := v })

/-- `cas(q.last, old, new)` (R66). -/
def Links.casLast (l : Links) (q : QueueName) (old new : NodeRef) : Bool × Links :=
  if (l.queue q).last = old then (true, l.setQueue q { l.queue q with last := new }) else (false, l)

/-- `cas(q.head, old, new)` (R66). -/
def Links.casHead (l : Links) (q : QueueName) (old new : Option BufIdx) : Bool × Links :=
  if (l.queue q).head = old then (true, l.setQueue q { l.queue q with head := new }) else (false, l)

/-! ## Ownership, draws, the response -/

/-- `owner[i]` (R30). -/
def State.ownerOf (s : State) (i : BufIdx) : Owner := s.owner.get i

/-- `owner[i] <- o`. -/
def State.setOwner (s : State) (i : BufIdx) (o : Owner) : State :=
  { s with owner := s.owner.set i.val o i.isLt }

/-- `draw()` (R10): a fresh free value. -/
def State.draw (s : State) : Byte × State := (Config.draw s.draws, { s with draws := s.draws + 1 })

/-- The port returns `RW` with a status, a buffer when the status is OK_IDX, a data byte for a read (R102). -/
def State.respond (s : State) (status : Status) (idx : Option BufIdx) (data : Option Byte) : State :=
  { s with resp := some { status := status, idx := idx, data := data } }

/-- `cmd.op <- Idle` when a command of several steps returns its `RW` (R140). -/
def State.endCommand (s : State) : State := { s with cmd := { s.cmd with pos := .idle } }

/-- A refusal (R210): the port returns the status, and no state changes. -/
def State.refuse (s : State) (status : Status) : State := s.respond status none none

/-! ## The edge interrupt -/

/-- The two routines of the edge handler (R162, R167). -/
inductive Handler
  | start
  | finish
  deriving DecidableEq, Repr

/-- Handler entry (R160, R221): taking the edge saves no state and changes no mode; the one dispatch is on `enabled` and
`busy`. With `enabled = 0` no edge is taken (R33, R219). -/
def State.edgeEntry (s : State) : Option Handler :=
  if s.enabled then (if s.busy then some .finish else some .start) else none

/-- Handler return (R222): the handler returns by ending, and there is nothing to restore. -/
def State.handlerReturn (s : State) : State := s

end Sys2Proof.Machine
end

