-- ==== Sys2Proof/Machine/Operands.lean ====
section
/-! DEFINITION. The operand forms: the offset field of a buffer access (R103, R146), the target a staging register selects
(R165), the named packet offsets (R22, R70), and the little-endian reading of a payload integer (R62, R99). -/

namespace Sys2Proof.Machine

/-- `BA[5:0]` as an offset: 37 .. 63 name no byte (R61, R103). -/
def offsetOfField (off : BitVec 6) : Option Offset :=
  if h : off.toNat < delta% Hw.pktBytes then some ⟨off.toNat, h⟩ else none

/-- The index that names what a channel points at: ZIDX for Z (R24, R34). -/
def Target.index (c : Config) : Target → Nat
  | .zero => c.zidx
  | .buf i => i.val

/-- `cur if cur != NONE else ZIDX` (R165). -/
def targetOf : Option BufIdx → Target
  | none => .zero
  | some i => .buf i

/-- Offset of `id` (R22). -/
def offId : Offset := 0
/-- Offset of `type` (R22). -/
def offType : Offset := 1
/-- Offset of `remaining_fragments` (R22). -/
def offFragments : Offset := 2
/-- Offset of `flags` (R22). -/
def offFlags : Offset := 3
/-- The `transport_crc` slot, whose content is unspecified at all times (R22). -/
def offCrcSlot : Offset := ⟨delta% Hw.dataBytes, by omega⟩

/-- Payload byte `p` is at offset `4 + p` (R70). -/
def payloadOffset (p : Fin (delta% Hw.payloadBytes)) : Offset :=
  ⟨(delta% Hw.hdrBytes) + p.val, by omega⟩

/-- `le32` (R10, R99): a little-endian u32 from four bytes. No PTB rule assembles one; the client does. -/
def le32 (b0 b1 b2 b3 : Byte) : BitVec 32 := b3 ++ b2 ++ b1 ++ b0

/-- The u32 field at payload offset `p` of buffer `i` (R99). -/
def State.payloadU32 (s : State) (i : BufIdx) (p : Fin 29) : BitVec 32 :=
  le32 (s.byteAt i ⟨4 + p.val, by omega⟩) (s.byteAt i ⟨5 + p.val, by omega⟩)
    (s.byteAt i ⟨6 + p.val, by omega⟩) (s.byteAt i ⟨7 + p.val, by omega⟩)

end Sys2Proof.Machine
end

