-- ==== Sys2Proof/Machine/Flags.lean ====
section
/-! DEFINITION. Every flag computation of 10_state.md R37: the transfer-complete flags and the positions they follow (R34,
R35), the CRC mismatch flag (R194) and bit 0 of the packet's `flags` byte (R94, R196). -/

namespace Sys2Proof.Machine

/-- Arming a channel (R34, R165): target set, position 0, `tcif` cleared, enabled. -/
def Dma.arm {count : Nat} (_ : Dma count) (t : Target) : Dma count :=
  { en := true, tcif := false, idx := t, pos := 0 }

/-- Disabling a channel (R167). -/
def Dma.disable {count : Nat} (d : Dma count) : Dma count := { d with en := false }

/-- One byte moved: the position goes up by one and stops at the count (R69), and `tcif` is set when it has reached it
(R35, R171). -/
def Dma.advance {count : Nat} (d : Dma count) : Dma count :=
  if h : d.pos.val + 1 < count + 1 then
    { d with pos := ⟨d.pos.val + 1, h⟩, tcif := d.tcif || decide (d.pos.val + 1 = count) }
  else d

/-- The receive channel after the byte of exchange `k < DATA_BYTES`: `dma_rx.pos <- k + 1` (R172). -/
def Dma.receivedAt (d : Dma (delta% Hw.pktBytes)) (k : Nat) (h : k < delta% Hw.dataBytes) :
    Dma (delta% Hw.pktBytes) := { d with pos := ⟨k + 1, by omega⟩ }

/-- The receive channel after the CRC byte: `dma_rx.pos <- PKT_BYTES ; dma_rx.tcif <- 1` (R172). -/
def Dma.receivedAll (d : Dma (delta% Hw.pktBytes)) : Dma (delta% Hw.pktBytes) :=
  { d with pos := Fin.last _, tcif := true }

/-- `if m != spi.rxcrc then spi.crcerr <- 1`: set by a mismatch, never cleared (R194). -/
def crcErrAfter (crcerr : Bool) (m rxcrc : Byte) : Bool := crcerr || decide (m ≠ rxcrc)

/-- The packet's `flags` byte with CRCERR ORed in (R94, R196). -/
def withCrcErr (flags : Byte) : Byte := flags ||| 0x01#8

end Sys2Proof.Machine
end

