-- ==== Sys2Proof/Machine/Queue.lean ====
section
/-! DEFINITION. The intrusive queue, micro-step by micro-step (40_queue.md): each micro-step as an operation on the link
space, `enqueue` and `dequeue` as their sequences, and the meanings of the MICRO rows. -/

namespace Sys2Proof.Machine

/-- Q_INIT (R121). -/
def Links.qInit (l : Links) (q : QueueName) : Links := l.setQueue q Queue.empty

/-- ENQ.SWAP (R122): the previous tail, and the link space with `x` as the tail. -/
def Links.enqSwap (l : Links) (q : QueueName) (x : BufIdx) : NodeRef × Links := l.swapLast q (.node x)

/-- ENQ.LINK (R123): previous tail's successor is `x`. It does not write `next[x]`. -/
def Links.enqLink (l : Links) (q : QueueName) (p : NodeRef) (x : BufIdx) : Links := l.setNxt q p (some x)

/-- `enqueue(q, x)` (R124), its two steps contiguous. -/
def Links.enqueue (l : Links) (q : QueueName) (x : BufIdx) : Links :=
  (l.enqSwap q x).2.enqLink q (l.enqSwap q x).1 x

/-- DEQ.HEAD (R125): the head; `none` is the return of NONE. -/
def Links.deqHead (l : Links) (q : QueueName) : Option BufIdx := (l.queue q).head

/-- DEQ.LONE (R126): whether `h` was the lone node, its `last` word then put back to the sentinel. -/
def Links.deqLone (l : Links) (q : QueueName) (h : BufIdx) : Bool × Links :=
  if (l.queue q).last = .node h then l.casLast q (.node h) .sent else (false, l)

/-- DEQ.SUCC (R127): the successor of `h`; `none` is the guard's return of NONE (conflict C1). -/
def Links.deqSucc (l : Links) (h : BufIdx) (lone : Bool) : Option (Option BufIdx) :=
  if l.nextOf h = none ∧ lone = false then none else some (l.nextOf h)

/-- DEQ.UNLINK (R128): the result of the `cas` is ignored. -/
def Links.deqUnlink (l : Links) (q : QueueName) (h : BufIdx) (s : Option BufIdx) : Links := (l.casHead q (some h) s).2

/-- DEQ.CLEAR (R129). -/
def Links.deqClear (l : Links) (h : BufIdx) : Links := l.setNext h none

/-- `dequeue(q)` (R130), its steps contiguous: the node returned (`none` is NONE), and the link space left. -/
def Links.dequeue (l : Links) (q : QueueName) : Option BufIdx × Links :=
  match l.deqHead q with
  | none => (none, l)
  | some h =>
    match (l.deqLone q h).2.deqSucc h (l.deqLone q h).1 with
    | none => (none, (l.deqLone q h).2)
    | some s => (some h, ((l.deqLone q h).2.deqUnlink q h s).deqClear h)

/-! ## The MICRO rows run alone: the result goes to `ret` (log entry 17) -/

/-- Q_INIT (R121). -/
def execQInit (q : QueueName) (s : State) : Answer := .next { s with links := s.links.qInit q, ret := .done }

/-- ENQ.SWAP (R122): `p` is the result. -/
def execEnqSwap (q : QueueName) (x : BufIdx) (s : State) : Answer :=
  .next { s with links := (s.links.enqSwap q x).2, ret := .ref (s.links.enqSwap q x).1 }

/-- ENQ.LINK (R123). -/
def execEnqLink (q : QueueName) (p : NodeRef) (x : BufIdx) (s : State) : Answer :=
  .next { s with links := s.links.enqLink q p x, ret := .done }

/-- A node, or NONE, as a result. -/
def retOfNode : Option BufIdx → Ret
  | none => .none
  | some i => .buf i

/-- DEQ.HEAD (R125): `h`, or NONE. -/
def execDeqHead (q : QueueName) (s : State) : Answer := .next { s with ret := retOfNode (s.links.deqHead q) }

/-- DEQ.LONE (R126): `lone` is the result. -/
def execDeqLone (q : QueueName) (h : BufIdx) (s : State) : Answer :=
  .next { s with links := (s.links.deqLone q h).2, ret := .flag (s.links.deqLone q h).1 }

/-- The result of DEQ.SUCC: the successor, or NONE from the guard. -/
def retOfSucc : Option (Option BufIdx) → Ret
  | none => .none
  | some s => .link s

/-- DEQ.SUCC (R127). The queue operand is read by no part of the rule's pseudocode. -/
def execDeqSucc (_q : QueueName) (h : BufIdx) (lone : Bool) (s : State) : Answer :=
  .next { s with ret := retOfSucc (s.links.deqSucc h lone) }

/-- DEQ.UNLINK (R128). -/
def execDeqUnlink (q : QueueName) (h : BufIdx) (succ : Option BufIdx) (s : State) : Answer :=
  .next { s with links := s.links.deqUnlink q h succ, ret := .done }

/-- DEQ.CLEAR (R129): returns `h`. -/
def execDeqClear (h : BufIdx) (s : State) : Answer :=
  .next { s with links := s.links.deqClear h, ret := .buf h }

end Sys2Proof.Machine
end

