-- ==== Sys2Proof/Machine/CrcHarness.lean ====
section
/-! DEFINITION. The link CRC harness (43_crc_validator.md R192 to R196): the steps over the SPI unit, each under a link
CRC function, and the meanings of the CRC rows, which use the machine's own. -/

namespace Sys2Proof.Machine

/-- CRC.RESET (R192). -/
def State.crcReset (c : LinkCrc) (s : State) : State :=
  { s with spi := { s.spi with rxcrc := c.init, txcrc := c.init, crcerr := false } }

/-- CRC.RX_STEP (R193). -/
def State.crcRxStep (c : LinkCrc) (m : Byte) (s : State) : State :=
  { s with spi := { s.spi with rxcrc := c.step s.spi.rxcrc m } }

/-- CRC.RX_CHECK (R194). -/
def State.crcRxCheck (m : Byte) (s : State) : State :=
  { s with spi := { s.spi with crcerr := crcErrAfter s.spi.crcerr m s.spi.rxcrc } }

/-- CRC.TX_STEP (R195). -/
def State.crcTxStep (c : LinkCrc) (v : Byte) (s : State) : State :=
  { s with spi := { s.spi with txcrc := c.step s.spi.txcrc v } }

/-- CRC.FLAG (R196): only when the receive channel is complete and a buffer is staged, and the check failed. -/
def State.crcFlag (s : State) : State :=
  match s.curRx with
  | none => s
  | some i =>
    if s.dmaRx.tcif && s.spi.crcerr then
      s.memWrite (.buf i) offFlags (withCrcErr (s.memRead (.buf i) offFlags))
    else s

/-- CRC.RESET (R192). -/
def execCrcReset (s : State) : Answer := .next { s.crcReset linkCrc with ret := .done }

/-- CRC.RX_STEP (R193). -/
def execCrcRxStep (m : Byte) (s : State) : Answer := .next { s.crcRxStep linkCrc m with ret := .done }

/-- CRC.RX_CHECK (R194). -/
def execCrcRxCheck (m : Byte) (s : State) : Answer := .next { s.crcRxCheck m with ret := .done }

/-- CRC.TX_STEP (R195). -/
def execCrcTxStep (v : Byte) (s : State) : Answer := .next { s.crcTxStep linkCrc v with ret := .done }

/-- CRC.TX_SEND (R195): the block sends `spi.txcrc`. -/
def execCrcTxSend (s : State) : Answer := .next { s with miso := some s.spi.txcrc, ret := .done }

/-- CRC.FLAG (R196). -/
def execCrcFlag (s : State) : Answer := .next { s.crcFlag with ret := .done }

end Sys2Proof.Machine
end

