-- ==== Sys2Proof/Machine/Transaction.lean ====
section
/-! DEFINITION. The transaction state machine (42_transaction.md): the handler's helpers, START and FINISH part by part,
EDGE, and XCHG with its outgoing and incoming byte. -/

namespace Sys2Proof.Machine

/-! ## The handler's helpers (R149) -/

/-- `alloc_internal()` (R149): `dequeue(FREE)`; `owner` is the caller's to set. -/
def State.allocInternal (s : State) : Option BufIdx × State :=
  ((s.links.dequeue .free).1, { s with links := (s.links.dequeue .free).2 })

/-- `free_internal(i)` (R149): zero the header, `owner[i] <- Free`, `enqueue(FREE, i)`. -/
def State.freeInternal (i : BufIdx) (s : State) : State :=
  { (s.zeroHeader i).setOwner i .free with links := s.links.enqueue .free i }

/-- `dequeue(OUTBOX)` by the handler (R164, R175). -/
def State.takeOutbox (s : State) : Option BufIdx × State :=
  ((s.links.dequeue .outbox).1, { s with links := (s.links.dequeue .outbox).2 })

/-! ## Staging -/

/-- Receive staging (R163, R175): if `cur_rx = NONE`, allocate; NONE leaves it so. -/
def State.stageRx (s : State) : State :=
  match s.curRx with
  | some _ => s
  | none =>
    match s.allocInternal.1 with
    | none => s.allocInternal.2
    | some r => { s.allocInternal.2.setOwner r .rxStaged with curRx := some r }

/-- Transmit staging (R175): if `cur_tx = NONE`, dequeue OUTBOX; NONE leaves it so. -/
def State.stageTx (s : State) : State :=
  match s.curTx with
  | some _ => s
  | none =>
    match s.takeOutbox.1 with
    | none => s.takeOutbox.2
    | some t => { s.takeOutbox.2.setOwner t .txStaged with curTx := some t }

/-- Transmit staging at START (R164), which asks TX_DEQ_AT_START first. -/
def State.stageTxAtStart (txDeq : Bool) (s : State) : State := if txDeq then s.stageTx else s

/-! ## START (R162) -/

/-- `arm_dma()` (R165). -/
def State.armDma (s : State) : State :=
  { s with dmaRx := s.dmaRx.arm (targetOf s.curRx), dmaTx := s.dmaTx.arm (targetOf s.curTx) }

/-- `preload_transfer_id()` (R166): the value before the increment is sent; the sum wraps. -/
def State.preloadTransferId (s : State) : State :=
  { s with spi := { s.spi with lead := s.xferId }, xferId := s.xferId + 1#8 }

/-- START (R162). -/
def State.start (c : Config) (s : State) : State :=
  { ((s.stageRx.stageTxAtStart c.txDeqAtStart).armDma).preloadTransferId with busy := true }

/-! ## FINISH (R167) -/

/-- Both channels off (R167). -/
def State.disableDma (s : State) : State := { s with dmaRx := s.dmaRx.disable, dmaTx := s.dmaTx.disable }

/-- `dispose_rx()` (R168): a complete frame in a buffer is flagged, handed to INBOX and unstaged. -/
def State.disposeRx (s : State) : State :=
  match s.curRx with
  | none => s
  | some i =>
    if s.dmaRx.tcif then
      { s.crcFlag.setOwner i .inbox with links := s.links.enqueue .inbox i, curRx := none }
    else s

/-- `dispose_tx()` (R169): a buffer sent to the end goes back to FREE. -/
def State.disposeTx (s : State) : State :=
  match s.curTx with
  | none => s
  | some i => if s.dmaTx.tcif then { s.freeInternal i with curTx := none } else s

/-- `spi_reset_and_rearm()` (R174): CRC.RESET, and `spi.k <- 0`. -/
def State.spiRearm (c : LinkCrc) (s : State) : State :=
  { s.crcReset c with spi := { (s.crcReset c).spi with k := 0 } }

/-- `prestage()` (R175): receive first, then transmit. -/
def State.prestage (s : State) : State := s.stageRx.stageTx

/-- FINISH (R167). -/
def State.finish (c : Config) (s : State) : State :=
  { ((s.disableDma.disposeRx.disposeTx).spiRearm c.linkCrc).prestage with busy := false }

/-! ## EDGE (R160) -/

/-- EDGE (R160), with the whole routine it runs (R214). -/
def State.edge (c : Config) (s : State) : State :=
  match s.edgeEntry with
  | none => s
  | some .start => (s.start c).handlerReturn
  | some .finish => (s.finish c).handlerReturn

/-! ## XCHG (R170) -/

/-- `outgoing_byte(k)` (R171). A channel that is not armed moves nothing (R69), and the byte sent in its place is a draw
(log entry 13). -/
def State.outgoing (c : Config) (k : Nat) (s : State) : Byte × State :=
  if k < c.lead then (s.spi.lead, s)
  else if k < c.lead + c.dataBytes then
    if s.dmaTx.en then
      (s.memRead s.dmaTx.idx s.dmaTx.pos,
        { s.crcTxStep c.linkCrc (s.memRead s.dmaTx.idx s.dmaTx.pos) with dmaTx := s.dmaTx.advance })
    else (s.draw.1, s.draw.2.crcTxStep c.linkCrc s.draw.1)
  else if k = c.lead + c.dataBytes then (s.spi.txcrc, s)
  else s.draw

/-- `incoming_byte(k, m)` (R172). The CRC byte goes to the slot at offset 36, whose content is unspecified: a free value
is stored there (R22, log entry 9). -/
def State.incoming (c : Config) (k : Nat) (m : Byte) (s : State) : State :=
  if h : k < c.dataBytes then
    if s.dmaRx.en then
      { (s.crcRxStep c.linkCrc m).memWrite s.dmaRx.idx ⟨k, c.lt_pktBytes h⟩ m with
        dmaRx := s.dmaRx.receivedAt k (c.lt_dataBytes h) }
    else s.crcRxStep c.linkCrc m
  else if k = c.dataBytes then
    if s.dmaRx.en then
      { (s.crcRxCheck m).draw.2.memWrite s.dmaRx.idx offCrcSlot (s.crcRxCheck m).draw.1 with
        dmaRx := s.dmaRx.receivedAll }
    else s.crcRxCheck m
  else s

/-- The block sends a byte. -/
def State.send (b : Byte) (s : State) : State := { s with miso := some b }

/-- An exchange inside a transaction (R170): the outgoing byte is decided before the incoming byte is stored. -/
def State.exchange (c : Config) (m : Byte) (s : State) : State :=
  let s1 := (s.outgoing c s.spi.k).2
  let s2 := s1.incoming c s.spi.k m
  { s2 with spi := { s2.spi with k := s.spi.k + 1 }, miso := some (s.outgoing c s.spi.k).1 }

/-- XCHG (R170). While disabled nothing changes and the byte sent is a draw (R179); between frames it is a link
violation, which sets `link_fault` (R43, R179, log entry 12). -/
def State.xchg (c : Config) (m : Byte) (s : State) : State :=
  if s.enabled then
    if s.busy then s.exchange c m
    else { s.draw.2.send s.draw.1 with linkFault := true }
  else s.draw.2.send s.draw.1

/-! ## The meanings of the LINK and HANDLER rows -/

/-- EDGE (R160). -/
def execEdge (s : State) : Answer := .next (s.edge ptb)

/-- XCHG (R170). -/
def execXchg (m : Byte) (s : State) : Answer := .next (s.xchg ptb m)

/-- START (R162), run alone. -/
def execStart (s : State) : Answer := .next { s.start ptb with ret := .done }

/-- FINISH (R167), run alone. -/
def execFinish (s : State) : Answer := .next { s.finish ptb with ret := .done }

/-- ALLOC_INTERNAL (R149), run alone: the buffer or NONE is the result. -/
def execAllocInternal (s : State) : Answer := .next { s.allocInternal.2 with ret := retOfNode s.allocInternal.1 }

/-- FREE_INTERNAL (R149), run alone. -/
def execFreeInternal (i : BufIdx) (s : State) : Answer := .next { s.freeInternal i with ret := .done }

end Sys2Proof.Machine
end

