-- ==== Sys2Proof/Machine/Client.lean ====
section
/-! DEFINITION. The client port (41_pool_commands.md): the commands, the buffer accesses, the micro-steps by which a
command in progress goes on (R272), the answer to a word that names no operation, and the two ways into the reset state
(R240). Issuing FREE, SEND or RECEIVE runs its first micro-step (R275, log entry 4). -/

namespace Sys2Proof.Machine

/-- A command has begun and has not answered yet: it stands at `pos`. -/
def State.beginCommand (s : State) (cmd : Cmd) : State := { s with cmd := cmd, resp := none }

/-- NOP (R145). -/
def execNop (s : State) : Answer := .next (s.respond .ok none none)

/-- ALLOC (R141), one indivisible step. -/
def execAlloc (s : State) : Answer :=
  match s.allocInternal.1 with
  | none => .next (s.allocInternal.2.respond .none none none)
  | some r => .next ((s.allocInternal.2.setOwner r .client).respond .okIdx (some r) none)

/-- FREE.ZERO (R142), the first micro-step of FREE: the ownership check, the header, the owner. -/
def execFree (i : BufIdx) (s : State) : Answer :=
  if s.ownerOf i = .client then
    .next (((s.zeroHeader i).setOwner i .free).beginCommand { s.cmd with pos := .freeSwap, x := i })
  else .next (s.refuse .errOwner)

/-- FREE.SWAP (R142). -/
def State.freeSwap (s : State) : State :=
  { s with
    links := (s.links.enqSwap .free s.cmd.x).2
    cmd := { s.cmd with pos := .freeLink, p := (s.links.enqSwap .free s.cmd.x).1 } }

/-- FREE.LINK (R142). -/
def State.freeLink (s : State) : State :=
  ({ s with links := s.links.enqLink .free s.cmd.p s.cmd.x }.endCommand).respond .ok none none

/-- SEND.SWAP (R143), the first micro-step of SEND. -/
def execSend (i : BufIdx) (s : State) : Answer :=
  if s.ownerOf i = .client then
    .next ({ s.setOwner i .outbox with links := (s.links.enqSwap .outbox i).2 }.beginCommand
      { s.cmd with pos := .sendLink, x := i, p := (s.links.enqSwap .outbox i).1 })
  else .next (s.refuse .errOwner)

/-- SEND.LINK (R143). -/
def State.sendLink (s : State) : State :=
  ({ s with links := s.links.enqLink .outbox s.cmd.p s.cmd.x }.endCommand).respond .ok none none

/-- RECEIVE.HEAD (R144), the first micro-step of RECEIVE. DESIGN CHOICE (log entry 11): when INBOX is empty the command is
over and `cmd.h`, which R144 then gives NIL and U15 any value, keeps what it held. -/
def execReceive (s : State) : Answer :=
  match s.links.deqHead .inbox with
  | none => .next (s.respond .none none none)
  | some h => .next (s.beginCommand { s.cmd with pos := .recvLone, h := h })

/-- RECEIVE.LONE (R144). -/
def State.recvLone (s : State) : State :=
  { s with
    links := (s.links.deqLone .inbox s.cmd.h).2
    cmd := { s.cmd with pos := .recvSucc, lone := (s.links.deqLone .inbox s.cmd.h).1 } }

/-- RECEIVE.SUCC (R144). -/
def State.recvSucc (s : State) : State :=
  match s.links.deqSucc s.cmd.h s.cmd.lone with
  | none => ({ s with cmd := { s.cmd with s := none } }.endCommand).respond .none none none
  | some n => { s with cmd := { s.cmd with pos := .recvUnlink, s := n } }

/-- RECEIVE.UNLINK (R144). -/
def State.recvUnlink (s : State) : State :=
  { s with links := s.links.deqUnlink .inbox s.cmd.h s.cmd.s, cmd := { s.cmd with pos := .recvClear } }

/-- RECEIVE.CLEAR (R144). -/
def State.recvClear (s : State) : State :=
  (({ s with links := s.links.deqClear s.cmd.h }.setOwner s.cmd.h .client).endCommand).respond
    .okIdx (some s.cmd.h) none

/-- `Client.continue` (R272, R275): the micro-step the command in progress names; with `cmd.op = Idle` the client has no
such step and nothing happens (log entry 3). -/
def State.clientProceed (s : State) : State :=
  match s.cmd.pos with
  | .idle => s
  | .freeSwap => s.freeSwap
  | .freeLink => s.freeLink
  | .sendLink => s.sendLink
  | .recvLone => s.recvLone
  | .recvSucc => s.recvSucc
  | .recvUnlink => s.recvUnlink
  | .recvClear => s.recvClear

/-- The reserved command (R104, R153). -/
def execReserved101 (_idx : BitVec 5) (s : State) : Answer := .next (s.refuse .errIllegal)

/-- A word that names no operation (R104, R153): refused with ERR_ILLEGAL in one step. -/
def State.rejectWord (s : State) : Reject → State
  | .idxNotZero _ _ => s.refuse .errIllegal

/-- SHUTDOWN (R152). -/
def execShutdown (s : State) : Answer :=
  .next ({ s with enabled := false, dmaRx := s.dmaRx.disable, dmaTx := s.dmaTx.disable }.respond .ok none none)

/-- The state INIT leaves (R148): every item of R20 at its reset value, payload bytes and offset 36 as they were, and what
is not an item of R20 as it was (log entries 11, 23). -/
def State.initialised (c : Config) (s : State) : State :=
  { State.resetWith c with
    pool := s.pool.clearHeaders
    cmd := { s.cmd with pos := .idle }
    linkFault := s.linkFault
    resp := s.resp
    miso := s.miso
    ret := s.ret
    inputs := s.inputs
    draws := s.draws
    resets := s.resets }

/-- INIT (R148). -/
def execInit (s : State) : Answer := .next ((s.initialised ptb).respond .ok none none)

/-- The hardware reset (R240): the reset state with fresh payload draws; the schedule and the draw counter go on
(log entry 14). -/
def State.hardwareReset (c : Config) (s : State) : State :=
  { State.resetWith c with inputs := s.inputs, draws := s.draws, resets := s.resets + 1 }

/-- BUF_RD (R146): range, then owner, then the byte; offset 36 is a fresh draw. -/
def execBufRd (i : BufIdx) (off : BitVec 6) (s : State) : Answer :=
  match offsetOfField off with
  | none => .next (s.refuse .errRange)
  | some o =>
    if s.ownerOf i = .client then
      if o = offCrcSlot then .next (s.draw.2.respond .ok none (some s.draw.1))
      else .next (s.respond .ok none (some (s.memRead (.buf i) o)))
    else .next (s.refuse .errOwner)

/-- BUF_WR (R147): range, then owner, then the byte; a write to offset 36 has no effect. -/
def execBufWr (i : BufIdx) (off : BitVec 6) (v : Byte) (s : State) : Answer :=
  match offsetOfField off with
  | none => .next (s.refuse .errRange)
  | some o =>
    if s.ownerOf i = .client then
      if o = offCrcSlot then .next (s.respond .ok none none)
      else .next ((s.memWrite (.buf i) o v).respond .ok none none)
    else .next (s.refuse .errOwner)

end Sys2Proof.Machine
end

