-- ==== Sys2Proof/Machine/Dispatch.lean ====
section
/-! DEFINITION. The one match that sends each operation to its meaning: one arm per constructor of Instr, in the order of
spec/opcode_table.json. -/

namespace Sys2Proof.Machine

/-- What an operation does. -/
def exec (i : Instr) (s : State) : Host.Outcome State Fault Refusal :=
  match i with
  | .nop => Sys2Proof.Machine.execNop s
  | .alloc => Sys2Proof.Machine.execAlloc s
  | .free b => Sys2Proof.Machine.execFree b s
  | .send b => Sys2Proof.Machine.execSend b s
  | .receive => Sys2Proof.Machine.execReceive s
  | .reserved101 idx => Sys2Proof.Machine.execReserved101 idx s
  | .shutdown => Sys2Proof.Machine.execShutdown s
  | .init => Sys2Proof.Machine.execInit s
  | .bufRd b off => Sys2Proof.Machine.execBufRd b off s
  | .bufWr b off v => Sys2Proof.Machine.execBufWr b off v s
  | .edge => Sys2Proof.Machine.execEdge s
  | .xchg m => Sys2Proof.Machine.execXchg m s
  | .start => Sys2Proof.Machine.execStart s
  | .finish => Sys2Proof.Machine.execFinish s
  | .allocInternal => Sys2Proof.Machine.execAllocInternal s
  | .freeInternal b => Sys2Proof.Machine.execFreeInternal b s
  | .qInit q => Sys2Proof.Machine.execQInit q s
  | .enqSwap q x => Sys2Proof.Machine.execEnqSwap q x s
  | .enqLink q p x => Sys2Proof.Machine.execEnqLink q p x s
  | .deqHead q => Sys2Proof.Machine.execDeqHead q s
  | .deqLone q h => Sys2Proof.Machine.execDeqLone q h s
  | .deqSucc q h lone => Sys2Proof.Machine.execDeqSucc q h lone s
  | .deqUnlink q h succ => Sys2Proof.Machine.execDeqUnlink q h succ s
  | .deqClear h => Sys2Proof.Machine.execDeqClear h s
  | .crcReset => Sys2Proof.Machine.execCrcReset s
  | .crcRxStep m => Sys2Proof.Machine.execCrcRxStep m s
  | .crcRxCheck m => Sys2Proof.Machine.execCrcRxCheck m s
  | .crcTxStep v => Sys2Proof.Machine.execCrcTxStep v s
  | .crcTxSend => Sys2Proof.Machine.execCrcTxSend s
  | .crcFlag => Sys2Proof.Machine.execCrcFlag s

end Sys2Proof.Machine
end

