-- ==== Sys2Proof/Machine/Schedule.lean ====
section
/-! DEFINITION. The entries of the schedule (44_arithmetic_control_access.md R275): what each does when it is its turn,
how a word at the client port becomes an operation, and how a word is placed as the next one. -/

namespace Sys2Proof.Machine

/-- The client presents a word with `cmd.op = Idle` (R275): the operation it decodes to, or the refusal of R153. -/
def issueWord (w : PortWord) (s : State) : Answer :=
  match decode w with
  | .ok i => exec i s
  | .error r => .next (s.rejectWord r)

/-- The entry `e` is next and `rest` comes after it. A word that comes while a command is in progress waits: the client's
only step is then that command's next micro-step (R216, R272, log entry 3). -/
def runEvent (e : Event) (rest : List Event) (s : State) : Answer :=
  match e with
  | .edge => exec .edge { s with inputs := rest }
  | .xchg m => exec (.xchg m) { s with inputs := rest }
  | .issue w => if s.cmd.pos = .idle then issueWord w { s with inputs := rest } else .next s.clientProceed
  | .proceed => .next ({ s with inputs := rest }.clientProceed)
  | .hwReset => .next ({ s with inputs := rest }.hardwareReset ptb)

/-- No entry is left: link and client are silent and nothing happens (R230, log entry 2). -/
def silentStep (s : State) : Answer := .next s

/-- `w` is first in the schedule, with no command in progress, which a client that presents a word needs (R216, log
entry 18). -/
def State.placeWord (w : PortWord) (s : State) : State :=
  { s with inputs := .issue w :: s.inputs, cmd := { s.cmd with pos := .idle } }

end Sys2Proof.Machine
end

