-- ==== Sys2Proof/Machine/Step.lean ====
section
/-! DEFINITION. The step (44_arithmetic_control_access.md R275): it takes the next entry of the schedule and runs it. -/

namespace Sys2Proof.Machine

/-- One step of the relation of R275: the one the schedule names next (log entry 1). -/
def step (s : State) : Host.Outcome State Fault Refusal :=
  match s.inputs with
  | [] => silentStep s
  | e :: rest => runEvent e rest s

/-- `s` with the row's word as the very next step (log entry 18). -/
def State.withFetchWord (s : State) (nbits w : Nat) : State :=
  match tableWord nbits w with
  | none => s
  | some p => s.placeWord p

end Sys2Proof.Machine
end

