-- ==== Sys2Proof/Safety.lean ====
section
/-! DEFINITION. What counts as a safe run, and the terms claims are written in: the forms of a queue (10_state.md R27,
R28), and the invariants of 44_arithmetic_control_access.md R276. -/

namespace Sys2Proof.Machine

/-- A state about which claims are made: no link violation so far (R43). -/
abbrev State.linkOk (s : State) : Prop := s.linkFault = false

/-! ## Runs -/

/-- Operations one after the other, with no other step between them. -/
def execAll : List Instr → State → Answer
  | [], s => .next s
  | i :: rest, s =>
    match exec i s with
    | .next t => execAll rest t
    | .fault r => .fault r
    | .refused r => .refused r

/-- `n` steps. -/
def stepN : Nat → State → Answer
  | 0, s => .next s
  | n + 1, s =>
    match step s with
    | .next t => stepN n t
    | .fault r => .fault r
    | .refused r => .refused r

/-- The exchanges of a frame (R107): the host sends these bytes. -/
def exchanges (ms : List Byte) : List Instr := ms.map .xchg

/-! ## The forms of a queue -/

/-- The nodes are linked one to the next in this order, and the last one's link is `NIL` (R27). -/
def chainOk (l : Links) : List BufIdx → Bool
  | [] => true
  | a :: t => decide (l.nextOf a = t.head?) && chainOk l t

/-- What `last` holds for a content: the last node, or the sentinel for none (R27). -/
def tailRef (c : List BufIdx) : NodeRef :=
  match c.getLast? with
  | none => .sent
  | some n => .node n

/-- Quiescent form with content `c`, oldest first (R27). -/
structure Quiescent (l : Links) (q : QueueName) (c : List BufIdx) : Prop where
  nodup : c.Nodup
  chain : chainOk l c = true
  head : (l.queue q).head = c.head?
  last : (l.queue q).last = tailRef c

/-- The form between ENQ.SWAP and ENQ.LINK of an enqueue of `x` (R28): the nodes `a` are still reached from the head, `p`
is the last of them (or the sentinel), and `x` with the nodes `b` enqueued behind it is not linked to yet. -/
structure EnqueueInFlight (l : Links) (q : QueueName) (p : NodeRef) (x : BufIdx) (a b : List BufIdx) : Prop where
  nodup : (a ++ x :: b).Nodup
  chainA : chainOk l a = true
  chainB : chainOk l (x :: b) = true
  head : (l.queue q).head = a.head?
  last : (l.queue q).last = tailRef (x :: b)
  prev : p = tailRef a

/-- The form after DEQ.LONE has taken the lone node `h` off the tail word and before DEQ.UNLINK: `c` has been enqueued
since, and only while it is empty does the head word still name `h` (R126, R128). -/
structure LoneTaken (l : Links) (q : QueueName) (h : BufIdx) (c : List BufIdx) : Prop where
  nodup : (h :: c).Nodup
  chain : chainOk l c = true
  head : (l.queue q).head = (c ++ [h]).head?
  last : (l.queue q).last = tailRef c
  cleared : l.nextOf h = none

/-! ## The invariants of R276 -/

/-- FREE with content `c`: in flight between FREE.SWAP and FREE.LINK, else quiescent. -/
def FreeForm (s : State) (c : List BufIdx) : Prop :=
  match s.cmd.pos with
  | .freeLink => ∃ a b, c = a ++ s.cmd.x :: b ∧ EnqueueInFlight s.links .free s.cmd.p s.cmd.x a b
  | _ => Quiescent s.links .free c

/-- OUTBOX with content `c`: in flight between SEND.SWAP and SEND.LINK, else quiescent. -/
def OutboxForm (s : State) (c : List BufIdx) : Prop :=
  match s.cmd.pos with
  | .sendLink => ∃ a b, c = a ++ s.cmd.x :: b ∧ EnqueueInFlight s.links .outbox s.cmd.p s.cmd.x a b
  | _ => Quiescent s.links .outbox c

/-- INBOX with content `c`, by the micro-step RECEIVE runs next. -/
def InboxForm (s : State) (c : List BufIdx) : Prop :=
  match s.cmd.pos with
  | .recvLone => Quiescent s.links .inbox c ∧ c.head? = some s.cmd.h
  | .recvSucc =>
    if s.cmd.lone then LoneTaken s.links .inbox s.cmd.h c
    else Quiescent s.links .inbox c ∧ c.head? = some s.cmd.h ∧ 2 ≤ c.length
  | .recvUnlink =>
    if s.cmd.lone then LoneTaken s.links .inbox s.cmd.h c ∧ s.cmd.s = none
    else Quiescent s.links .inbox c ∧ c.head? = some s.cmd.h ∧ 2 ≤ c.length ∧ s.cmd.s = s.links.nextOf s.cmd.h
  | .recvClear => Quiescent s.links .inbox c ∧ s.cmd.h ∉ c
  | _ => Quiescent s.links .inbox c

/-- The node FREE.ZERO has given up and FREE.SWAP has not enqueued yet. -/
def State.freeWaiting (s : State) : Option BufIdx := if s.cmd.pos = .freeSwap then some s.cmd.x else none

/-- The node RECEIVE has taken out of INBOX's content and does not own yet. -/
def State.receiveHolds (s : State) : Option BufIdx :=
  match s.cmd.pos with
  | .recvSucc => if s.cmd.lone then some s.cmd.h else none
  | .recvUnlink => if s.cmd.lone then some s.cmd.h else none
  | .recvClear => some s.cmd.h
  | _ => none

/-- The partition (R30), the forms of the queues (R27, R28) and the cleared links (R23), for queue contents `f`, `ib`,
`ob`. -/
structure QueueInv (s : State) (f ib ob : List BufIdx) : Prop where
  freeForm : FreeForm s f
  inboxForm : InboxForm s ib
  outboxForm : OutboxForm s ob
  ownFree : ∀ i, s.ownerOf i = .free ↔ i ∈ f ∨ s.freeWaiting = some i
  ownInbox : ∀ i, s.ownerOf i = .inbox ↔ i ∈ ib ∨ s.receiveHolds = some i
  ownOutbox : ∀ i, s.ownerOf i = .outbox ↔ i ∈ ob
  ownRx : ∀ i, s.ownerOf i = .rxStaged ↔ s.curRx = some i
  ownTx : ∀ i, s.ownerOf i = .txStaged ↔ s.curTx = some i
  waiting : ∀ i, s.freeWaiting = some i → i ∉ f
  cleared : ∀ i, s.ownerOf i = .client ∨ s.ownerOf i = .rxStaged ∨ s.ownerOf i = .txStaged ∨ s.freeWaiting = some i →
    s.links.nextOf i = none

/-- The DMA and SPI items of R276: what holds between transactions, and what the positions and flags are inside one. -/
structure TransferInv (s : State) : Prop where
  idleK : s.busy = false → s.spi.k = 0
  idleErr : s.busy = false → s.spi.crcerr = false
  idleRxCrc : s.busy = false → s.spi.rxcrc = linkCrc.init
  idleTxCrc : s.busy = false → s.spi.txcrc = linkCrc.init
  idleEn : s.busy = false → s.dmaRx.en = false ∧ s.dmaTx.en = false
  armed : s.busy = true → s.enabled = true → s.dmaRx.en = true ∧ s.dmaTx.en = true
  rxTarget : s.busy = true → s.enabled = true → s.dmaRx.idx = targetOf s.curRx
  txTarget : s.busy = true → s.enabled = true → s.dmaTx.idx = targetOf s.curTx
  rxPos : s.busy = true → s.enabled = true → s.dmaRx.pos.val = min s.spi.k 37
  txPos : s.busy = true → s.enabled = true → s.dmaTx.pos.val = min (s.spi.k - 1) 36
  rxDone : s.busy = true → s.enabled = true → (s.dmaRx.tcif = true ↔ 37 ≤ s.spi.k)
  txDone : s.busy = true → s.enabled = true → (s.dmaTx.tcif = true ↔ 37 ≤ s.spi.k)

/-- A buffer owned by FREE has a zero header (R142, R149). -/
def HeaderInv (s : State) : Prop :=
  ∀ i, s.ownerOf i = .free → ∀ off : Offset, off.val < Hw.hdrBytes → s.byteAt i off = 0x00#8

/-- The invariants of R276 together, with the canonical form of the pool's list. -/
structure Inv (s : State) : Prop where
  pool : s.pool.wf = true
  transfer : TransferInv s
  header : HeaderInv s
  queues : ∃ f ib ob, QueueInv s f ib ob

end Sys2Proof.Machine
end

