-- ==== Sys2Proof/Certificates/Slice0/Obligations.lean ====
section
/-! DEFINITION. The statements for the provers, from the numbered rules of spec/. A frame is written as an equation
`t = { s with … }`: every field not listed is as it was. The fields `resp`, `miso`, `ret`, `inputs`, `draws` and `resets` are
the model's own (log entries 1, 5, 7, 8, 17, 19): a statement names them only to say through which port an answer comes, or
that nothing else changed, and none rests on a value of a draw. -/

open Sys2Proof Sys2Proof.Machine

/-! ## Reset, the step, the port's words -/

/-- R41: what reset leaves, for every item the table gives a value. -/
def Obligations.ResetLeavesTheListedValues : Prop :=
  (∀ (i : BufIdx) (off : Offset), off.val < 4 → State.reset.byteAt i off = 0x00#8) ∧
  (∀ i j : BufIdx, j.val = i.val + 1 → State.reset.links.nextOf i = some j) ∧
  State.reset.links.nextOf 31 = none ∧
  State.reset.links.free = { head := some 0, last := .node 31 } ∧
  State.reset.links.inbox = { head := none, last := .sent } ∧
  State.reset.links.outbox = { head := none, last := .sent } ∧
  (∀ i, State.reset.ownerOf i = .free) ∧
  State.reset.curRx = none ∧ State.reset.curTx = none ∧
  State.reset.busy = false ∧ State.reset.enabled = true ∧ State.reset.xferId = 0x00#8 ∧
  State.reset.dmaRx = { en := false, tcif := false, idx := .zero, pos := 0 } ∧
  State.reset.dmaTx = { en := false, tcif := false, idx := .zero, pos := 0 } ∧
  State.reset.spi = { lead := 0x00#8, k := 0, rxcrc := linkCrc.init, txcrc := linkCrc.init, crcerr := false } ∧
  State.reset.cmd.pos = .idle ∧ State.reset.linkFault = false

/-- The invariants of R276 (an inference of the spec) hold after reset, and after reset FREE holds all buffers in ascending
order. The canonical form of the list of pool bytes is the model's own (log entry 10). -/
def Obligations.ResetMeetsTheInvariants : Prop :=
  Inv State.reset ∧ Quiescent State.reset.links .free (List.finRange 32)

/-- The invariants of R276 (an inference of the spec) are kept by every step, from every state that meets them. The
canonical form of the list of pool bytes is the model's own (log entry 10), and so is the hardware reset as an entry of
the schedule (log entry 14). R276 claims them with `link_fault = 0`; that they hold also where an exchange has set
`link_fault`, or it was set before, rests on the model's choice of what such a step leaves (log entry 12). -/
def Obligations.EveryStepKeepsTheInvariants : Prop :=
  ∀ s t : State, Inv s → step s = .next t → Inv t

/-- A step runs the decoded instruction: the next entry of the schedule is taken off and `exec` is run on what is left; a
word fetched by `withFetchWord` is the next entry. That the schedule is a list in the state is the model's choice (log
entries 1, 18). -/
def Obligations.StepRunsTheDecodedOperation : Prop :=
  (∀ (s : State) (rest : List Event) (w : PortWord) (i : Instr),
    s.inputs = .issue w :: rest → s.cmd.pos = .idle → decode w = .ok i → step s = exec i { s with inputs := rest }) ∧
  (∀ (s : State) (rest : List Event), s.inputs = .edge :: rest → step s = exec .edge { s with inputs := rest }) ∧
  (∀ (s : State) (rest : List Event) (m : Byte),
    s.inputs = .xchg m :: rest → step s = exec (.xchg m) { s with inputs := rest }) ∧
  (∀ (s : State) (nbits w : Nat) (p : PortWord) (i : Instr), tableWord nbits w = some p → decode p = .ok i →
    step (s.withFetchWord nbits w) = exec i { s with cmd := { s.cmd with pos := .idle } })

/-- Every operation and every step answers a next state (R275: no step blocks, none is partial). -/
def Obligations.EveryOperationAndStepAnswers : Prop :=
  (∀ (i : Instr) (s : State), ∃ t, exec i s = .next t) ∧ (∀ s : State, ∃ t, step s = .next t)

/-- R272 (an inference of the spec): the micro-step a command in progress takes when the client goes on, where it then
stands, and when the port answers. -/
def Obligations.ClientGoesOnByTheMicroStepTable : Prop :=
  ∀ (s : State) (rest : List Event), s.inputs = .proceed :: rest → ∃ t, step s = .next t ∧ t.inputs = rest ∧
    (s.cmd.pos = .idle → t = { s with inputs := rest }) ∧
    (s.cmd.pos = .freeSwap → t.cmd.pos = .freeLink ∧ t.resp = s.resp) ∧
    (s.cmd.pos = .freeLink → t.cmd.pos = .idle ∧ t.resp = some { status := .ok, idx := none, data := none }) ∧
    (s.cmd.pos = .sendLink → t.cmd.pos = .idle ∧ t.resp = some { status := .ok, idx := none, data := none }) ∧
    (s.cmd.pos = .recvLone → t.cmd.pos = .recvSucc ∧ t.resp = s.resp) ∧
    (s.cmd.pos = .recvSucc → (s.links.nextOf s.cmd.h ≠ none ∨ s.cmd.lone = true) →
      t.cmd.pos = .recvUnlink ∧ t.resp = s.resp) ∧
    (s.cmd.pos = .recvSucc → s.links.nextOf s.cmd.h = none → s.cmd.lone = false →
      t.cmd.pos = .idle ∧ t.resp = some { status := .none, idx := none, data := none } ∧ t.links = s.links) ∧
    (s.cmd.pos = .recvUnlink → t.cmd.pos = .recvClear ∧ t.resp = s.resp) ∧
    (s.cmd.pos = .recvClear → t.cmd.pos = .idle ∧
      t.resp = some { status := .okIdx, idx := some s.cmd.h, data := none })

/-- Decode and encode agree: the word of an operation of the port (R100, R101, R103) decodes to it, every operand at every
value its field holds. -/
def Obligations.EncodedOperationDecodesToItself : Prop :=
  ∀ (i : Instr) (w : PortWord), encode i = some w → decode w = .ok i

/-- The other direction: a word that decodes is the encoding of what it decodes to; a buffer read carries no data byte, so
that one byte is 0 in the encoding (log entry 24). -/
def Obligations.DecodedWordIsItsOperationsEncoding : Prop :=
  (∀ (w : BitVec 8) (i : Instr), decode (.cw w) = .ok i → encode i = some (.cw w)) ∧
  (∀ (w : BitVec 12) (v : Byte) (i : Instr), decode (.ba w v) = .ok i →
    encode i = some (.ba w (if w.getLsbD 11 then v else 0x00#8)))

/-- Words written out from the tables of R101 and R103 and the vectors of 95_test_vectors.md decode to the operations they
stand for. -/
def Obligations.WordsOfTheSpecDecode : Prop :=
  decode (.cw 0x00#8) = .ok .nop ∧ decode (.cw 0x20#8) = .ok .alloc ∧ decode (.cw 0x43#8) = .ok (.free 3) ∧
  decode (.cw 0x63#8) = .ok (.send 3) ∧ decode (.cw 0x80#8) = .ok .receive ∧
  decode (.cw 0xBF#8) = .ok (.reserved101 31#5) ∧ decode (.cw 0xC0#8) = .ok .shutdown ∧
  decode (.cw 0xE0#8) = .ok .init ∧ decode (.ba 0x065#12 0x00#8) = .ok (.bufRd 1 37#6) ∧
  decode (.ba 0x8C0#12 0x01#8) = .ok (.bufWr 3 0#6 0x01#8)

/-- R153 and the command words of R104: a word with the reserved code, and a word with a nonzero index on an operation that
takes no buffer, is refused with ERR_ILLEGAL in one step, and nothing else changes. -/
def Obligations.IllegalCommandWordsAreRefused : Prop :=
  (∀ (s : State) (rest : List Event) (op : BitVec 3) (idx : BitVec 5), s.cmd.pos = .idle →
    s.inputs = .issue (.cw (op ++ idx)) :: rest →
    (op = 0b101#3 ∨ (idx ≠ 0#5 ∧ op ≠ 0b010#3 ∧ op ≠ 0b011#3)) →
    step s = .next { s with inputs := rest, resp := some { status := .errIllegal, idx := none, data := none } }) ∧
  (∀ (s : State) (idx : BitVec 5), exec (.reserved101 idx) s =
    .next { s with resp := some { status := .errIllegal, idx := none, data := none } })

/-- R102: the status codes, the index field, which is 0 unless the status is OK_IDX, and which answers carry a buffer: of
every operation, word and later micro-step of the client port, exactly those with OK_IDX; no other operation answers. The
codes 0b110 and 0b111 are no answer's. -/
def Obligations.ResponseWordLayout : Prop :=
  (∀ (i : BufIdx) (d : Option Byte),
    ({ status := .okIdx, idx := some i, data := d } : Response).word.toNat = 32 * Status.okIdx.bits.toNat + i.val) ∧
  (∀ r : Response, r.status ≠ .okIdx → r.word.toNat = 32 * r.status.bits.toNat) ∧
  Status.ok.bits = 0b000#3 ∧ Status.okIdx.bits = 0b001#3 ∧ Status.none.bits = 0b010#3 ∧
  Status.errOwner.bits = 0b011#3 ∧ Status.errIllegal.bits = 0b100#3 ∧ Status.errRange.bits = 0b101#3 ∧
  (∀ st : Status, statusOfBits st.bits = some st) ∧ statusOfBits 0b110#3 = none ∧ statusOfBits 0b111#3 = none ∧
  (∀ (i : Instr) (s t : State) (r : Response), encode i ≠ none → exec i s = .next t → t.resp = some r →
    (r.idx ≠ none ↔ r.status = .okIdx)) ∧
  (∀ (w : PortWord) (s t : State) (r : Response), issueWord w s = .next t → t.resp = some r →
    (r.idx ≠ none ↔ r.status = .okIdx)) ∧
  (∀ (s : State) (r : Response), s.resp ≠ some r → s.clientProceed.resp = some r →
    (r.idx ≠ none ↔ r.status = .okIdx)) ∧
  (∀ (i : Instr) (s t : State), encode i = none → exec i s = .next t → t.resp = s.resp)

/-! ## Client commands -/

/-- R145: NOP answers OK and leaves every piece of state unchanged; with a nonzero index its word is refused. -/
def Obligations.NopAnswersOkAndChangesNothing : Prop :=
  (∀ s : State, exec .nop s = .next { s with resp := some { status := .ok, idx := none, data := none } }) ∧
  (∀ (s : State) (idx : BitVec 5), idx ≠ 0#5 → issueWord (.cw (0b000#3 ++ idx)) s =
    .next { s with resp := some { status := .errIllegal, idx := none, data := none } })

/-- R141: ALLOC is one dequeue of FREE; NONE when that gives none, else the buffer becomes the client's. With no command in
progress that is NONE exactly when FREE's content is empty. -/
def Obligations.AllocDequeuesFree : Prop :=
  (∀ s : State, (s.links.dequeue .free).1 = none →
    exec .alloc s = .next { s with resp := some { status := .none, idx := none, data := none } }) ∧
  (∀ (s : State) (r : BufIdx), (s.links.dequeue .free).1 = some r → ∃ t, exec .alloc s = .next t ∧
    t.resp = some { status := .okIdx, idx := some r, data := none } ∧ t.ownerOf r = .client ∧
    (∀ j, j ≠ r → t.ownerOf j = s.ownerOf j) ∧ t.links = (s.links.dequeue .free).2 ∧
    (∀ j w, t.byteAt j w = s.byteAt j w) ∧
    t = { s with links := t.links, owner := t.owner, resp := t.resp }) ∧
  (∀ (s : State) (f ib ob : List BufIdx), QueueInv s f ib ob → s.cmd.pos = .idle →
    ((s.links.dequeue .free).1 = none ↔ f = [])) ∧
  (∀ (s : State) (idx : BitVec 5), idx ≠ 0#5 → issueWord (.cw (0b001#3 ++ idx)) s =
    .next { s with resp := some { status := .errIllegal, idx := none, data := none } })

/-- ALLOC on a quiescent FREE queue (R27, R130, inferences of the spec): NONE exactly when the content is empty, else the
oldest buffer, the others staying in order. -/
def Obligations.AllocReturnsTheOldestFreeBuffer : Prop :=
  (∀ s : State, Quiescent s.links .free [] →
    exec .alloc s = .next { s with resp := some { status := .none, idx := none, data := none } }) ∧
  (∀ (s : State) (r : BufIdx) (c : List BufIdx), Quiescent s.links .free (r :: c) → ∃ t, exec .alloc s = .next t ∧
    t.resp = some { status := .okIdx, idx := some r, data := none } ∧ t.ownerOf r = .client ∧
    Quiescent t.links .free c ∧ t.links.nextOf r = none ∧ (∀ j, j ≠ r → t.links.nextOf j = s.links.nextOf j) ∧
    t.links.inbox = s.links.inbox ∧ t.links.outbox = s.links.outbox)

/-- A buffer that ALLOC hands out has a zero header (source property T3), in every state that meets the invariants. -/
def Obligations.AllocatedBufferHasAZeroHeader : Prop :=
  ∀ (s t : State) (r : BufIdx), Inv s → s.cmd.pos = .idle → exec .alloc s = .next t →
    t.resp = some { status := .okIdx, idx := some r, data := none } →
    t.ownerOf r = .client ∧ ∀ off : Offset, off.val < 4 → t.byteAt r off = 0x00#8

/-- R142: FREE's refusal, and its three micro-steps, each with what it leaves alone. Issuing the word runs the first. -/
def Obligations.FreeRunsItsThreeMicroSteps : Prop :=
  (∀ (s : State) (i : BufIdx), s.ownerOf i ≠ .client →
    exec (.free i) s = .next { s with resp := some { status := .errOwner, idx := none, data := none } }) ∧
  (∀ (s : State) (i : BufIdx), s.ownerOf i = .client → ∃ t, exec (.free i) s = .next t ∧
    (∀ off : Offset, off.val < 4 → t.byteAt i off = 0x00#8) ∧
    (∀ (j : BufIdx) (off : Offset), j ≠ i ∨ 4 ≤ off.val → t.byteAt j off = s.byteAt j off) ∧
    t.ownerOf i = .free ∧ (∀ j, j ≠ i → t.ownerOf j = s.ownerOf j) ∧
    t.cmd = { s.cmd with pos := .freeSwap, x := i } ∧
    t = { s with pool := t.pool, owner := t.owner, cmd := t.cmd, resp := none }) ∧
  (∀ (s : State) (rest : List Event), s.inputs = .proceed :: rest → s.cmd.pos = .freeSwap →
    step s = .next { s with
      inputs := rest
      links := { s.links with free := { s.links.free with last := .node s.cmd.x } }
      cmd := { s.cmd with pos := .freeLink, p := s.links.free.last } }) ∧
  (∀ (s : State) (rest : List Event), s.inputs = .proceed :: rest → s.cmd.pos = .freeLink → ∃ t, step s = .next t ∧
    (s.cmd.p = .sent → t.links = { s.links with free := { s.links.free with head := some s.cmd.x } }) ∧
    (∀ i, s.cmd.p = .node i → t.links.nextOf i = some s.cmd.x ∧
      (∀ j, j ≠ i → t.links.nextOf j = s.links.nextOf j) ∧ t.links = { s.links with next := t.links.next }) ∧
    t = { s with
      inputs := rest
      links := t.links
      cmd := { s.cmd with pos := .idle }
      resp := some { status := .ok, idx := none, data := none } })

/-- FREE without interruption appends its buffer to a quiescent FREE queue (R132, an inference of the spec). -/
def Obligations.FreeAppendsToFree : Prop :=
  ∀ (s : State) (i : BufIdx) (c : List BufIdx) (rest : List Event), s.cmd.pos = .idle →
    s.inputs = .issue (.cw (0b010#3 ++ fieldOfBuf i)) :: .proceed :: .proceed :: rest → s.ownerOf i = .client →
    Quiescent s.links .free c → i ∉ c → s.links.nextOf i = none → ∃ t, stepN 3 s = .next t ∧
      Quiescent t.links .free (c ++ [i]) ∧ t.ownerOf i = .free ∧ t.cmd.pos = .idle ∧ t.inputs = rest ∧
      t.resp = some { status := .ok, idx := none, data := none } ∧
      (∀ off : Offset, off.val < 4 → t.byteAt i off = 0x00#8) ∧
      (∀ (j : BufIdx) (off : Offset), j ≠ i ∨ 4 ≤ off.val → t.byteAt j off = s.byteAt j off)

/-- R143: SEND's refusal, and its two micro-steps, each with what it leaves alone. -/
def Obligations.SendRunsItsTwoMicroSteps : Prop :=
  (∀ (s : State) (i : BufIdx), s.ownerOf i ≠ .client →
    exec (.send i) s = .next { s with resp := some { status := .errOwner, idx := none, data := none } }) ∧
  (∀ (s : State) (i : BufIdx), s.ownerOf i = .client → ∃ t, exec (.send i) s = .next t ∧
    t.ownerOf i = .outbox ∧ (∀ j, j ≠ i → t.ownerOf j = s.ownerOf j) ∧
    t.links = { s.links with outbox := { s.links.outbox with last := .node i } } ∧
    t.cmd = { s.cmd with pos := .sendLink, x := i, p := s.links.outbox.last } ∧
    (∀ j w, t.byteAt j w = s.byteAt j w) ∧
    t = { s with links := t.links, owner := t.owner, cmd := t.cmd, resp := none }) ∧
  (∀ (s : State) (rest : List Event), s.inputs = .proceed :: rest → s.cmd.pos = .sendLink → ∃ t, step s = .next t ∧
    (s.cmd.p = .sent → t.links = { s.links with outbox := { s.links.outbox with head := some s.cmd.x } }) ∧
    (∀ i, s.cmd.p = .node i → t.links.nextOf i = some s.cmd.x ∧
      (∀ j, j ≠ i → t.links.nextOf j = s.links.nextOf j) ∧ t.links = { s.links with next := t.links.next }) ∧
    t = { s with
      inputs := rest
      links := t.links
      cmd := { s.cmd with pos := .idle }
      resp := some { status := .ok, idx := none, data := none } })

/-- A SEND that an EDGE interrupts between its two micro-steps loses nothing (R131, R132, inferences of the spec): at most
one packet leaves the reachable part of OUTBOX, it is the oldest and is staged, and the enqueue is still in flight. -/
def Obligations.EdgeKeepsASendInFlight : Prop :=
  ∀ (s : State) (a : List BufIdx), Inv s → s.cmd.pos = .sendLink →
    EnqueueInFlight s.links .outbox s.cmd.p s.cmd.x a [] → ∃ (t : State) (d a' : List BufIdx),
      exec .edge s = .next t ∧ a = d ++ a' ∧ d.length ≤ 1 ∧
      (∀ i ∈ d, t.curTx = some i ∧ t.ownerOf i = .txStaged) ∧ t.cmd = s.cmd ∧
      EnqueueInFlight t.links .outbox s.cmd.p s.cmd.x a' []

/-- R144: RECEIVE, micro-step by micro-step. That `cmd.h` keeps its value when INBOX is empty, where R144 writes `NIL` and the
command is over, is the model's choice (log entry 11). -/
def Obligations.ReceiveRunsItsMicroSteps : Prop :=
  (∀ s : State, s.links.inbox.head = none →
    exec .receive s = .next { s with resp := some { status := .none, idx := none, data := none } }) ∧
  (∀ (s : State) (h : BufIdx), s.links.inbox.head = some h →
    exec .receive s = .next { s with cmd := { s.cmd with pos := .recvLone, h := h }, resp := none }) ∧
  (∀ (s : State) (rest : List Event), s.inputs = .proceed :: rest → s.cmd.pos = .recvLone →
    (s.links.inbox.last = .node s.cmd.h → step s = .next { s with
      inputs := rest
      links := { s.links with inbox := { s.links.inbox with last := .sent } }
      cmd := { s.cmd with pos := .recvSucc, lone := true } }) ∧
    (s.links.inbox.last ≠ .node s.cmd.h → step s = .next { s with
      inputs := rest, cmd := { s.cmd with pos := .recvSucc, lone := false } })) ∧
  (∀ (s : State) (rest : List Event), s.inputs = .proceed :: rest → s.cmd.pos = .recvSucc →
    (s.links.nextOf s.cmd.h ≠ none ∨ s.cmd.lone = true → step s = .next { s with
      inputs := rest, cmd := { s.cmd with pos := .recvUnlink, s := s.links.nextOf s.cmd.h } }) ∧
    (s.links.nextOf s.cmd.h = none → s.cmd.lone = false → step s = .next { s with
      inputs := rest
      cmd := { s.cmd with pos := .idle, s := none }
      resp := some { status := .none, idx := none, data := none } })) ∧
  (∀ (s : State) (rest : List Event), s.inputs = .proceed :: rest → s.cmd.pos = .recvUnlink →
    (s.links.inbox.head = some s.cmd.h → step s = .next { s with
      inputs := rest
      links := { s.links with inbox := { s.links.inbox with head := s.cmd.s } }
      cmd := { s.cmd with pos := .recvClear } }) ∧
    (s.links.inbox.head ≠ some s.cmd.h → step s = .next { s with
      inputs := rest, cmd := { s.cmd with pos := .recvClear } })) ∧
  (∀ (s : State) (rest : List Event), s.inputs = .proceed :: rest → s.cmd.pos = .recvClear → ∃ t, step s = .next t ∧
    t.links.nextOf s.cmd.h = none ∧ (∀ j, j ≠ s.cmd.h → t.links.nextOf j = s.links.nextOf j) ∧
    t.links = { s.links with next := t.links.next } ∧
    t.ownerOf s.cmd.h = .client ∧ (∀ j, j ≠ s.cmd.h → t.ownerOf j = s.ownerOf j) ∧
    t = { s with
      inputs := rest
      links := t.links
      owner := t.owner
      cmd := { s.cmd with pos := .idle }
      resp := some { status := .okIdx, idx := some s.cmd.h, data := none } }) ∧
  (∀ (s : State) (idx : BitVec 5), idx ≠ 0#5 → issueWord (.cw (0b100#3 ++ idx)) s =
    .next { s with resp := some { status := .errIllegal, idx := none, data := none } })

/-- RECEIVE without interruption returns the oldest received buffer and leaves the rest in order (R130, an inference of
the spec). -/
def Obligations.ReceiveReturnsTheOldestFrame : Prop :=
  ∀ (s : State) (h : BufIdx) (c : List BufIdx) (rest : List Event), s.cmd.pos = .idle →
    s.inputs = .issue (.cw 0x80#8) :: .proceed :: .proceed :: .proceed :: .proceed :: rest →
    Quiescent s.links .inbox (h :: c) → ∃ t, stepN 5 s = .next t ∧
      t.resp = some { status := .okIdx, idx := some h, data := none } ∧ t.ownerOf h = .client ∧
      Quiescent t.links .inbox c ∧ t.links.nextOf h = none ∧ t.cmd.pos = .idle ∧ t.inputs = rest ∧
      (∀ j w, t.byteAt j w = s.byteAt j w)

/-- A frame that FINISH hands over between two micro-steps of a RECEIVE is not lost (R144, corner cases; R132, an inference
of the spec): INBOX keeps the form its micro-step needs, with the new buffer at the end. -/
def Obligations.FrameQueuedDuringReceiveIsKept : Prop :=
  ∀ (s : State) (f ib ob : List BufIdx) (i : BufIdx), Inv s → QueueInv s f ib ob → s.busy = true → s.enabled = true →
    s.curRx = some i → 37 ≤ s.spi.k → ∃ t, exec .edge s = .next t ∧ t.cmd = s.cmd ∧ InboxForm t (ib ++ [i])

/-- R152: SHUTDOWN clears `enabled` and both `en` and touches nothing else; with a nonzero index its word is refused. -/
def Obligations.ShutdownPowersDownTheTransport : Prop :=
  (∀ s : State, exec .shutdown s = .next { s with
    enabled := false
    dmaRx := { s.dmaRx with en := false }
    dmaTx := { s.dmaTx with en := false }
    resp := some { status := .ok, idx := none, data := none } }) ∧
  (∀ (s t : State), exec .shutdown s = .next t →
    exec .edge t = .next t ∧ ∀ m, ∃ u, exec (.xchg m) t = .next u ∧ u = { t with miso := u.miso, draws := u.draws }) ∧
  (∀ (s : State) (idx : BitVec 5), idx ≠ 0#5 → issueWord (.cw (0b110#3 ++ idx)) s =
    .next { s with resp := some { status := .errIllegal, idx := none, data := none } })

/-- R148: INIT gives every item of R20 its reset value (R41) and keeps the payload bytes and offset 36. -/
def Obligations.InitRestoresTheResetState : Prop :=
  (∀ s : State, ∃ t, exec .init s = .next t ∧ t.resp = some { status := .ok, idx := none, data := none } ∧
    (∀ (i : BufIdx) (off : Offset), off.val < 4 → t.byteAt i off = 0x00#8) ∧
    (∀ (i : BufIdx) (off : Offset), 4 ≤ off.val → t.byteAt i off = s.byteAt i off) ∧
    t.links = State.reset.links ∧ (∀ i, t.ownerOf i = .free) ∧ t.curRx = none ∧ t.curTx = none ∧ t.busy = false ∧
    t.enabled = true ∧ t.xferId = 0x00#8 ∧ t.dmaRx = { en := false, tcif := false, idx := .zero, pos := 0 } ∧
    t.dmaTx = { en := false, tcif := false, idx := .zero, pos := 0 } ∧ t.spi = State.reset.spi ∧ t.cmd.pos = .idle) ∧
  (∀ (s : State) (idx : BitVec 5), idx ≠ 0#5 → issueWord (.cw (0b111#3 ++ idx)) s =
    .next { s with resp := some { status := .errIllegal, idx := none, data := none } })

/-- What INIT leaves as it is because it is no item of R20, and the command temporaries, is the model's choice (log entries 11,
23). -/
def Obligations.InitKeepsWhatIsNoItemOfTheState : Prop :=
  ∀ s : State, ∃ t, exec .init s = .next t ∧ t.linkFault = s.linkFault ∧ t.miso = s.miso ∧ t.ret = s.ret ∧
    t.inputs = s.inputs ∧ t.draws = s.draws ∧ t.resets = s.resets ∧ t.cmd = { s.cmd with pos := .idle }

/-- R240, the hardware reset as an entry of the schedule (the model's choice, log entry 14): the reset state, with the
schedule and the draw counter going on. -/
def Obligations.HardwareResetGivesTheResetState : Prop :=
  ∀ (s : State) (rest : List Event), s.inputs = .hwReset :: rest →
    step s = .next { State.reset with inputs := rest, draws := s.draws, resets := s.resets + 1 }

/-- R146: BUF_RD checks range, then owner, then reads: a fresh draw at offset 36, else the byte. No read changes the
pool. -/
def Obligations.BufferReadAnswers : Prop :=
  ∀ (s : State) (i : BufIdx) (off : BitVec 6),
    (37 ≤ off.toNat → exec (.bufRd i off) s =
      .next { s with resp := some { status := .errRange, idx := none, data := none } }) ∧
    (off.toNat < 37 → s.ownerOf i ≠ .client → exec (.bufRd i off) s =
      .next { s with resp := some { status := .errOwner, idx := none, data := none } }) ∧
    (off.toNat = 36 → s.ownerOf i = .client → exec (.bufRd i off) s = .next { s with
      resp := some { status := .ok, idx := none, data := some (Config.draw s.draws) }, draws := s.draws + 1 }) ∧
    (∀ o : Offset, o.val = off.toNat → o.val < 36 → s.ownerOf i = .client → exec (.bufRd i off) s =
      .next { s with resp := some { status := .ok, idx := none, data := some (s.byteAt i o) } })

/-- R147: BUF_WR checks range, then owner, then writes the one byte; a write to offset 36 is accepted without effect. -/
def Obligations.BufferWriteStoresOneByte : Prop :=
  ∀ (s : State) (i : BufIdx) (off : BitVec 6) (v : Byte),
    (37 ≤ off.toNat → exec (.bufWr i off v) s =
      .next { s with resp := some { status := .errRange, idx := none, data := none } }) ∧
    (off.toNat < 37 → s.ownerOf i ≠ .client → exec (.bufWr i off v) s =
      .next { s with resp := some { status := .errOwner, idx := none, data := none } }) ∧
    (off.toNat = 36 → s.ownerOf i = .client → exec (.bufWr i off v) s =
      .next { s with resp := some { status := .ok, idx := none, data := none } }) ∧
    (∀ o : Offset, o.val = off.toNat → o.val < 36 → s.ownerOf i = .client → ∃ t, exec (.bufWr i off v) s = .next t ∧
      t.byteAt i o = v ∧ (∀ j w, j ≠ i ∨ w ≠ o → t.byteAt j w = s.byteAt j w) ∧
      t = { s with pool := t.pool, resp := some { status := .ok, idx := none, data := none } })

/-- R210: an operation of the port that answers with a refusal changes no state at all. -/
def Obligations.RefusedOperationChangesNoState : Prop :=
  ∀ (i : Instr) (s t : State) (r : Response), encode i ≠ none → exec i s = .next t → t.resp = some r →
    (r.status = .errOwner ∨ r.status = .errIllegal ∨ r.status = .errRange) → t = { s with resp := some r } ∧ r.idx = none

/-! ## Link events and the handler -/

/-- R160: EDGE runs nothing while disabled, START when `busy = 0`, FINISH when `busy = 1`, and toggles `busy`. -/
def Obligations.EdgeAlternatesStartAndFinish : Prop :=
  ∀ s : State,
    (s.enabled = false → exec .edge s = .next s) ∧
    (s.enabled = true → s.busy = false → ∃ t, exec .start s = .next t ∧ exec .edge s = .next { t with ret := s.ret } ∧
      t.busy = true) ∧
    (s.enabled = true → s.busy = true → ∃ t, exec .finish s = .next t ∧ exec .edge s = .next { t with ret := s.ret } ∧
      t.busy = false)

/-- R165 and R166: what START arms and preloads, in every state; the first transfer id after reset is 0. -/
def Obligations.StartArmsAndPreloads : Prop :=
  State.reset.xferId = 0x00#8 ∧
  ∀ s : State, ∃ t, exec .start s = .next t ∧ t.busy = true ∧
    t.dmaRx = { en := true, tcif := false, idx := (match t.curRx with | none => .zero | some i => .buf i), pos := 0 } ∧
    t.dmaTx = { en := true, tcif := false, idx := (match t.curTx with | none => .zero | some i => .buf i), pos := 0 } ∧
    t.spi = { s.spi with lead := s.xferId } ∧ t.xferId.toNat = (s.xferId.toNat + 1) % 256 ∧
    t.links.inbox = s.links.inbox ∧ (∀ j w, t.byteAt j w = s.byteAt j w) ∧
    t = { s with
      links := t.links
      owner := t.owner
      curRx := t.curRx
      curTx := t.curTx
      busy := true
      xferId := t.xferId
      dmaRx := t.dmaRx
      dmaTx := t.dmaTx
      spi := t.spi
      ret := t.ret }

/-- R163 and R164: what START stages. A staged buffer is kept; an empty slot takes what the dequeue of FREE (of OUTBOX)
gives, and stays empty when that is NONE. -/
def Obligations.StartStagesFromFreeAndOutbox : Prop :=
  ∀ s : State, ∃ t, exec .start s = .next t ∧
    (∀ i, s.curRx = some i → t.curRx = some i) ∧ (∀ i, s.curTx = some i → t.curTx = some i) ∧
    (s.curRx = none → t.curRx = (s.links.dequeue .free).1) ∧
    (∀ i, s.curRx = some i → s.curTx = none → t.curTx = (s.links.dequeue .outbox).1 ∧
      t.links = (s.links.dequeue .outbox).2) ∧
    (s.curRx = none → s.curTx = none → t.curTx = ((s.links.dequeue .free).2.dequeue .outbox).1 ∧
      t.links = ((s.links.dequeue .free).2.dequeue .outbox).2) ∧
    (∀ i, s.curRx = none → s.curTx = some i → t.links = (s.links.dequeue .free).2) ∧
    (∀ i j, s.curRx = some i → s.curTx = some j → t.links = s.links) ∧
    (∀ r, s.curRx = none → t.curRx = some r → t.curTx ≠ some r → t.ownerOf r = .rxStaged) ∧
    (∀ r, s.curTx = none → t.curTx = some r → t.ownerOf r = .txStaged) ∧
    (∀ j, (s.curRx = none → t.curRx ≠ some j) → (s.curTx = none → t.curTx ≠ some j) → t.ownerOf j = s.ownerOf j)

/-- R167: FINISH is its parts in their order, and clears `busy`. -/
def Obligations.FinishRunsItsPartsInOrder : Prop :=
  ∀ s : State, ∃ t, exec .finish s = .next t ∧ t.busy = false ∧
    t = { ((s.disableDma.disposeRx.disposeTx).spiRearm linkCrc).prestage with busy := false, ret := .done } ∧
    t.dmaRx = { s.dmaRx with en := false } ∧ t.dmaTx = { s.dmaTx with en := false } ∧
    t.xferId = s.xferId ∧ t.enabled = s.enabled ∧ t.cmd = s.cmd ∧ t.resp = s.resp ∧ t.miso = s.miso ∧
    t.inputs = s.inputs ∧ t.linkFault = s.linkFault ∧ t.draws = s.draws ∧ t.resets = s.resets

/-- R168: a frame received to the end in a buffer is flagged on a CRC mismatch, given to INBOX and unstaged; else nothing is
done. -/
def Obligations.ReceivedFrameIsDisposed : Prop :=
  ∀ s : State,
    (s.dmaRx.tcif = false ∨ s.curRx = none → s.disposeRx = s) ∧
    (∀ i, s.dmaRx.tcif = true → s.curRx = some i →
      s.disposeRx.byteAt i 3 = (if s.spi.crcerr then s.byteAt i 3 ||| 0x01#8 else s.byteAt i 3) ∧
      (∀ j w, j ≠ i ∨ w ≠ 3 → s.disposeRx.byteAt j w = s.byteAt j w) ∧
      s.disposeRx.ownerOf i = .inbox ∧ (∀ j, j ≠ i → s.disposeRx.ownerOf j = s.ownerOf j) ∧
      s.disposeRx.links = s.links.enqueue .inbox i ∧
      s.disposeRx = { s with
        pool := s.disposeRx.pool
        owner := s.disposeRx.owner
        links := s.disposeRx.links
        curRx := none })

/-- R169: a buffer sent to the end goes back to FREE with a zero header; else nothing is done. -/
def Obligations.SentBufferIsDisposed : Prop :=
  ∀ s : State,
    (s.dmaTx.tcif = false ∨ s.curTx = none → s.disposeTx = s) ∧
    (∀ i, s.dmaTx.tcif = true → s.curTx = some i →
      (∀ off : Offset, off.val < 4 → s.disposeTx.byteAt i off = 0x00#8) ∧
      (∀ (j : BufIdx) (off : Offset), j ≠ i ∨ 4 ≤ off.val → s.disposeTx.byteAt j off = s.byteAt j off) ∧
      s.disposeTx.ownerOf i = .free ∧ (∀ j, j ≠ i → s.disposeTx.ownerOf j = s.ownerOf j) ∧
      s.disposeTx.links = s.links.enqueue .free i ∧
      s.disposeTx = { s with
        pool := s.disposeTx.pool
        owner := s.disposeTx.owner
        links := s.disposeTx.links
        curTx := none })

/-- R174: whatever the frame was, FINISH leaves the CRC accumulators at `CRC_INIT`, `crcerr` clear and `k` at 0, and keeps
the outgoing byte register. -/
def Obligations.FinishRearmsTheSpi : Prop :=
  ∀ s : State, ∃ t, exec .finish s = .next t ∧
    t.spi = { lead := s.spi.lead, k := 0, rxcrc := linkCrc.init, txcrc := linkCrc.init, crcerr := false }

/-- R175: what FINISH pre-stages, receive first, then transmit, from the queues as its earlier parts leave them. -/
def Obligations.FinishPrestagesTheNextBuffers : Prop :=
  ∀ s : State, ∃ t u, exec .finish s = .next t ∧ u = s.disableDma.disposeRx.disposeTx.spiRearm linkCrc ∧
    (∀ i, u.curRx = some i → t.curRx = some i) ∧ (∀ i, u.curTx = some i → t.curTx = some i) ∧
    (u.curRx = none → t.curRx = (u.links.dequeue .free).1) ∧
    (∀ i, u.curRx = some i → u.curTx = none → t.curTx = (u.links.dequeue .outbox).1 ∧
      t.links = (u.links.dequeue .outbox).2) ∧
    (u.curRx = none → u.curTx = none → t.curTx = ((u.links.dequeue .free).2.dequeue .outbox).1 ∧
      t.links = ((u.links.dequeue .free).2.dequeue .outbox).2) ∧
    (∀ i, u.curRx = none → u.curTx = some i → t.links = (u.links.dequeue .free).2) ∧
    (∀ i j, u.curRx = some i → u.curTx = some j → t.links = u.links) ∧
    (∀ r, u.curRx = none → t.curRx = some r → t.curTx ≠ some r → t.ownerOf r = .rxStaged) ∧
    (∀ r, u.curTx = none → t.curTx = some r → t.ownerOf r = .txStaged) ∧
    (∀ j, (u.curRx = none → t.curRx ≠ some j) → (u.curTx = none → t.curTx ≠ some j) → t.ownerOf j = u.ownerOf j) ∧
    ∀ j w, t.byteAt j w = u.byteAt j w

/-- With FREE empty and nothing staged to receive into, the buffer just sent is the next receive buffer (the order of
FINISH's parts, R167, decision D27). -/
def Obligations.BufferJustSentIsRestaged : Prop :=
  ∀ (s : State) (i : BufIdx), s.enabled = true → s.busy = true → s.curRx = none → s.curTx = some i →
    s.dmaTx.tcif = true → Quiescent s.links .free [] → s.links.nextOf i = none → ∃ t, exec .edge s = .next t ∧
      t.curRx = some i ∧ Quiescent t.links .free [] ∧ ∀ off : Offset, off.val < 4 → t.byteAt i off = 0x00#8

/-- R171: the byte the block sends at exchange `k`, and what sending it does to the transmit channel and its CRC, with the
channel armed; and what an exchange leaves alone. -/
def Obligations.ExchangeSendsTheOutgoingByte : Prop :=
  ∀ (s : State) (m : Byte), s.enabled = true → s.busy = true → s.dmaTx.en = true → s.dmaRx.en = true →
    ∃ t, exec (.xchg m) s = .next t ∧ t.spi.k = s.spi.k + 1 ∧ t.spi.lead = s.spi.lead ∧
      (s.spi.k = 0 → t.miso = some s.spi.lead ∧ t.spi.txcrc = s.spi.txcrc ∧ t.dmaTx = s.dmaTx) ∧
      (1 ≤ s.spi.k → s.spi.k ≤ 36 → s.dmaTx.pos.val = s.spi.k - 1 →
        t.miso = some (s.memRead s.dmaTx.idx s.dmaTx.pos) ∧
        t.spi.txcrc = linkCrc.step s.spi.txcrc (s.memRead s.dmaTx.idx s.dmaTx.pos) ∧
        t.dmaTx.pos.val = s.dmaTx.pos.val + 1 ∧ t.dmaTx.tcif = (s.dmaTx.tcif || decide (s.spi.k = 36)) ∧
        t.dmaTx.en = true ∧ t.dmaTx.idx = s.dmaTx.idx) ∧
      (s.spi.k = 37 → t.miso = some s.spi.txcrc ∧ t.spi.txcrc = s.spi.txcrc ∧ t.dmaTx = s.dmaTx) ∧
      (38 ≤ s.spi.k → t.miso = some (Config.draw s.draws) ∧ t.spi.txcrc = s.spi.txcrc ∧ t.dmaTx = s.dmaTx) ∧
      t = { s with
        pool := t.pool
        dmaRx := t.dmaRx
        dmaTx := t.dmaTx
        spi := t.spi
        miso := t.miso
        draws := t.draws }

/-- R172: what becomes of the host's byte at exchange `k` with the receive channel armed, and that no other pool byte
changes. What the slot at offset 36 then holds is a free value (log entry 9), and nothing is said of it. -/
def Obligations.ExchangeStoresTheIncomingByte : Prop :=
  ∀ (s : State) (m : Byte), s.enabled = true → s.busy = true → s.dmaRx.en = true →
    ∃ t, exec (.xchg m) s = .next t ∧
      (∀ o : Offset, o.val = s.spi.k → s.spi.k < 36 →
        (∀ i, s.dmaRx.idx = .buf i → t.byteAt i o = m) ∧
        (∀ j w, s.dmaRx.idx ≠ .buf j ∨ w ≠ o → t.byteAt j w = s.byteAt j w) ∧
        t.spi.rxcrc = linkCrc.step s.spi.rxcrc m ∧ t.spi.crcerr = s.spi.crcerr ∧
        t.dmaRx.pos.val = s.spi.k + 1 ∧ t.dmaRx = { s.dmaRx with pos := t.dmaRx.pos }) ∧
      (s.spi.k = 36 →
        (∀ j w, s.dmaRx.idx ≠ .buf j ∨ w.val ≠ 36 → t.byteAt j w = s.byteAt j w) ∧
        t.spi.rxcrc = s.spi.rxcrc ∧ (t.spi.crcerr = true ↔ s.spi.crcerr = true ∨ m ≠ s.spi.rxcrc) ∧
        t.dmaRx = { s.dmaRx with pos := 37, tcif := true }) ∧
      (37 ≤ s.spi.k → (∀ j w, t.byteAt j w = s.byteAt j w) ∧ t.spi.rxcrc = s.spi.rxcrc ∧
        t.spi.crcerr = s.spi.crcerr ∧ t.dmaRx = s.dmaRx)

/-- R178: from `k = 37` on the host's byte is discarded, from `k = 38` on the byte sent is a draw, and only the exchange
counter changes. -/
def Obligations.ExchangesBeyondTheFrameOnlyCount : Prop :=
  (∀ (s : State) (m : Byte), s.enabled = true → s.busy = true → s.spi.k = 37 →
    exec (.xchg m) s = .next { s with spi := { s.spi with k := 38 }, miso := some s.spi.txcrc }) ∧
  ∀ (s : State) (m : Byte), s.enabled = true → s.busy = true → 38 ≤ s.spi.k →
    exec (.xchg m) s = .next { s with
      spi := { s.spi with k := s.spi.k + 1 }, miso := some (Config.draw s.draws), draws := s.draws + 1 }

/-- R179: an exchange while disabled changes no state and sends a draw; one between frames sets `link_fault`. That the rest
of the state then stays as it was, and the byte sent is a draw, is the model's choice (log entry 12). -/
def Obligations.ExchangeOutsideATransaction : Prop :=
  (∀ (s : State) (m : Byte), s.enabled = false →
    exec (.xchg m) s = .next { s with miso := some (Config.draw s.draws), draws := s.draws + 1 }) ∧
  (∀ (s : State) (m : Byte), s.enabled = true → s.busy = false → ∃ t, exec (.xchg m) s = .next t ∧ t.linkFault = true ∧
    t = { s with linkFault := true, miso := t.miso, draws := t.draws })

/-- R43: `link_fault` is 0 at reset, set by an exchange while enabled between frames and by no other step, and cleared by no
step of the step relation. The hardware reset, which is no step of R275, is outside this statement (log entry 14). -/
def Obligations.LinkFaultIsSticky : Prop :=
  State.reset.linkFault = false ∧
  ∀ s t : State, step s = .next t → (∀ rest, s.inputs ≠ .hwReset :: rest) →
    (s.linkFault = true → t.linkFault = true) ∧
    (s.linkFault = false → (t.linkFault = true ↔
      s.enabled = true ∧ s.busy = false ∧ ∃ m rest, s.inputs = .xchg m :: rest))

/-- R33: `enabled` is 1 from reset, SHUTDOWN clears it, INIT sets it, no other operation or client step writes it; while it is
0 EDGE and XCHG change no state. -/
def Obligations.EnabledBitRules : Prop :=
  State.reset.enabled = true ∧
  (∀ s t : State, exec .shutdown s = .next t → t.enabled = false) ∧
  (∀ s t : State, exec .init s = .next t → t.enabled = true) ∧
  (∀ (i : Instr) (s t : State), i ≠ .shutdown → i ≠ .init → exec i s = .next t → t.enabled = s.enabled) ∧
  (∀ s : State, s.clientProceed.enabled = s.enabled) ∧
  (∀ s : State, s.enabled = false → exec .edge s = .next s) ∧
  (∀ (s t : State) (m : Byte), s.enabled = false → exec (.xchg m) s = .next t →
    t = { s with miso := t.miso, draws := t.draws })

/-- R32: among all operations only START, run alone or by an edge, counts the transfer id up, INIT resets it, and no other
operation or client step writes it. -/
def Obligations.OnlyStartAdvancesTheTransferId : Prop :=
  (∀ (i : Instr) (s t : State), exec i s = .next t →
    t.xferId = (if i = .start ∨ (i = .edge ∧ s.enabled = true ∧ s.busy = false) then s.xferId + 1#8
      else if i = .init then 0x00#8 else s.xferId)) ∧
  (∀ s : State, s.clientProceed.xferId = s.xferId)

/-- The zero buffer (R24): an exchange on Z sends 0x00 for every data byte and stores nothing. -/
def Obligations.ZeroBufferSendsZeroAndStoresNothing : Prop :=
  ∀ (s : State) (m : Byte), s.enabled = true → s.busy = true → s.dmaTx.en = true → ∃ t, exec (.xchg m) s = .next t ∧
    (s.dmaRx.idx = .zero → t.pool = s.pool) ∧
    (s.dmaTx.idx = .zero → 1 ≤ s.spi.k → s.spi.k ≤ 36 → t.miso = some 0x00#8)

/-! ## The internal rows -/

/-- R149: the handler's allocation and free. -/
def Obligations.HandlerAllocatesAndFrees : Prop :=
  (∀ s : State, ∃ t, exec .allocInternal s = .next t ∧ t.links = (s.links.dequeue .free).2 ∧
    t.ret = (match (s.links.dequeue .free).1 with | none => .none | some r => .buf r) ∧
    (∀ j w, t.byteAt j w = s.byteAt j w) ∧ t = { s with links := t.links, ret := t.ret }) ∧
  (∀ (s : State) (i : BufIdx), ∃ t, exec (.freeInternal i) s = .next t ∧
    (∀ off : Offset, off.val < 4 → t.byteAt i off = 0x00#8) ∧
    (∀ (j : BufIdx) (off : Offset), j ≠ i ∨ 4 ≤ off.val → t.byteAt j off = s.byteAt j off) ∧
    t.ownerOf i = .free ∧ (∀ j, j ≠ i → t.ownerOf j = s.ownerOf j) ∧ t.links = s.links.enqueue .free i ∧
    t = { s with pool := t.pool, owner := t.owner, links := t.links, ret := .done })

/-- R121, R122 and R123: Q_INIT, ENQ.SWAP and ENQ.LINK. -/
def Obligations.EnqueueMicroSteps : Prop :=
  (∀ (s : State) (q : QueueName), ∃ t, exec (.qInit q) s = .next t ∧ t.links.queue q = { head := none, last := .sent } ∧
    (∀ q', q' ≠ q → t.links.queue q' = s.links.queue q') ∧ t.links.next = s.links.next ∧
    (t.links.dequeue q).1 = none ∧ t = { s with links := t.links, ret := .done }) ∧
  (∀ (s : State) (q : QueueName) (x : BufIdx), ∃ t, exec (.enqSwap q x) s = .next t ∧
    t.ret = .ref (s.links.queue q).last ∧ t.links.queue q = { head := (s.links.queue q).head, last := .node x } ∧
    (∀ q', q' ≠ q → t.links.queue q' = s.links.queue q') ∧ t.links.next = s.links.next ∧
    (∀ y, ∃ u, exec (.enqSwap q y) t = .next u ∧ u.ret = .ref (.node x)) ∧
    t = { s with links := t.links, ret := t.ret }) ∧
  (∀ (s : State) (q : QueueName) (x : BufIdx), ∃ t, exec (.enqLink q .sent x) s = .next t ∧
    t.links.queue q = { head := some x, last := (s.links.queue q).last } ∧
    (∀ q', q' ≠ q → t.links.queue q' = s.links.queue q') ∧ t.links.next = s.links.next ∧
    t = { s with links := t.links, ret := .done }) ∧
  (∀ (s : State) (q : QueueName) (i x : BufIdx), ∃ t, exec (.enqLink q (.node i) x) s = .next t ∧
    t.links.nextOf i = some x ∧ (∀ j, j ≠ i → t.links.nextOf j = s.links.nextOf j) ∧
    (∀ q', t.links.queue q' = s.links.queue q') ∧ t = { s with links := t.links, ret := .done })

/-- R125 to R129: the five micro-steps of a dequeue. -/
def Obligations.DequeueMicroSteps : Prop :=
  (∀ (s : State) (q : QueueName), exec (.deqHead q) s =
    .next { s with ret := (match (s.links.queue q).head with | none => .none | some h => .buf h) }) ∧
  (∀ (s : State) (q : QueueName) (h : BufIdx), (s.links.queue q).last ≠ .node h →
    exec (.deqLone q h) s = .next { s with ret := .flag false }) ∧
  (∀ (s : State) (q : QueueName) (h : BufIdx), (s.links.queue q).last = .node h → ∃ t, exec (.deqLone q h) s = .next t ∧
    t.ret = .flag true ∧ t.links.queue q = { head := (s.links.queue q).head, last := .sent } ∧
    (∀ q', q' ≠ q → t.links.queue q' = s.links.queue q') ∧ t.links.next = s.links.next ∧
    t = { s with links := t.links, ret := t.ret }) ∧
  (∀ (s : State) (q : QueueName) (h : BufIdx) (lone : Bool), exec (.deqSucc q h lone) s =
    .next { s with ret := if s.links.nextOf h = none ∧ lone = false then .none else .link (s.links.nextOf h) }) ∧
  (∀ (s : State) (q : QueueName) (h : BufIdx) (n : Option BufIdx), (s.links.queue q).head ≠ some h →
    exec (.deqUnlink q h n) s = .next { s with ret := .done }) ∧
  (∀ (s : State) (q : QueueName) (h : BufIdx) (n : Option BufIdx), (s.links.queue q).head = some h →
    ∃ t, exec (.deqUnlink q h n) s = .next t ∧ t.links.queue q = { head := n, last := (s.links.queue q).last } ∧
    (∀ q', q' ≠ q → t.links.queue q' = s.links.queue q') ∧ t.links.next = s.links.next ∧
    t = { s with links := t.links, ret := .done }) ∧
  (∀ (s : State) (h : BufIdx), ∃ t, exec (.deqClear h) s = .next t ∧ t.ret = .buf h ∧ t.links.nextOf h = none ∧
    (∀ j, j ≠ h → t.links.nextOf j = s.links.nextOf j) ∧ (∀ q', t.links.queue q' = s.links.queue q') ∧
    t = { s with links := t.links, ret := t.ret })

/-- Spurious emptiness (R131, an inference of the spec): with an enqueue of `x` in flight on FREE, or on OUTBOX, and at most
the old tail ahead of it, the handler's dequeue of that queue returns NONE and changes nothing; after the link it returns
the oldest node and leaves the rest in order. -/
def Obligations.SpuriousEmptinessIsHarmless : Prop :=
  ∀ (s : State) (p : NodeRef) (x : BufIdx) (a b : List BufIdx), a.length ≤ 1 →
    (EnqueueInFlight s.links .free p x a b →
      exec .allocInternal s = .next { s with ret := .none } ∧
      ∃ t u r, exec (.enqLink .free p x) s = .next t ∧ exec .allocInternal t = .next u ∧ u.ret = .buf r ∧
        (a ++ x :: b).head? = some r ∧ Quiescent u.links .free (a ++ x :: b).tail) ∧
    (EnqueueInFlight s.links .outbox p x a b →
      s.takeOutbox = (none, s) ∧
      ∃ t r, exec (.enqLink .outbox p x) s = .next t ∧ t.takeOutbox.1 = some r ∧ (a ++ x :: b).head? = some r ∧
        Quiescent t.takeOutbox.2.links .outbox (a ++ x :: b).tail)

/-- R192, R193, R194 and R195: the steps of the CRC harness. -/
def Obligations.CrcHarnessSteps : Prop :=
  (∀ s : State, exec .crcReset s = .next { s with
    spi := { s.spi with rxcrc := linkCrc.init, txcrc := linkCrc.init, crcerr := false }, ret := .done }) ∧
  (∀ (s : State) (m : Byte), exec (.crcRxStep m) s = .next { s with
    spi := { s.spi with rxcrc := linkCrc.step s.spi.rxcrc m }, ret := .done }) ∧
  (∀ (s : State) (m : Byte), m = s.spi.rxcrc → exec (.crcRxCheck m) s = .next { s with ret := .done }) ∧
  (∀ (s : State) (m : Byte), m ≠ s.spi.rxcrc → exec (.crcRxCheck m) s = .next { s with
    spi := { s.spi with crcerr := true }, ret := .done }) ∧
  (∀ (s : State) (v : Byte), exec (.crcTxStep v) s = .next { s with
    spi := { s.spi with txcrc := linkCrc.step s.spi.txcrc v }, ret := .done }) ∧
  (∀ s : State, exec .crcTxSend s = .next { s with miso := some s.spi.txcrc, ret := .done })

/-- R196: CRC.FLAG ORs 0x01 into the flags of the received buffer, only when the receive channel is complete, a buffer is
staged and the check failed; no other byte changes. -/
def Obligations.CrcFlagOrsTheErrorBit : Prop :=
  (∀ (s : State) (i : BufIdx), s.dmaRx.tcif = true → s.curRx = some i → s.spi.crcerr = true →
    ∃ t, exec .crcFlag s = .next t ∧ t.byteAt i 3 = s.byteAt i 3 ||| 0x01#8 ∧
      (∀ j w, j ≠ i ∨ w ≠ 3 → t.byteAt j w = s.byteAt j w) ∧ t = { s with pool := t.pool, ret := .done }) ∧
  (∀ s : State, s.dmaRx.tcif = false ∨ s.curRx = none ∨ s.spi.crcerr = false →
    exec .crcFlag s = .next { s with ret := .done })

/-- R191: the check values of the default instance of LINKCRC. -/
def Obligations.DefaultCrcCheckValues : Prop :=
  crcOf defaultLinkCrc [] = 0x00#8 ∧ crcOf defaultLinkCrc (List.replicate 36 0x00#8) = 0x00#8 ∧
  crcOf defaultLinkCrc [0x31#8, 0x32#8, 0x33#8, 0x34#8, 0x35#8, 0x36#8, 0x37#8, 0x38#8, 0x39#8] = 0xF4#8

/-! ## Whole-machine rules -/

/-- The client's operations cannot touch what only the handler does (R38, R223): every operation of the port but INIT and
SHUTDOWN, and every later micro-step, leaves the staging registers, `busy`, `enabled`, `xfer_id`, the DMA and the SPI as
they were. -/
def Obligations.ClientTouchesNoHandlerRegister : Prop :=
  (∀ (i : Instr) (s t : State), encode i ≠ none → i ≠ .init → i ≠ .shutdown → exec i s = .next t →
    t.curRx = s.curRx ∧ t.curTx = s.curTx ∧ t.busy = s.busy ∧ t.enabled = s.enabled ∧ t.xferId = s.xferId ∧
    t.dmaRx = s.dmaRx ∧ t.dmaTx = s.dmaTx ∧ t.spi = s.spi) ∧
  (∀ s : State, s.clientProceed.curRx = s.curRx ∧ s.clientProceed.curTx = s.curTx ∧ s.clientProceed.busy = s.busy ∧
    s.clientProceed.enabled = s.enabled ∧ s.clientProceed.xferId = s.xferId ∧ s.clientProceed.dmaRx = s.dmaRx ∧
    s.clientProceed.dmaTx = s.dmaTx ∧ s.clientProceed.spi = s.spi)

/-- No link event touches a buffer the client holds (R68, an inference of the spec): in every state that meets the
invariants its 37 bytes, its owner and its link stay as they were. -/
def Obligations.LinkEventsLeaveClientBuffersAlone : Prop :=
  ∀ (s t : State) (e : Instr) (i : BufIdx), Inv s → s.ownerOf i = .client → (e = .edge ∨ ∃ m, e = .xchg m) →
    exec e s = .next t → t.ownerOf i = .client ∧ t.links.nextOf i = none ∧ ∀ off, t.byteAt i off = s.byteAt i off

/-- No client step touches a staged buffer (R68, an inference of the spec): no operation of the port but INIT, and no later
micro-step, changes a byte of a buffer staged for receive or transmit, or its owner. -/
def Obligations.ClientLeavesStagedBuffersAlone : Prop :=
  (∀ (s t : State) (e : Instr) (i : BufIdx), Inv s → (s.curRx = some i ∨ s.curTx = some i) → s.cmd.pos = .idle →
    encode e ≠ none → e ≠ .init → exec e s = .next t →
    t.ownerOf i = s.ownerOf i ∧ ∀ off, t.byteAt i off = s.byteAt i off) ∧
  (∀ (s : State) (i : BufIdx), Inv s → (s.curRx = some i ∨ s.curTx = some i) →
    s.clientProceed.ownerOf i = s.ownerOf i ∧ ∀ off, s.clientProceed.byteAt i off = s.byteAt i off)

/-- One whole frame of 37 or more exchanges (R181, an inference of the spec): the host's 36 data bytes are in the buffer
START staged, with bit 0 of `flags` ORed in when the CRC byte did not match, and the buffer is the newest of INBOX. -/
def Obligations.FullFrameIsDelivered : Prop :=
  ∀ (s : State) (f ib ob : List BufIdx) (ms : List Byte), Inv s → QueueInv s f ib ob → s.enabled = true →
    s.busy = false → 37 ≤ ms.length → ∃ t0 t1 t, exec .edge s = .next t0 ∧
      execAll (exchanges ms) t0 = .next t1 ∧ exec .edge t1 = .next t ∧
      t.busy = false ∧ t.spi.k = 0 ∧ t.spi.crcerr = false ∧ t.xferId = s.xferId + 1#8 ∧ t.linkFault = s.linkFault ∧
      (t0.curRx = none → InboxForm t ib) ∧
      (∀ r, t0.curRx = some r → t.ownerOf r = .inbox ∧ InboxForm t (ib ++ [r]) ∧
        (∀ off : Offset, off.val < 36 → off.val ≠ 3 → t.byteAt r off = ms.getD off.val 0x00#8) ∧
        t.byteAt r 3 = (if ms.getD 36 0x00#8 = crcOf linkCrc (ms.take 36) then ms.getD 3 0x00#8
          else ms.getD 3 0x00#8 ||| 0x01#8))

/-- The block's bytes of one frame (R92, R181, an inference of the spec): the transfer id, the 36 data bytes of the transmit
source START settled on as they stood then, and their link CRC. -/
def Obligations.FrameSendsIdDataAndCrc : Prop :=
  ∀ (s t0 t1 : State) (ms : List Byte) (m : Byte), Inv s → s.enabled = true → s.busy = false →
    exec .edge s = .next t0 → execAll (exchanges ms) t0 = .next t1 → ∃ t2, exec (.xchg m) t1 = .next t2 ∧
      (ms.length = 0 → t2.miso = some s.xferId) ∧
      (∀ o : Offset, ms.length = o.val + 1 → o.val < 36 → t2.miso = some (t0.memRead (targetOf t0.curTx) o)) ∧
      (ms.length = 37 → t2.miso = some (crcOf linkCrc
        ((List.finRange 36).map fun j => t0.memRead (targetOf t0.curTx) ⟨j.val, by omega⟩)))

/-- A short frame is retried (R176, R181, an inference of the spec): with fewer than 37 exchanges nothing is queued and the
staged buffers stay staged. For frames of 35 and 36 exchanges that the transmit buffer stays staged is the default of R173
(log entry 15). -/
def Obligations.ShortFrameIsRetried : Prop :=
  ∀ (s : State) (f ib ob : List BufIdx) (ms : List Byte), Inv s → QueueInv s f ib ob → s.enabled = true →
    s.busy = false → ms.length < 37 → ∃ t0 t1 t, exec .edge s = .next t0 ∧
      execAll (exchanges ms) t0 = .next t1 ∧ exec .edge t1 = .next t ∧ t.busy = false ∧
      (∀ r, t0.curRx = some r → t.curRx = some r ∧ t.ownerOf r = .rxStaged ∧
        ∀ off : Offset, off.val < ms.length → off.val < 36 → t.byteAt r off = ms.getD off.val 0x00#8) ∧
      (∀ r, t0.curTx = some r → t.curTx = some r ∧ t.ownerOf r = .txStaged ∧
        ∀ off, t.byteAt r off = t0.byteAt r off) ∧
      InboxForm t ib

/-- Both channels complete at the 37th exchange (R173, an inference of the spec), in every state of a transaction that meets
the invariants. -/
def Obligations.BothChannelsCompleteTogether : Prop :=
  ∀ (s t : State) (m : Byte), Inv s → s.enabled = true → s.busy = true → exec (.xchg m) s = .next t →
    (t.dmaRx.tcif = true ↔ 36 ≤ s.spi.k) ∧ (t.dmaTx.tcif = true ↔ 36 ≤ s.spi.k)
end

