-- ==== Sys2Proof/Laws/State.lean ====
section
/-! SUPPORT. One lemma per field per update of the state, so that no later proof unfolds a record update; and the effect of
the two updates that are read through an accessor (owner, link space). -/

namespace Sys2Proof.Machine

/-! ### The parameters of this hardware (R6) -/

@[simp] theorem ptb_linkCrc : ptb.linkCrc = linkCrc := rfl
@[simp] theorem ptb_txDeqAtStart : ptb.txDeqAtStart = true := rfl
@[simp] theorem ptb_firstXferId : ptb.firstXferId = 0#8 := rfl
@[simp] theorem ptb_lead : ptb.lead = 1 := rfl

/-- ZIDX names no buffer, and an index names one target (R24). -/
theorem Target.index_inj (c : Config) {t u : Target} : t.index c = u.index c ↔ t = u := by
  have h (i : BufIdx) : i.val ≠ c.zidx := by rw [c.zidx_eq]; exact Nat.ne_of_lt i.isLt
  cases t <;> cases u <;> simp [Target.index, h, (h _).symm, Fin.ext_iff]

/-! ### The two vectors, read after a write -/

theorem State.ownerOf_setOwner (s : State) (i j : BufIdx) (o : Owner) :
    (s.setOwner i o).ownerOf j = if j = i then o else s.ownerOf j := by
  simp only [State.ownerOf, State.setOwner, Vector.get_eq_getElem, Vector.getElem_set, Fin.ext_iff, eq_comm]

@[simp] theorem State.ownerOf_setOwner_self (s : State) (i : BufIdx) (o : Owner) : (s.setOwner i o).ownerOf i = o := by
  simp [State.ownerOf_setOwner]

theorem State.ownerOf_setOwner_ne (s : State) {i j : BufIdx} (o : Owner) (h : j ≠ i) :
    (s.setOwner i o).ownerOf j = s.ownerOf j := by
  simp [State.ownerOf_setOwner, h]

theorem Links.nextOf_setNext (l : Links) (i j : BufIdx) (v : Option BufIdx) :
    (l.setNext i v).nextOf j = if j = i then v else l.nextOf j := by
  simp only [Links.nextOf, Links.setNext, Vector.get_eq_getElem, Vector.getElem_set, Fin.ext_iff, eq_comm]

@[simp] theorem Links.nextOf_setNext_self (l : Links) (i : BufIdx) (v : Option BufIdx) : (l.setNext i v).nextOf i = v := by
  simp [Links.nextOf_setNext]

theorem Links.nextOf_setNext_ne (l : Links) {i j : BufIdx} (v : Option BufIdx) (h : j ≠ i) :
    (l.setNext i v).nextOf j = l.nextOf j := by
  simp [Links.nextOf_setNext, h]

@[simp] theorem Links.nextOf_setQueue (l : Links) (q : QueueName) (v : Queue) (j : BufIdx) :
    (l.setQueue q v).nextOf j = l.nextOf j := by cases q <;> rfl

@[simp] theorem Links.queue_setNext (l : Links) (q : QueueName) (i : BufIdx) (v : Option BufIdx) :
    (l.setNext i v).queue q = l.queue q := by cases q <;> rfl

@[simp] theorem Links.queue_setQueue_self (l : Links) (q : QueueName) (v : Queue) : (l.setQueue q v).queue q = v := by
  cases q <;> rfl

theorem Links.queue_setQueue_ne (l : Links) {q q' : QueueName} (v : Queue) (h : q' ≠ q) :
    (l.setQueue q v).queue q' = l.queue q' := by
  cases q <;> cases q' <;> first | rfl | exact absurd rfl h

/-! ### memWrite -/

@[simp] theorem State.memWrite_links (s : State) (t : Target) (off : Offset) (v : Byte) : (s.memWrite t off v).links = s.links := by cases t <;> rfl
@[simp] theorem State.memWrite_owner (s : State) (t : Target) (off : Offset) (v : Byte) : (s.memWrite t off v).owner = s.owner := by cases t <;> rfl
@[simp] theorem State.memWrite_curRx (s : State) (t : Target) (off : Offset) (v : Byte) : (s.memWrite t off v).curRx = s.curRx := by cases t <;> rfl
@[simp] theorem State.memWrite_curTx (s : State) (t : Target) (off : Offset) (v : Byte) : (s.memWrite t off v).curTx = s.curTx := by cases t <;> rfl
@[simp] theorem State.memWrite_busy (s : State) (t : Target) (off : Offset) (v : Byte) : (s.memWrite t off v).busy = s.busy := by cases t <;> rfl
@[simp] theorem State.memWrite_enabled (s : State) (t : Target) (off : Offset) (v : Byte) : (s.memWrite t off v).enabled = s.enabled := by cases t <;> rfl
@[simp] theorem State.memWrite_xferId (s : State) (t : Target) (off : Offset) (v : Byte) : (s.memWrite t off v).xferId = s.xferId := by cases t <;> rfl
@[simp] theorem State.memWrite_dmaRx (s : State) (t : Target) (off : Offset) (v : Byte) : (s.memWrite t off v).dmaRx = s.dmaRx := by cases t <;> rfl
@[simp] theorem State.memWrite_dmaTx (s : State) (t : Target) (off : Offset) (v : Byte) : (s.memWrite t off v).dmaTx = s.dmaTx := by cases t <;> rfl
@[simp] theorem State.memWrite_spi (s : State) (t : Target) (off : Offset) (v : Byte) : (s.memWrite t off v).spi = s.spi := by cases t <;> rfl
@[simp] theorem State.memWrite_cmd (s : State) (t : Target) (off : Offset) (v : Byte) : (s.memWrite t off v).cmd = s.cmd := by cases t <;> rfl
@[simp] theorem State.memWrite_linkFault (s : State) (t : Target) (off : Offset) (v : Byte) : (s.memWrite t off v).linkFault = s.linkFault := by cases t <;> rfl
@[simp] theorem State.memWrite_resp (s : State) (t : Target) (off : Offset) (v : Byte) : (s.memWrite t off v).resp = s.resp := by cases t <;> rfl
@[simp] theorem State.memWrite_miso (s : State) (t : Target) (off : Offset) (v : Byte) : (s.memWrite t off v).miso = s.miso := by cases t <;> rfl
@[simp] theorem State.memWrite_ret (s : State) (t : Target) (off : Offset) (v : Byte) : (s.memWrite t off v).ret = s.ret := by cases t <;> rfl
@[simp] theorem State.memWrite_inputs (s : State) (t : Target) (off : Offset) (v : Byte) : (s.memWrite t off v).inputs = s.inputs := by cases t <;> rfl
@[simp] theorem State.memWrite_draws (s : State) (t : Target) (off : Offset) (v : Byte) : (s.memWrite t off v).draws = s.draws := by cases t <;> rfl
@[simp] theorem State.memWrite_resets (s : State) (t : Target) (off : Offset) (v : Byte) : (s.memWrite t off v).resets = s.resets := by cases t <;> rfl
@[simp] theorem State.memWrite_ownerOf (s : State) (t : Target) (off : Offset) (v : Byte) (j : BufIdx) : (s.memWrite t off v).ownerOf j = s.ownerOf j := by cases t <;> rfl

/-! ### zeroHeader -/

@[simp] theorem State.zeroHeader_links (s : State) (i : BufIdx) : (s.zeroHeader i).links = s.links := rfl
@[simp] theorem State.zeroHeader_owner (s : State) (i : BufIdx) : (s.zeroHeader i).owner = s.owner := rfl
@[simp] theorem State.zeroHeader_curRx (s : State) (i : BufIdx) : (s.zeroHeader i).curRx = s.curRx := rfl
@[simp] theorem State.zeroHeader_curTx (s : State) (i : BufIdx) : (s.zeroHeader i).curTx = s.curTx := rfl
@[simp] theorem State.zeroHeader_busy (s : State) (i : BufIdx) : (s.zeroHeader i).busy = s.busy := rfl
@[simp] theorem State.zeroHeader_enabled (s : State) (i : BufIdx) : (s.zeroHeader i).enabled = s.enabled := rfl
@[simp] theorem State.zeroHeader_xferId (s : State) (i : BufIdx) : (s.zeroHeader i).xferId = s.xferId := rfl
@[simp] theorem State.zeroHeader_dmaRx (s : State) (i : BufIdx) : (s.zeroHeader i).dmaRx = s.dmaRx := rfl
@[simp] theorem State.zeroHeader_dmaTx (s : State) (i : BufIdx) : (s.zeroHeader i).dmaTx = s.dmaTx := rfl
@[simp] theorem State.zeroHeader_spi (s : State) (i : BufIdx) : (s.zeroHeader i).spi = s.spi := rfl
@[simp] theorem State.zeroHeader_cmd (s : State) (i : BufIdx) : (s.zeroHeader i).cmd = s.cmd := rfl
@[simp] theorem State.zeroHeader_linkFault (s : State) (i : BufIdx) : (s.zeroHeader i).linkFault = s.linkFault := rfl
@[simp] theorem State.zeroHeader_resp (s : State) (i : BufIdx) : (s.zeroHeader i).resp = s.resp := rfl
@[simp] theorem State.zeroHeader_miso (s : State) (i : BufIdx) : (s.zeroHeader i).miso = s.miso := rfl
@[simp] theorem State.zeroHeader_ret (s : State) (i : BufIdx) : (s.zeroHeader i).ret = s.ret := rfl
@[simp] theorem State.zeroHeader_inputs (s : State) (i : BufIdx) : (s.zeroHeader i).inputs = s.inputs := rfl
@[simp] theorem State.zeroHeader_draws (s : State) (i : BufIdx) : (s.zeroHeader i).draws = s.draws := rfl
@[simp] theorem State.zeroHeader_resets (s : State) (i : BufIdx) : (s.zeroHeader i).resets = s.resets := rfl
@[simp] theorem State.zeroHeader_ownerOf (s : State) (i : BufIdx) (j : BufIdx) : (s.zeroHeader i).ownerOf j = s.ownerOf j := rfl

/-! ### setOwner -/

@[simp] theorem State.setOwner_pool (s : State) (i : BufIdx) (o : Owner) : (s.setOwner i o).pool = s.pool := rfl
@[simp] theorem State.setOwner_links (s : State) (i : BufIdx) (o : Owner) : (s.setOwner i o).links = s.links := rfl
@[simp] theorem State.setOwner_curRx (s : State) (i : BufIdx) (o : Owner) : (s.setOwner i o).curRx = s.curRx := rfl
@[simp] theorem State.setOwner_curTx (s : State) (i : BufIdx) (o : Owner) : (s.setOwner i o).curTx = s.curTx := rfl
@[simp] theorem State.setOwner_busy (s : State) (i : BufIdx) (o : Owner) : (s.setOwner i o).busy = s.busy := rfl
@[simp] theorem State.setOwner_enabled (s : State) (i : BufIdx) (o : Owner) : (s.setOwner i o).enabled = s.enabled := rfl
@[simp] theorem State.setOwner_xferId (s : State) (i : BufIdx) (o : Owner) : (s.setOwner i o).xferId = s.xferId := rfl
@[simp] theorem State.setOwner_dmaRx (s : State) (i : BufIdx) (o : Owner) : (s.setOwner i o).dmaRx = s.dmaRx := rfl
@[simp] theorem State.setOwner_dmaTx (s : State) (i : BufIdx) (o : Owner) : (s.setOwner i o).dmaTx = s.dmaTx := rfl
@[simp] theorem State.setOwner_spi (s : State) (i : BufIdx) (o : Owner) : (s.setOwner i o).spi = s.spi := rfl
@[simp] theorem State.setOwner_cmd (s : State) (i : BufIdx) (o : Owner) : (s.setOwner i o).cmd = s.cmd := rfl
@[simp] theorem State.setOwner_linkFault (s : State) (i : BufIdx) (o : Owner) : (s.setOwner i o).linkFault = s.linkFault := rfl
@[simp] theorem State.setOwner_resp (s : State) (i : BufIdx) (o : Owner) : (s.setOwner i o).resp = s.resp := rfl
@[simp] theorem State.setOwner_miso (s : State) (i : BufIdx) (o : Owner) : (s.setOwner i o).miso = s.miso := rfl
@[simp] theorem State.setOwner_ret (s : State) (i : BufIdx) (o : Owner) : (s.setOwner i o).ret = s.ret := rfl
@[simp] theorem State.setOwner_inputs (s : State) (i : BufIdx) (o : Owner) : (s.setOwner i o).inputs = s.inputs := rfl
@[simp] theorem State.setOwner_draws (s : State) (i : BufIdx) (o : Owner) : (s.setOwner i o).draws = s.draws := rfl
@[simp] theorem State.setOwner_resets (s : State) (i : BufIdx) (o : Owner) : (s.setOwner i o).resets = s.resets := rfl
@[simp] theorem State.setOwner_byteAt (s : State) (i : BufIdx) (o : Owner) (j : BufIdx) (w : Offset) : (s.setOwner i o).byteAt j w = s.byteAt j w := rfl

/-! ### draw -/

@[simp] theorem State.draw_pool (s : State) : s.draw.2.pool = s.pool := rfl
@[simp] theorem State.draw_links (s : State) : s.draw.2.links = s.links := rfl
@[simp] theorem State.draw_owner (s : State) : s.draw.2.owner = s.owner := rfl
@[simp] theorem State.draw_curRx (s : State) : s.draw.2.curRx = s.curRx := rfl
@[simp] theorem State.draw_curTx (s : State) : s.draw.2.curTx = s.curTx := rfl
@[simp] theorem State.draw_busy (s : State) : s.draw.2.busy = s.busy := rfl
@[simp] theorem State.draw_enabled (s : State) : s.draw.2.enabled = s.enabled := rfl
@[simp] theorem State.draw_xferId (s : State) : s.draw.2.xferId = s.xferId := rfl
@[simp] theorem State.draw_dmaRx (s : State) : s.draw.2.dmaRx = s.dmaRx := rfl
@[simp] theorem State.draw_dmaTx (s : State) : s.draw.2.dmaTx = s.dmaTx := rfl
@[simp] theorem State.draw_spi (s : State) : s.draw.2.spi = s.spi := rfl
@[simp] theorem State.draw_cmd (s : State) : s.draw.2.cmd = s.cmd := rfl
@[simp] theorem State.draw_linkFault (s : State) : s.draw.2.linkFault = s.linkFault := rfl
@[simp] theorem State.draw_resp (s : State) : s.draw.2.resp = s.resp := rfl
@[simp] theorem State.draw_miso (s : State) : s.draw.2.miso = s.miso := rfl
@[simp] theorem State.draw_ret (s : State) : s.draw.2.ret = s.ret := rfl
@[simp] theorem State.draw_inputs (s : State) : s.draw.2.inputs = s.inputs := rfl
@[simp] theorem State.draw_draws (s : State) : s.draw.2.draws = s.draws + 1 := rfl
@[simp] theorem State.draw_resets (s : State) : s.draw.2.resets = s.resets := rfl
@[simp] theorem State.draw_byteAt (s : State) (j : BufIdx) (w : Offset) : s.draw.2.byteAt j w = s.byteAt j w := rfl
@[simp] theorem State.draw_ownerOf (s : State) (j : BufIdx) : s.draw.2.ownerOf j = s.ownerOf j := rfl

/-! ### respond -/

@[simp] theorem State.respond_pool (s : State) (st : Status) (i : Option BufIdx) (d : Option Byte) : (s.respond st i d).pool = s.pool := rfl
@[simp] theorem State.respond_links (s : State) (st : Status) (i : Option BufIdx) (d : Option Byte) : (s.respond st i d).links = s.links := rfl
@[simp] theorem State.respond_owner (s : State) (st : Status) (i : Option BufIdx) (d : Option Byte) : (s.respond st i d).owner = s.owner := rfl
@[simp] theorem State.respond_curRx (s : State) (st : Status) (i : Option BufIdx) (d : Option Byte) : (s.respond st i d).curRx = s.curRx := rfl
@[simp] theorem State.respond_curTx (s : State) (st : Status) (i : Option BufIdx) (d : Option Byte) : (s.respond st i d).curTx = s.curTx := rfl
@[simp] theorem State.respond_busy (s : State) (st : Status) (i : Option BufIdx) (d : Option Byte) : (s.respond st i d).busy = s.busy := rfl
@[simp] theorem State.respond_enabled (s : State) (st : Status) (i : Option BufIdx) (d : Option Byte) : (s.respond st i d).enabled = s.enabled := rfl
@[simp] theorem State.respond_xferId (s : State) (st : Status) (i : Option BufIdx) (d : Option Byte) : (s.respond st i d).xferId = s.xferId := rfl
@[simp] theorem State.respond_dmaRx (s : State) (st : Status) (i : Option BufIdx) (d : Option Byte) : (s.respond st i d).dmaRx = s.dmaRx := rfl
@[simp] theorem State.respond_dmaTx (s : State) (st : Status) (i : Option BufIdx) (d : Option Byte) : (s.respond st i d).dmaTx = s.dmaTx := rfl
@[simp] theorem State.respond_spi (s : State) (st : Status) (i : Option BufIdx) (d : Option Byte) : (s.respond st i d).spi = s.spi := rfl
@[simp] theorem State.respond_cmd (s : State) (st : Status) (i : Option BufIdx) (d : Option Byte) : (s.respond st i d).cmd = s.cmd := rfl
@[simp] theorem State.respond_linkFault (s : State) (st : Status) (i : Option BufIdx) (d : Option Byte) : (s.respond st i d).linkFault = s.linkFault := rfl
@[simp] theorem State.respond_resp (s : State) (st : Status) (i : Option BufIdx) (d : Option Byte) : (s.respond st i d).resp = some { status := st, idx := i, data := d } := rfl
@[simp] theorem State.respond_miso (s : State) (st : Status) (i : Option BufIdx) (d : Option Byte) : (s.respond st i d).miso = s.miso := rfl
@[simp] theorem State.respond_ret (s : State) (st : Status) (i : Option BufIdx) (d : Option Byte) : (s.respond st i d).ret = s.ret := rfl
@[simp] theorem State.respond_inputs (s : State) (st : Status) (i : Option BufIdx) (d : Option Byte) : (s.respond st i d).inputs = s.inputs := rfl
@[simp] theorem State.respond_draws (s : State) (st : Status) (i : Option BufIdx) (d : Option Byte) : (s.respond st i d).draws = s.draws := rfl
@[simp] theorem State.respond_resets (s : State) (st : Status) (i : Option BufIdx) (d : Option Byte) : (s.respond st i d).resets = s.resets := rfl
@[simp] theorem State.respond_byteAt (s : State) (st : Status) (i : Option BufIdx) (d : Option Byte) (j : BufIdx) (w : Offset) : (s.respond st i d).byteAt j w = s.byteAt j w := rfl
@[simp] theorem State.respond_ownerOf (s : State) (st : Status) (i : Option BufIdx) (d : Option Byte) (j : BufIdx) : (s.respond st i d).ownerOf j = s.ownerOf j := rfl

/-! ### endCommand -/

@[simp] theorem State.endCommand_pool (s : State) : s.endCommand.pool = s.pool := rfl
@[simp] theorem State.endCommand_links (s : State) : s.endCommand.links = s.links := rfl
@[simp] theorem State.endCommand_owner (s : State) : s.endCommand.owner = s.owner := rfl
@[simp] theorem State.endCommand_curRx (s : State) : s.endCommand.curRx = s.curRx := rfl
@[simp] theorem State.endCommand_curTx (s : State) : s.endCommand.curTx = s.curTx := rfl
@[simp] theorem State.endCommand_busy (s : State) : s.endCommand.busy = s.busy := rfl
@[simp] theorem State.endCommand_enabled (s : State) : s.endCommand.enabled = s.enabled := rfl
@[simp] theorem State.endCommand_xferId (s : State) : s.endCommand.xferId = s.xferId := rfl
@[simp] theorem State.endCommand_dmaRx (s : State) : s.endCommand.dmaRx = s.dmaRx := rfl
@[simp] theorem State.endCommand_dmaTx (s : State) : s.endCommand.dmaTx = s.dmaTx := rfl
@[simp] theorem State.endCommand_spi (s : State) : s.endCommand.spi = s.spi := rfl
@[simp] theorem State.endCommand_cmd (s : State) : s.endCommand.cmd = { s.cmd with pos := .idle } := rfl
@[simp] theorem State.endCommand_linkFault (s : State) : s.endCommand.linkFault = s.linkFault := rfl
@[simp] theorem State.endCommand_resp (s : State) : s.endCommand.resp = s.resp := rfl
@[simp] theorem State.endCommand_miso (s : State) : s.endCommand.miso = s.miso := rfl
@[simp] theorem State.endCommand_ret (s : State) : s.endCommand.ret = s.ret := rfl
@[simp] theorem State.endCommand_inputs (s : State) : s.endCommand.inputs = s.inputs := rfl
@[simp] theorem State.endCommand_draws (s : State) : s.endCommand.draws = s.draws := rfl
@[simp] theorem State.endCommand_resets (s : State) : s.endCommand.resets = s.resets := rfl
@[simp] theorem State.endCommand_byteAt (s : State) (j : BufIdx) (w : Offset) : s.endCommand.byteAt j w = s.byteAt j w := rfl
@[simp] theorem State.endCommand_ownerOf (s : State) (j : BufIdx) : s.endCommand.ownerOf j = s.ownerOf j := rfl

/-! ### beginCommand -/

@[simp] theorem State.beginCommand_pool (s : State) (c : Cmd) : (s.beginCommand c).pool = s.pool := rfl
@[simp] theorem State.beginCommand_links (s : State) (c : Cmd) : (s.beginCommand c).links = s.links := rfl
@[simp] theorem State.beginCommand_owner (s : State) (c : Cmd) : (s.beginCommand c).owner = s.owner := rfl
@[simp] theorem State.beginCommand_curRx (s : State) (c : Cmd) : (s.beginCommand c).curRx = s.curRx := rfl
@[simp] theorem State.beginCommand_curTx (s : State) (c : Cmd) : (s.beginCommand c).curTx = s.curTx := rfl
@[simp] theorem State.beginCommand_busy (s : State) (c : Cmd) : (s.beginCommand c).busy = s.busy := rfl
@[simp] theorem State.beginCommand_enabled (s : State) (c : Cmd) : (s.beginCommand c).enabled = s.enabled := rfl
@[simp] theorem State.beginCommand_xferId (s : State) (c : Cmd) : (s.beginCommand c).xferId = s.xferId := rfl
@[simp] theorem State.beginCommand_dmaRx (s : State) (c : Cmd) : (s.beginCommand c).dmaRx = s.dmaRx := rfl
@[simp] theorem State.beginCommand_dmaTx (s : State) (c : Cmd) : (s.beginCommand c).dmaTx = s.dmaTx := rfl
@[simp] theorem State.beginCommand_spi (s : State) (c : Cmd) : (s.beginCommand c).spi = s.spi := rfl
@[simp] theorem State.beginCommand_cmd (s : State) (c : Cmd) : (s.beginCommand c).cmd = c := rfl
@[simp] theorem State.beginCommand_linkFault (s : State) (c : Cmd) : (s.beginCommand c).linkFault = s.linkFault := rfl
@[simp] theorem State.beginCommand_resp (s : State) (c : Cmd) : (s.beginCommand c).resp = none := rfl
@[simp] theorem State.beginCommand_miso (s : State) (c : Cmd) : (s.beginCommand c).miso = s.miso := rfl
@[simp] theorem State.beginCommand_ret (s : State) (c : Cmd) : (s.beginCommand c).ret = s.ret := rfl
@[simp] theorem State.beginCommand_inputs (s : State) (c : Cmd) : (s.beginCommand c).inputs = s.inputs := rfl
@[simp] theorem State.beginCommand_draws (s : State) (c : Cmd) : (s.beginCommand c).draws = s.draws := rfl
@[simp] theorem State.beginCommand_resets (s : State) (c : Cmd) : (s.beginCommand c).resets = s.resets := rfl
@[simp] theorem State.beginCommand_byteAt (s : State) (c : Cmd) (j : BufIdx) (w : Offset) : (s.beginCommand c).byteAt j w = s.byteAt j w := rfl
@[simp] theorem State.beginCommand_ownerOf (s : State) (c : Cmd) (j : BufIdx) : (s.beginCommand c).ownerOf j = s.ownerOf j := rfl

/-! ### send -/

@[simp] theorem State.send_pool (s : State) (b : Byte) : (s.send b).pool = s.pool := rfl
@[simp] theorem State.send_links (s : State) (b : Byte) : (s.send b).links = s.links := rfl
@[simp] theorem State.send_owner (s : State) (b : Byte) : (s.send b).owner = s.owner := rfl
@[simp] theorem State.send_curRx (s : State) (b : Byte) : (s.send b).curRx = s.curRx := rfl
@[simp] theorem State.send_curTx (s : State) (b : Byte) : (s.send b).curTx = s.curTx := rfl
@[simp] theorem State.send_busy (s : State) (b : Byte) : (s.send b).busy = s.busy := rfl
@[simp] theorem State.send_enabled (s : State) (b : Byte) : (s.send b).enabled = s.enabled := rfl
@[simp] theorem State.send_xferId (s : State) (b : Byte) : (s.send b).xferId = s.xferId := rfl
@[simp] theorem State.send_dmaRx (s : State) (b : Byte) : (s.send b).dmaRx = s.dmaRx := rfl
@[simp] theorem State.send_dmaTx (s : State) (b : Byte) : (s.send b).dmaTx = s.dmaTx := rfl
@[simp] theorem State.send_spi (s : State) (b : Byte) : (s.send b).spi = s.spi := rfl
@[simp] theorem State.send_cmd (s : State) (b : Byte) : (s.send b).cmd = s.cmd := rfl
@[simp] theorem State.send_linkFault (s : State) (b : Byte) : (s.send b).linkFault = s.linkFault := rfl
@[simp] theorem State.send_resp (s : State) (b : Byte) : (s.send b).resp = s.resp := rfl
@[simp] theorem State.send_miso (s : State) (b : Byte) : (s.send b).miso = some b := rfl
@[simp] theorem State.send_ret (s : State) (b : Byte) : (s.send b).ret = s.ret := rfl
@[simp] theorem State.send_inputs (s : State) (b : Byte) : (s.send b).inputs = s.inputs := rfl
@[simp] theorem State.send_draws (s : State) (b : Byte) : (s.send b).draws = s.draws := rfl
@[simp] theorem State.send_resets (s : State) (b : Byte) : (s.send b).resets = s.resets := rfl
@[simp] theorem State.send_byteAt (s : State) (b : Byte) (j : BufIdx) (w : Offset) : (s.send b).byteAt j w = s.byteAt j w := rfl
@[simp] theorem State.send_ownerOf (s : State) (b : Byte) (j : BufIdx) : (s.send b).ownerOf j = s.ownerOf j := rfl

/-! ### disableDma -/

@[simp] theorem State.disableDma_pool (s : State) : s.disableDma.pool = s.pool := rfl
@[simp] theorem State.disableDma_links (s : State) : s.disableDma.links = s.links := rfl
@[simp] theorem State.disableDma_owner (s : State) : s.disableDma.owner = s.owner := rfl
@[simp] theorem State.disableDma_curRx (s : State) : s.disableDma.curRx = s.curRx := rfl
@[simp] theorem State.disableDma_curTx (s : State) : s.disableDma.curTx = s.curTx := rfl
@[simp] theorem State.disableDma_busy (s : State) : s.disableDma.busy = s.busy := rfl
@[simp] theorem State.disableDma_enabled (s : State) : s.disableDma.enabled = s.enabled := rfl
@[simp] theorem State.disableDma_xferId (s : State) : s.disableDma.xferId = s.xferId := rfl
@[simp] theorem State.disableDma_dmaRx (s : State) : s.disableDma.dmaRx = s.dmaRx.disable := rfl
@[simp] theorem State.disableDma_dmaTx (s : State) : s.disableDma.dmaTx = s.dmaTx.disable := rfl
@[simp] theorem State.disableDma_spi (s : State) : s.disableDma.spi = s.spi := rfl
@[simp] theorem State.disableDma_cmd (s : State) : s.disableDma.cmd = s.cmd := rfl
@[simp] theorem State.disableDma_linkFault (s : State) : s.disableDma.linkFault = s.linkFault := rfl
@[simp] theorem State.disableDma_resp (s : State) : s.disableDma.resp = s.resp := rfl
@[simp] theorem State.disableDma_miso (s : State) : s.disableDma.miso = s.miso := rfl
@[simp] theorem State.disableDma_ret (s : State) : s.disableDma.ret = s.ret := rfl
@[simp] theorem State.disableDma_inputs (s : State) : s.disableDma.inputs = s.inputs := rfl
@[simp] theorem State.disableDma_draws (s : State) : s.disableDma.draws = s.draws := rfl
@[simp] theorem State.disableDma_resets (s : State) : s.disableDma.resets = s.resets := rfl
@[simp] theorem State.disableDma_byteAt (s : State) (j : BufIdx) (w : Offset) : s.disableDma.byteAt j w = s.byteAt j w := rfl
@[simp] theorem State.disableDma_ownerOf (s : State) (j : BufIdx) : s.disableDma.ownerOf j = s.ownerOf j := rfl

/-! ### armDma -/

@[simp] theorem State.armDma_pool (s : State) : s.armDma.pool = s.pool := rfl
@[simp] theorem State.armDma_links (s : State) : s.armDma.links = s.links := rfl
@[simp] theorem State.armDma_owner (s : State) : s.armDma.owner = s.owner := rfl
@[simp] theorem State.armDma_curRx (s : State) : s.armDma.curRx = s.curRx := rfl
@[simp] theorem State.armDma_curTx (s : State) : s.armDma.curTx = s.curTx := rfl
@[simp] theorem State.armDma_busy (s : State) : s.armDma.busy = s.busy := rfl
@[simp] theorem State.armDma_enabled (s : State) : s.armDma.enabled = s.enabled := rfl
@[simp] theorem State.armDma_xferId (s : State) : s.armDma.xferId = s.xferId := rfl
@[simp] theorem State.armDma_dmaRx (s : State) : s.armDma.dmaRx = s.dmaRx.arm (targetOf s.curRx) := rfl
@[simp] theorem State.armDma_dmaTx (s : State) : s.armDma.dmaTx = s.dmaTx.arm (targetOf s.curTx) := rfl
@[simp] theorem State.armDma_spi (s : State) : s.armDma.spi = s.spi := rfl
@[simp] theorem State.armDma_cmd (s : State) : s.armDma.cmd = s.cmd := rfl
@[simp] theorem State.armDma_linkFault (s : State) : s.armDma.linkFault = s.linkFault := rfl
@[simp] theorem State.armDma_resp (s : State) : s.armDma.resp = s.resp := rfl
@[simp] theorem State.armDma_miso (s : State) : s.armDma.miso = s.miso := rfl
@[simp] theorem State.armDma_ret (s : State) : s.armDma.ret = s.ret := rfl
@[simp] theorem State.armDma_inputs (s : State) : s.armDma.inputs = s.inputs := rfl
@[simp] theorem State.armDma_draws (s : State) : s.armDma.draws = s.draws := rfl
@[simp] theorem State.armDma_resets (s : State) : s.armDma.resets = s.resets := rfl
@[simp] theorem State.armDma_byteAt (s : State) (j : BufIdx) (w : Offset) : s.armDma.byteAt j w = s.byteAt j w := rfl
@[simp] theorem State.armDma_ownerOf (s : State) (j : BufIdx) : s.armDma.ownerOf j = s.ownerOf j := rfl

/-! ### preloadTransferId -/

@[simp] theorem State.preloadTransferId_pool (s : State) : s.preloadTransferId.pool = s.pool := rfl
@[simp] theorem State.preloadTransferId_links (s : State) : s.preloadTransferId.links = s.links := rfl
@[simp] theorem State.preloadTransferId_owner (s : State) : s.preloadTransferId.owner = s.owner := rfl
@[simp] theorem State.preloadTransferId_curRx (s : State) : s.preloadTransferId.curRx = s.curRx := rfl
@[simp] theorem State.preloadTransferId_curTx (s : State) : s.preloadTransferId.curTx = s.curTx := rfl
@[simp] theorem State.preloadTransferId_busy (s : State) : s.preloadTransferId.busy = s.busy := rfl
@[simp] theorem State.preloadTransferId_enabled (s : State) : s.preloadTransferId.enabled = s.enabled := rfl
@[simp] theorem State.preloadTransferId_xferId (s : State) : s.preloadTransferId.xferId = s.xferId + 1#8 := rfl
@[simp] theorem State.preloadTransferId_dmaRx (s : State) : s.preloadTransferId.dmaRx = s.dmaRx := rfl
@[simp] theorem State.preloadTransferId_dmaTx (s : State) : s.preloadTransferId.dmaTx = s.dmaTx := rfl
@[simp] theorem State.preloadTransferId_spi (s : State) : s.preloadTransferId.spi = { s.spi with lead := s.xferId } := rfl
@[simp] theorem State.preloadTransferId_cmd (s : State) : s.preloadTransferId.cmd = s.cmd := rfl
@[simp] theorem State.preloadTransferId_linkFault (s : State) : s.preloadTransferId.linkFault = s.linkFault := rfl
@[simp] theorem State.preloadTransferId_resp (s : State) : s.preloadTransferId.resp = s.resp := rfl
@[simp] theorem State.preloadTransferId_miso (s : State) : s.preloadTransferId.miso = s.miso := rfl
@[simp] theorem State.preloadTransferId_ret (s : State) : s.preloadTransferId.ret = s.ret := rfl
@[simp] theorem State.preloadTransferId_inputs (s : State) : s.preloadTransferId.inputs = s.inputs := rfl
@[simp] theorem State.preloadTransferId_draws (s : State) : s.preloadTransferId.draws = s.draws := rfl
@[simp] theorem State.preloadTransferId_resets (s : State) : s.preloadTransferId.resets = s.resets := rfl
@[simp] theorem State.preloadTransferId_byteAt (s : State) (j : BufIdx) (w : Offset) : s.preloadTransferId.byteAt j w = s.byteAt j w := rfl
@[simp] theorem State.preloadTransferId_ownerOf (s : State) (j : BufIdx) : s.preloadTransferId.ownerOf j = s.ownerOf j := rfl

/-! ### crcReset -/

@[simp] theorem State.crcReset_pool (s : State) (c : LinkCrc) : (s.crcReset c).pool = s.pool := rfl
@[simp] theorem State.crcReset_links (s : State) (c : LinkCrc) : (s.crcReset c).links = s.links := rfl
@[simp] theorem State.crcReset_owner (s : State) (c : LinkCrc) : (s.crcReset c).owner = s.owner := rfl
@[simp] theorem State.crcReset_curRx (s : State) (c : LinkCrc) : (s.crcReset c).curRx = s.curRx := rfl
@[simp] theorem State.crcReset_curTx (s : State) (c : LinkCrc) : (s.crcReset c).curTx = s.curTx := rfl
@[simp] theorem State.crcReset_busy (s : State) (c : LinkCrc) : (s.crcReset c).busy = s.busy := rfl
@[simp] theorem State.crcReset_enabled (s : State) (c : LinkCrc) : (s.crcReset c).enabled = s.enabled := rfl
@[simp] theorem State.crcReset_xferId (s : State) (c : LinkCrc) : (s.crcReset c).xferId = s.xferId := rfl
@[simp] theorem State.crcReset_dmaRx (s : State) (c : LinkCrc) : (s.crcReset c).dmaRx = s.dmaRx := rfl
@[simp] theorem State.crcReset_dmaTx (s : State) (c : LinkCrc) : (s.crcReset c).dmaTx = s.dmaTx := rfl
@[simp] theorem State.crcReset_spi (s : State) (c : LinkCrc) : (s.crcReset c).spi = { s.spi with rxcrc := c.init, txcrc := c.init, crcerr := false } := rfl
@[simp] theorem State.crcReset_cmd (s : State) (c : LinkCrc) : (s.crcReset c).cmd = s.cmd := rfl
@[simp] theorem State.crcReset_linkFault (s : State) (c : LinkCrc) : (s.crcReset c).linkFault = s.linkFault := rfl
@[simp] theorem State.crcReset_resp (s : State) (c : LinkCrc) : (s.crcReset c).resp = s.resp := rfl
@[simp] theorem State.crcReset_miso (s : State) (c : LinkCrc) : (s.crcReset c).miso = s.miso := rfl
@[simp] theorem State.crcReset_ret (s : State) (c : LinkCrc) : (s.crcReset c).ret = s.ret := rfl
@[simp] theorem State.crcReset_inputs (s : State) (c : LinkCrc) : (s.crcReset c).inputs = s.inputs := rfl
@[simp] theorem State.crcReset_draws (s : State) (c : LinkCrc) : (s.crcReset c).draws = s.draws := rfl
@[simp] theorem State.crcReset_resets (s : State) (c : LinkCrc) : (s.crcReset c).resets = s.resets := rfl
@[simp] theorem State.crcReset_byteAt (s : State) (c : LinkCrc) (j : BufIdx) (w : Offset) : (s.crcReset c).byteAt j w = s.byteAt j w := rfl
@[simp] theorem State.crcReset_ownerOf (s : State) (c : LinkCrc) (j : BufIdx) : (s.crcReset c).ownerOf j = s.ownerOf j := rfl

/-! ### spiRearm -/

@[simp] theorem State.spiRearm_pool (s : State) (c : LinkCrc) : (s.spiRearm c).pool = s.pool := rfl
@[simp] theorem State.spiRearm_links (s : State) (c : LinkCrc) : (s.spiRearm c).links = s.links := rfl
@[simp] theorem State.spiRearm_owner (s : State) (c : LinkCrc) : (s.spiRearm c).owner = s.owner := rfl
@[simp] theorem State.spiRearm_curRx (s : State) (c : LinkCrc) : (s.spiRearm c).curRx = s.curRx := rfl
@[simp] theorem State.spiRearm_curTx (s : State) (c : LinkCrc) : (s.spiRearm c).curTx = s.curTx := rfl
@[simp] theorem State.spiRearm_busy (s : State) (c : LinkCrc) : (s.spiRearm c).busy = s.busy := rfl
@[simp] theorem State.spiRearm_enabled (s : State) (c : LinkCrc) : (s.spiRearm c).enabled = s.enabled := rfl
@[simp] theorem State.spiRearm_xferId (s : State) (c : LinkCrc) : (s.spiRearm c).xferId = s.xferId := rfl
@[simp] theorem State.spiRearm_dmaRx (s : State) (c : LinkCrc) : (s.spiRearm c).dmaRx = s.dmaRx := rfl
@[simp] theorem State.spiRearm_dmaTx (s : State) (c : LinkCrc) : (s.spiRearm c).dmaTx = s.dmaTx := rfl
@[simp] theorem State.spiRearm_spi (s : State) (c : LinkCrc) : (s.spiRearm c).spi = { s.spi with k := 0, rxcrc := c.init, txcrc := c.init, crcerr := false } := rfl
@[simp] theorem State.spiRearm_cmd (s : State) (c : LinkCrc) : (s.spiRearm c).cmd = s.cmd := rfl
@[simp] theorem State.spiRearm_linkFault (s : State) (c : LinkCrc) : (s.spiRearm c).linkFault = s.linkFault := rfl
@[simp] theorem State.spiRearm_resp (s : State) (c : LinkCrc) : (s.spiRearm c).resp = s.resp := rfl
@[simp] theorem State.spiRearm_miso (s : State) (c : LinkCrc) : (s.spiRearm c).miso = s.miso := rfl
@[simp] theorem State.spiRearm_ret (s : State) (c : LinkCrc) : (s.spiRearm c).ret = s.ret := rfl
@[simp] theorem State.spiRearm_inputs (s : State) (c : LinkCrc) : (s.spiRearm c).inputs = s.inputs := rfl
@[simp] theorem State.spiRearm_draws (s : State) (c : LinkCrc) : (s.spiRearm c).draws = s.draws := rfl
@[simp] theorem State.spiRearm_resets (s : State) (c : LinkCrc) : (s.spiRearm c).resets = s.resets := rfl
@[simp] theorem State.spiRearm_byteAt (s : State) (c : LinkCrc) (j : BufIdx) (w : Offset) : (s.spiRearm c).byteAt j w = s.byteAt j w := rfl
@[simp] theorem State.spiRearm_ownerOf (s : State) (c : LinkCrc) (j : BufIdx) : (s.spiRearm c).ownerOf j = s.ownerOf j := rfl

/-! ### crcRxStep -/

@[simp] theorem State.crcRxStep_pool (s : State) (c : LinkCrc) (m : Byte) : (s.crcRxStep c m).pool = s.pool := rfl
@[simp] theorem State.crcRxStep_links (s : State) (c : LinkCrc) (m : Byte) : (s.crcRxStep c m).links = s.links := rfl
@[simp] theorem State.crcRxStep_owner (s : State) (c : LinkCrc) (m : Byte) : (s.crcRxStep c m).owner = s.owner := rfl
@[simp] theorem State.crcRxStep_curRx (s : State) (c : LinkCrc) (m : Byte) : (s.crcRxStep c m).curRx = s.curRx := rfl
@[simp] theorem State.crcRxStep_curTx (s : State) (c : LinkCrc) (m : Byte) : (s.crcRxStep c m).curTx = s.curTx := rfl
@[simp] theorem State.crcRxStep_busy (s : State) (c : LinkCrc) (m : Byte) : (s.crcRxStep c m).busy = s.busy := rfl
@[simp] theorem State.crcRxStep_enabled (s : State) (c : LinkCrc) (m : Byte) : (s.crcRxStep c m).enabled = s.enabled := rfl
@[simp] theorem State.crcRxStep_xferId (s : State) (c : LinkCrc) (m : Byte) : (s.crcRxStep c m).xferId = s.xferId := rfl
@[simp] theorem State.crcRxStep_dmaRx (s : State) (c : LinkCrc) (m : Byte) : (s.crcRxStep c m).dmaRx = s.dmaRx := rfl
@[simp] theorem State.crcRxStep_dmaTx (s : State) (c : LinkCrc) (m : Byte) : (s.crcRxStep c m).dmaTx = s.dmaTx := rfl
@[simp] theorem State.crcRxStep_spi (s : State) (c : LinkCrc) (m : Byte) : (s.crcRxStep c m).spi = { s.spi with rxcrc := c.step s.spi.rxcrc m } := rfl
@[simp] theorem State.crcRxStep_cmd (s : State) (c : LinkCrc) (m : Byte) : (s.crcRxStep c m).cmd = s.cmd := rfl
@[simp] theorem State.crcRxStep_linkFault (s : State) (c : LinkCrc) (m : Byte) : (s.crcRxStep c m).linkFault = s.linkFault := rfl
@[simp] theorem State.crcRxStep_resp (s : State) (c : LinkCrc) (m : Byte) : (s.crcRxStep c m).resp = s.resp := rfl
@[simp] theorem State.crcRxStep_miso (s : State) (c : LinkCrc) (m : Byte) : (s.crcRxStep c m).miso = s.miso := rfl
@[simp] theorem State.crcRxStep_ret (s : State) (c : LinkCrc) (m : Byte) : (s.crcRxStep c m).ret = s.ret := rfl
@[simp] theorem State.crcRxStep_inputs (s : State) (c : LinkCrc) (m : Byte) : (s.crcRxStep c m).inputs = s.inputs := rfl
@[simp] theorem State.crcRxStep_draws (s : State) (c : LinkCrc) (m : Byte) : (s.crcRxStep c m).draws = s.draws := rfl
@[simp] theorem State.crcRxStep_resets (s : State) (c : LinkCrc) (m : Byte) : (s.crcRxStep c m).resets = s.resets := rfl
@[simp] theorem State.crcRxStep_byteAt (s : State) (c : LinkCrc) (m : Byte) (j : BufIdx) (w : Offset) : (s.crcRxStep c m).byteAt j w = s.byteAt j w := rfl
@[simp] theorem State.crcRxStep_ownerOf (s : State) (c : LinkCrc) (m : Byte) (j : BufIdx) : (s.crcRxStep c m).ownerOf j = s.ownerOf j := rfl

/-! ### crcRxCheck -/

@[simp] theorem State.crcRxCheck_pool (s : State) (m : Byte) : (s.crcRxCheck m).pool = s.pool := rfl
@[simp] theorem State.crcRxCheck_links (s : State) (m : Byte) : (s.crcRxCheck m).links = s.links := rfl
@[simp] theorem State.crcRxCheck_owner (s : State) (m : Byte) : (s.crcRxCheck m).owner = s.owner := rfl
@[simp] theorem State.crcRxCheck_curRx (s : State) (m : Byte) : (s.crcRxCheck m).curRx = s.curRx := rfl
@[simp] theorem State.crcRxCheck_curTx (s : State) (m : Byte) : (s.crcRxCheck m).curTx = s.curTx := rfl
@[simp] theorem State.crcRxCheck_busy (s : State) (m : Byte) : (s.crcRxCheck m).busy = s.busy := rfl
@[simp] theorem State.crcRxCheck_enabled (s : State) (m : Byte) : (s.crcRxCheck m).enabled = s.enabled := rfl
@[simp] theorem State.crcRxCheck_xferId (s : State) (m : Byte) : (s.crcRxCheck m).xferId = s.xferId := rfl
@[simp] theorem State.crcRxCheck_dmaRx (s : State) (m : Byte) : (s.crcRxCheck m).dmaRx = s.dmaRx := rfl
@[simp] theorem State.crcRxCheck_dmaTx (s : State) (m : Byte) : (s.crcRxCheck m).dmaTx = s.dmaTx := rfl
@[simp] theorem State.crcRxCheck_spi (s : State) (m : Byte) : (s.crcRxCheck m).spi = { s.spi with crcerr := crcErrAfter s.spi.crcerr m s.spi.rxcrc } := rfl
@[simp] theorem State.crcRxCheck_cmd (s : State) (m : Byte) : (s.crcRxCheck m).cmd = s.cmd := rfl
@[simp] theorem State.crcRxCheck_linkFault (s : State) (m : Byte) : (s.crcRxCheck m).linkFault = s.linkFault := rfl
@[simp] theorem State.crcRxCheck_resp (s : State) (m : Byte) : (s.crcRxCheck m).resp = s.resp := rfl
@[simp] theorem State.crcRxCheck_miso (s : State) (m : Byte) : (s.crcRxCheck m).miso = s.miso := rfl
@[simp] theorem State.crcRxCheck_ret (s : State) (m : Byte) : (s.crcRxCheck m).ret = s.ret := rfl
@[simp] theorem State.crcRxCheck_inputs (s : State) (m : Byte) : (s.crcRxCheck m).inputs = s.inputs := rfl
@[simp] theorem State.crcRxCheck_draws (s : State) (m : Byte) : (s.crcRxCheck m).draws = s.draws := rfl
@[simp] theorem State.crcRxCheck_resets (s : State) (m : Byte) : (s.crcRxCheck m).resets = s.resets := rfl
@[simp] theorem State.crcRxCheck_byteAt (s : State) (m : Byte) (j : BufIdx) (w : Offset) : (s.crcRxCheck m).byteAt j w = s.byteAt j w := rfl
@[simp] theorem State.crcRxCheck_ownerOf (s : State) (m : Byte) (j : BufIdx) : (s.crcRxCheck m).ownerOf j = s.ownerOf j := rfl

/-! ### crcTxStep -/

@[simp] theorem State.crcTxStep_pool (s : State) (c : LinkCrc) (v : Byte) : (s.crcTxStep c v).pool = s.pool := rfl
@[simp] theorem State.crcTxStep_links (s : State) (c : LinkCrc) (v : Byte) : (s.crcTxStep c v).links = s.links := rfl
@[simp] theorem State.crcTxStep_owner (s : State) (c : LinkCrc) (v : Byte) : (s.crcTxStep c v).owner = s.owner := rfl
@[simp] theorem State.crcTxStep_curRx (s : State) (c : LinkCrc) (v : Byte) : (s.crcTxStep c v).curRx = s.curRx := rfl
@[simp] theorem State.crcTxStep_curTx (s : State) (c : LinkCrc) (v : Byte) : (s.crcTxStep c v).curTx = s.curTx := rfl
@[simp] theorem State.crcTxStep_busy (s : State) (c : LinkCrc) (v : Byte) : (s.crcTxStep c v).busy = s.busy := rfl
@[simp] theorem State.crcTxStep_enabled (s : State) (c : LinkCrc) (v : Byte) : (s.crcTxStep c v).enabled = s.enabled := rfl
@[simp] theorem State.crcTxStep_xferId (s : State) (c : LinkCrc) (v : Byte) : (s.crcTxStep c v).xferId = s.xferId := rfl
@[simp] theorem State.crcTxStep_dmaRx (s : State) (c : LinkCrc) (v : Byte) : (s.crcTxStep c v).dmaRx = s.dmaRx := rfl
@[simp] theorem State.crcTxStep_dmaTx (s : State) (c : LinkCrc) (v : Byte) : (s.crcTxStep c v).dmaTx = s.dmaTx := rfl
@[simp] theorem State.crcTxStep_spi (s : State) (c : LinkCrc) (v : Byte) : (s.crcTxStep c v).spi = { s.spi with txcrc := c.step s.spi.txcrc v } := rfl
@[simp] theorem State.crcTxStep_cmd (s : State) (c : LinkCrc) (v : Byte) : (s.crcTxStep c v).cmd = s.cmd := rfl
@[simp] theorem State.crcTxStep_linkFault (s : State) (c : LinkCrc) (v : Byte) : (s.crcTxStep c v).linkFault = s.linkFault := rfl
@[simp] theorem State.crcTxStep_resp (s : State) (c : LinkCrc) (v : Byte) : (s.crcTxStep c v).resp = s.resp := rfl
@[simp] theorem State.crcTxStep_miso (s : State) (c : LinkCrc) (v : Byte) : (s.crcTxStep c v).miso = s.miso := rfl
@[simp] theorem State.crcTxStep_ret (s : State) (c : LinkCrc) (v : Byte) : (s.crcTxStep c v).ret = s.ret := rfl
@[simp] theorem State.crcTxStep_inputs (s : State) (c : LinkCrc) (v : Byte) : (s.crcTxStep c v).inputs = s.inputs := rfl
@[simp] theorem State.crcTxStep_draws (s : State) (c : LinkCrc) (v : Byte) : (s.crcTxStep c v).draws = s.draws := rfl
@[simp] theorem State.crcTxStep_resets (s : State) (c : LinkCrc) (v : Byte) : (s.crcTxStep c v).resets = s.resets := rfl
@[simp] theorem State.crcTxStep_byteAt (s : State) (c : LinkCrc) (v : Byte) (j : BufIdx) (w : Offset) : (s.crcTxStep c v).byteAt j w = s.byteAt j w := rfl
@[simp] theorem State.crcTxStep_ownerOf (s : State) (c : LinkCrc) (v : Byte) (j : BufIdx) : (s.crcTxStep c v).ownerOf j = s.ownerOf j := rfl

end Sys2Proof.Machine
end

