-- ==== Sys2Proof/Laws/Memory.lean ====
section
/-! SUPPORT. Laws of the pool's list: a read after a write, that every operation keeps the canonical form, and the same of
the named byte operations of the state. -/

namespace Sys2Proof.Machine

/-! ### Lookup after each operation -/

theorem Memory.lookup_put (m : Memory) (a b : Nat) (v : Byte) :
    (Memory.put m a v).lookup b = if b = a then some v else m.lookup b := by
  induction m with
  | nil => simp [Memory.put, Memory.lookup, eq_comm]
  | cons c t ih =>
    unfold Memory.put
    split
    · simp [Memory.lookup, eq_comm]
    · split
      · rename_i h; subst h
        by_cases hb : b = c.1 <;> simp [Memory.lookup, hb, eq_comm]
      · by_cases hb : c.1 = b
        · subst hb; simp_all [Memory.lookup, eq_comm]
        · simp [Memory.lookup, hb, ih]

theorem Memory.lookup_filter (m : Memory) (p : Nat → Bool) (b : Nat) :
    Memory.lookup (m.filter fun c => p c.1) b = if p b then m.lookup b else none := by
  induction m with
  | nil => simp [Memory.lookup]
  | cons c t ih =>
    by_cases hp : p c.1 <;> by_cases hb : c.1 = b
    · subst hb; simp [Memory.lookup, hp]
    · simp [Memory.lookup, hp, hb, ih]
    · subst hb; simp [hp, ih]
    · simp [Memory.lookup, hp, hb, ih]

theorem Memory.lookup_drop (m : Memory) (a b : Nat) :
    (Memory.drop m a).lookup b = if b = a then none else m.lookup b := by
  have h := Memory.lookup_filter m (fun k => decide (k ≠ a)) b
  by_cases hb : b = a <;> simp_all [Memory.drop]

theorem Memory.lookup_clearHeaders (m : Memory) (b : Nat) :
    (Memory.clearHeaders m).lookup b = if b % 64 < 4 then none else m.lookup b := by
  have h := Memory.lookup_filter m (fun k => decide (Hw.hdrBytes ≤ k % 64)) b
  by_cases hb : b % 64 < 4
  · simp_all [Memory.clearHeaders]
  · simp_all [Memory.clearHeaders]

/-! ### Reads -/

@[simp] theorem Memory.read_write_self (r : Nat) (m : Memory) (a : Nat) (v : Byte) :
    Memory.read r (m.write a v) a = v := by
  unfold Memory.write
  split
  · rename_i h; simp [Memory.read, Memory.lookup_drop, h]
  · simp [Memory.read, Memory.lookup_put]

theorem Memory.read_write_ne (r : Nat) (m : Memory) {a b : Nat} (v : Byte) (h : b ≠ a) :
    Memory.read r (m.write a v) b = Memory.read r m b := by
  unfold Memory.write
  split <;> simp [Memory.read, Memory.lookup_drop, Memory.lookup_put, h]

theorem Memory.read_clearHeaders (r : Nat) (m : Memory) (b : Nat) :
    Memory.read r m.clearHeaders b = if b % 64 < 4 then 0x00#8 else Memory.read r m b := by
  by_cases h : b % 64 < 4 <;> simp [Memory.read, Memory.lookup_clearHeaders, unlistedByte, h]

/-! ### The canonical form -/

theorem Memory.above_iff (a : Nat) (m : Memory) : Memory.above a m = true ↔ ∀ c ∈ m, a < c.1 := by
  simp [Memory.above]

theorem Memory.wf_cons (c : Host.Cell) (t : Memory) :
    Memory.wf (c :: t) = true ↔
      (∀ d ∈ t, c.1 < d.1) ∧ keyExists c.1 = true ∧ unlistedByte c.1 ≠ some c.2 ∧ Memory.wf t = true := by
  simp [Memory.wf, Memory.above_iff, and_assoc]

theorem Memory.mem_put {m : Memory} {a : Nat} {v : Byte} {d : Host.Cell} (h : d ∈ Memory.put m a v) :
    d = (a, v) ∨ d ∈ m := by
  induction m with
  | nil => simpa [Memory.put] using h
  | cons c t ih =>
    unfold Memory.put at h
    split at h
    · simpa using h
    · split at h
      · rcases List.mem_cons.1 h with h | h
        · exact .inl h
        · exact .inr (List.mem_cons_of_mem _ h)
      · rcases List.mem_cons.1 h with h | h
        · exact .inr (h ▸ List.mem_cons_self)
        · exact (ih h).imp_right (List.mem_cons_of_mem _)

theorem Memory.wf_put {m : Memory} {a : Nat} {v : Byte} (hm : m.wf = true) (ha : keyExists a = true)
    (hv : unlistedByte a ≠ some v) : (Memory.put m a v).wf = true := by
  induction m with
  | nil => simp [Memory.put, Memory.wf_cons, ha, hv, show Memory.wf [] = true from rfl]
  | cons c t ih =>
    obtain ⟨hlt, hk, hu, ht⟩ := (Memory.wf_cons c t).1 hm
    unfold Memory.put
    split
    · rename_i h
      refine (Memory.wf_cons _ _).2 ⟨fun d hd => ?_, ha, hv, hm⟩
      rcases List.mem_cons.1 hd with rfl | hd
      · exact h
      · exact Nat.lt_trans h (hlt d hd)
    · split
      · rename_i h; subst h
        exact (Memory.wf_cons _ _).2 ⟨hlt, ha, hv, ht⟩
      · rename_i h1 h2
        refine (Memory.wf_cons _ _).2 ⟨fun d hd => ?_, hk, hu, ih ht⟩
        rcases Memory.mem_put hd with rfl | hd
        · exact Nat.lt_of_le_of_ne (Nat.le_of_not_lt h1) (fun h => h2 h.symm)
        · exact hlt d hd

theorem Memory.wf_filter {m : Memory} (p : Host.Cell → Bool) (hm : m.wf = true) :
    Memory.wf (m.filter p) = true := by
  induction m with
  | nil => rfl
  | cons c t ih =>
    obtain ⟨hlt, hk, hu, ht⟩ := (Memory.wf_cons c t).1 hm
    by_cases hp : p c = true
    · rw [List.filter_cons_of_pos hp]
      exact (Memory.wf_cons _ _).2 ⟨fun d hd => hlt d (List.mem_of_mem_filter hd), hk, hu, ih ht⟩
    · rw [List.filter_cons_of_neg hp]
      exact ih ht

theorem Memory.wf_drop {m : Memory} (a : Nat) (hm : m.wf = true) : (Memory.drop m a).wf = true :=
  Memory.wf_filter _ hm

theorem Memory.wf_clearHeaders {m : Memory} (hm : m.wf = true) : m.clearHeaders.wf = true :=
  Memory.wf_filter _ hm

theorem Memory.wf_write {m : Memory} {a : Nat} (v : Byte) (hm : m.wf = true) (ha : keyExists a = true) :
    (m.write a v).wf = true := by
  unfold Memory.write
  split
  · exact Memory.wf_drop a hm
  · exact Memory.wf_put hm ha ‹_›

/-! ### Addresses -/

theorem keyExists_poolKey (i : BufIdx) (off : Offset) : keyExists (poolKey i off) = true := by
  have h1 : (64 * i.val + off.val) / 64 < 32 := by omega
  have h2 : (64 * i.val + off.val) % 64 < 37 := by omega
  exact Bool.and_eq_true_iff.2 ⟨decide_eq_true h1, decide_eq_true h2⟩

theorem poolKey_inj {i j : BufIdx} {o w : Offset} : poolKey i o = poolKey j w ↔ i = j ∧ o = w := by
  simp only [poolKey, Fin.ext_iff]; omega

theorem poolKey_mod (i : BufIdx) (o : Offset) : poolKey i o % 64 = o.val := by
  simp only [poolKey]; omega

/-! ### The named byte operations of the state -/

@[simp] theorem State.memWrite_zero (s : State) (o : Offset) (v : Byte) : s.memWrite .zero o v = s := rfl

@[simp] theorem State.memRead_zero (s : State) (o : Offset) : s.memRead .zero o = 0x00#8 := rfl

@[simp] theorem State.memRead_buf (s : State) (i : BufIdx) (o : Offset) : s.memRead (.buf i) o = s.byteAt i o := rfl

@[simp] theorem State.length_memReadN (s : State) (t : Target) (off n : Nat) (h : off + n ≤ delta% Hw.pktBytes) :
    (s.memReadN t off n h).length = n := by simp [State.memReadN]

/-- Byte `j` of `MemRead(i, off, n)` is the byte at `off + j` (R10). -/
@[simp] theorem State.getElem_memReadN (s : State) (t : Target) (off n : Nat) (h : off + n ≤ delta% Hw.pktBytes) (j : Nat)
    (hj : j < (s.memReadN t off n h).length) :
    (s.memReadN t off n h)[j] = s.memRead t ⟨off + j, by simp at hj; omega⟩ := by
  simp [State.memReadN]

theorem State.byteAt_memWrite (s : State) (i j : BufIdx) (o w : Offset) (v : Byte) :
    (s.memWrite (.buf i) o v).byteAt j w = if j = i ∧ w = o then v else s.byteAt j w := by
  by_cases h : j = i ∧ w = o
  · obtain ⟨rfl, rfl⟩ := h
    simp [State.byteAt, State.memWrite]
  · have : poolKey j w ≠ poolKey i o := fun e => h (poolKey_inj.1 e)
    simp [State.byteAt, State.memWrite, Memory.read_write_ne _ _ _ this, h]

/-- A write through a target changes no byte but the one it names. -/
theorem State.byteAt_memWrite_target (s : State) (t : Target) (j : BufIdx) (o w : Offset) (v : Byte)
    (h : t ≠ .buf j ∨ w ≠ o) : (s.memWrite t o v).byteAt j w = s.byteAt j w := by
  cases t with
  | zero => rfl
  | buf i =>
    rw [State.byteAt_memWrite, if_neg]
    rintro ⟨rfl, rfl⟩
    simp at h

theorem State.byteAt_zeroHeader (s : State) (i j : BufIdx) (w : Offset) :
    (s.zeroHeader i).byteAt j w = if j = i ∧ w.val < 4 then 0x00#8 else s.byteAt j w := by
  simp only [State.zeroHeader, State.byteAt_memWrite]
  by_cases hj : j = i
  · subst hj
    have h4 : w.val < 4 ↔ w = 0 ∨ w = 1 ∨ w = 2 ∨ w = 3 := by simp only [Fin.ext_iff]; simp; omega
    by_cases h0 : w = 0 <;> by_cases h1 : w = 1 <;> by_cases h2 : w = 2 <;> by_cases h3 : w = 3 <;> simp_all
  · simp [hj]

theorem State.wf_memWrite {s : State} (t : Target) (o : Offset) (v : Byte) (h : s.pool.wf = true) :
    (s.memWrite t o v).pool.wf = true := by
  cases t with
  | zero => exact h
  | buf i => exact Memory.wf_write v h (keyExists_poolKey i o)

theorem State.wf_zeroHeader {s : State} (i : BufIdx) (h : s.pool.wf = true) : (s.zeroHeader i).pool.wf = true :=
  State.wf_memWrite _ _ _ (State.wf_memWrite _ _ _ (State.wf_memWrite _ _ _ (State.wf_memWrite _ _ _ h)))

end Sys2Proof.Machine
end

