-- ==== Sys2Proof/Laws/Queue.lean ====
section
/-! SUPPORT. What each queue operation does to a queue's form (40_queue.md): enqueue and dequeue on a quiescent queue, with
an enqueue in flight, and while RECEIVE holds the lone node; and what they leave alone. -/

namespace Sys2Proof.Machine

/-! ### Tails and chains -/

@[simp] theorem tailRef_nil : tailRef [] = .sent := rfl

@[simp] theorem tailRef_concat (c : List BufIdx) (x : BufIdx) : tailRef (c ++ [x]) = .node x := by
  simp [tailRef]

@[simp] theorem tailRef_append_cons (c : List BufIdx) (x : BufIdx) (b : List BufIdx) :
    tailRef (c ++ x :: b) = tailRef (x :: b) := by
  obtain ⟨z, hz⟩ : ∃ z, (x :: b).getLast? = some z := ⟨_, List.getLast?_eq_getLast_of_ne_nil (List.cons_ne_nil x b)⟩
  simp [tailRef, List.getLast?_append, hz]

@[simp] theorem tailRef_cons_cons (a b : BufIdx) (t : List BufIdx) : tailRef (a :: b :: t) = tailRef (b :: t) := by
  simp [tailRef]

@[simp] theorem tailRef_singleton (a : BufIdx) : tailRef [a] = .node a := rfl

theorem tailRef_eq_sent {c : List BufIdx} : tailRef c = .sent ↔ c = [] := by
  rcases List.eq_nil_or_concat' c with rfl | ⟨d, x, rfl⟩ <;> simp

/-- The tail of a content is one of its nodes. -/
theorem mem_of_tailRef {c : List BufIdx} {x : BufIdx} (h : tailRef c = .node x) : x ∈ c := by
  rcases List.eq_nil_or_concat' c with rfl | ⟨d, y, rfl⟩
  · simp at h
  · simp_all

theorem chainOk_cons (l : Links) (a : BufIdx) (t : List BufIdx) :
    chainOk l (a :: t) = true ↔ l.nextOf a = t.head? ∧ chainOk l t = true := by
  simp [chainOk]

theorem chainOk_congr {l l' : Links} {c : List BufIdx} (h : ∀ i ∈ c, l'.nextOf i = l.nextOf i) :
    chainOk l' c = chainOk l c := by
  induction c with
  | nil => rfl
  | cons a t ih =>
    simp only [chainOk, h a List.mem_cons_self, ih fun i hi => h i (List.mem_cons_of_mem _ hi)]

/-- The tail of a chain has no successor. -/
theorem nextOf_tail {l : Links} {c : List BufIdx} {x : BufIdx} (hc : chainOk l c = true) (h : tailRef c = .node x) :
    l.nextOf x = none := by
  induction c with
  | nil => simp at h
  | cons a t ih =>
    obtain ⟨ha, ht⟩ := (chainOk_cons l a t).1 hc
    cases t with
    | nil => simp_all
    | cons b t => exact ih ht (by simpa using h)

/-- A chain joined to a second one by writing the link of its tail. -/
theorem chainOk_join {l : Links} {a b : List BufIdx} {p : BufIdx} (ha : chainOk l a = true) (hb : chainOk l b = true)
    (hp : tailRef a = .node p) (hn : (a ++ b).Nodup) : chainOk (l.setNext p b.head?) (a ++ b) = true := by
  induction a with
  | nil => simp at hp
  | cons x t ih =>
    obtain ⟨hx, ht⟩ := (chainOk_cons l x t).1 ha
    rw [List.cons_append, chainOk_cons]
    cases t with
    | nil =>
      obtain rfl : x = p := by simpa using hp
      refine ⟨by simp, ?_⟩
      rw [List.nil_append, chainOk_congr fun i hi => l.nextOf_setNext_ne _ ?_]
      · exact hb
      · rintro rfl; simp_all
    | cons y t =>
      have hp' : tailRef (y :: t) = .node p := by simpa using hp
      refine ⟨?_, ih ht hp' (List.nodup_cons.1 hn).2⟩
      rw [l.nextOf_setNext_ne, hx]
      · rfl
      · rintro rfl
        exact (List.nodup_cons.1 hn).1 (List.mem_append_left _ (mem_of_tailRef hp'))

/-! ### The fields each operation writes -/

@[simp] theorem Links.swapLast_head (l : Links) (q : QueueName) (v : NodeRef) :
    ((l.swapLast q v).2.queue q).head = (l.queue q).head := by simp [Links.swapLast]

@[simp] theorem Links.swapLast_last (l : Links) (q : QueueName) (v : NodeRef) :
    ((l.swapLast q v).2.queue q).last = v := by simp [Links.swapLast]

@[simp] theorem Links.swapLast_nextOf (l : Links) (q : QueueName) (v : NodeRef) (j : BufIdx) :
    (l.swapLast q v).2.nextOf j = l.nextOf j := by simp [Links.swapLast]

theorem Links.swapLast_other (l : Links) {q q' : QueueName} (v : NodeRef) (h : q' ≠ q) :
    (l.swapLast q v).2.queue q' = l.queue q' := by simp [Links.swapLast, Links.queue_setQueue_ne _ _ h]

@[simp] theorem Links.setNxt_last (l : Links) (q : QueueName) (r : NodeRef) (v : Option BufIdx) :
    ((l.setNxt q r v).queue q).last = (l.queue q).last := by cases r <;> simp [Links.setNxt]

theorem Links.setNxt_other (l : Links) {q q' : QueueName} (r : NodeRef) (v : Option BufIdx) (h : q' ≠ q) :
    (l.setNxt q r v).queue q' = l.queue q' := by
  cases r <;> simp [Links.setNxt, Links.queue_setQueue_ne _ _ h]

theorem Links.setNxt_nextOf (l : Links) (q : QueueName) (r : NodeRef) (v : Option BufIdx) {j : BufIdx}
    (h : r ≠ .node j) : (l.setNxt q r v).nextOf j = l.nextOf j := by
  cases r with
  | sent => simp [Links.setNxt]
  | node i => exact l.nextOf_setNext_ne v (by rintro rfl; exact h rfl)

/-- An enqueue writes its own queue's two words and the link of the previous tail, nothing else. -/
theorem Links.enqueue_other (l : Links) {q q' : QueueName} (x : BufIdx) (h : q' ≠ q) :
    (l.enqueue q x).queue q' = l.queue q' := by
  simp [Links.enqueue, Links.enqLink, Links.enqSwap, Links.setNxt_other _ _ _ h, Links.swapLast_other _ _ h]

theorem Links.enqueue_nextOf (l : Links) (q : QueueName) (x : BufIdx) {j : BufIdx}
    (h : (l.queue q).last ≠ .node j) : (l.enqueue q x).nextOf j = l.nextOf j := by
  rw [Links.enqueue, Links.enqLink, Links.setNxt_nextOf _ _ _ _ (by exact h)]
  simp [Links.enqSwap]

/-! ### Enqueue -/

/-- After ENQ.SWAP the enqueue is in flight (R122, R28). -/
theorem Quiescent.enqSwap {l : Links} {q : QueueName} {c : List BufIdx} {x : BufIdx} (hq : Quiescent l q c)
    (hx : x ∉ c) (hn : l.nextOf x = none) :
    EnqueueInFlight (l.enqSwap q x).2 q (l.enqSwap q x).1 x c [] where
  nodup := by
    refine List.nodup_append.2 ⟨hq.nodup, by simp, ?_⟩
    rintro i hi j hj rfl
    exact hx (by simp_all)
  chainA := by rw [chainOk_congr (l := l)]; exact hq.chain; simp [Links.enqSwap]
  chainB := by simp [Links.enqSwap, hn, chainOk]
  head := by simp [Links.enqSwap, hq.head]
  last := by simp [Links.enqSwap]
  prev := hq.last

/-- ENQ.LINK completes an enqueue in flight (R123). -/
theorem EnqueueInFlight.enqLink {l : Links} {q : QueueName} {p : NodeRef} {x : BufIdx} {a b : List BufIdx}
    (hf : EnqueueInFlight l q p x a b) : Quiescent (l.enqLink q p x) q (a ++ x :: b) := by
  rcases List.eq_nil_or_concat' a with rfl | ⟨d, y, rfl⟩
  · have hp : p = .sent := hf.prev
    subst hp
    refine ⟨hf.nodup, ?_, by simp [Links.enqLink, Links.setNxt], by simpa [Links.enqLink] using hf.last⟩
    rw [chainOk_congr (l := l)]
    · exact hf.chainB
    · simp [Links.enqLink, Links.setNxt]
  · have hp : p = .node y := by simpa using hf.prev
    subst hp
    refine ⟨hf.nodup, ?_, ?_, ?_⟩
    · exact chainOk_join (b := x :: b) hf.chainA hf.chainB (by simp) hf.nodup
    · simp only [Links.enqLink, Links.setNxt, Links.queue_setNext, hf.head]
      cases d <;> simp
    · rw [Links.enqLink, Links.setNxt_last, hf.last, tailRef_append_cons]

/-- A whole enqueue appends to a quiescent queue (R124). -/
theorem Quiescent.enqueue {l : Links} {q : QueueName} {c : List BufIdx} {x : BufIdx} (hq : Quiescent l q c)
    (hx : x ∉ c) (hn : l.nextOf x = none) : Quiescent (l.enqueue q x) q (c ++ [x]) :=
  (hq.enqSwap hx hn).enqLink

/-- A whole enqueue behind one in flight (R122, corner cases): its own previous tail is a node, and the first enqueue
stays in flight. -/
theorem EnqueueInFlight.enqueue {l : Links} {q : QueueName} {p : NodeRef} {x y : BufIdx} {a b : List BufIdx}
    (hf : EnqueueInFlight l q p x a b) (hy : y ∉ a ++ x :: b) (hn : l.nextOf y = none) :
    EnqueueInFlight (l.enqueue q y) q p x a (b ++ [y]) := by
  obtain ⟨z, hz⟩ : ∃ z, tailRef (x :: b) = .node z := by
    rcases List.eq_nil_or_concat' (x :: b) with h | ⟨d, z, h⟩
    · simp at h
    · exact ⟨z, by rw [h]; simp⟩
  have hlast : (l.queue q).last = .node z := hf.last.trans hz
  have hzb : z ∈ x :: b := mem_of_tailRef hz
  have hza : z ∉ a := fun h => (List.nodup_append.1 hf.nodup).2.2 z h z hzb rfl
  have hyb : y ∉ x :: b := fun h => hy (List.mem_append_right _ h)
  have hy1 : chainOk ((l.enqSwap q y).2) [y] = true := by simp [Links.enqSwap, hn, chainOk]
  have hb1 : chainOk ((l.enqSwap q y).2) (x :: b) = true := by
    rw [chainOk_congr (l := l)]; exact hf.chainB; simp [Links.enqSwap]
  have hnd : ((x :: b) ++ [y]).Nodup := by
    have := (List.nodup_append.1 hf.nodup).2.1
    refine List.nodup_append.2 ⟨this, by simp, ?_⟩
    rintro i hi j hj rfl
    exact hyb (by simp_all)
  have hen : l.enqueue q y = (l.enqSwap q y).2.setNext z (some y) := by
    simp [Links.enqueue, Links.enqLink, Links.enqSwap, Links.swapLast, hlast, Links.setNxt]
  have happ : a ++ x :: (b ++ [y]) = (a ++ x :: b) ++ [y] := by simp
  refine ⟨?_, ?_, ?_, ?_, ?_, hf.prev⟩
  · rw [happ]
    refine List.nodup_append.2 ⟨hf.nodup, by simp, ?_⟩
    rintro i hi j hj rfl
    exact hy (by simp_all)
  · rw [chainOk_congr (l := l)]; exact hf.chainA
    intro i hi
    exact l.enqueue_nextOf q y (by rw [hlast]; rintro h; cases h; exact hza hi)
  · rw [hen]
    exact chainOk_join (b := [y]) hb1 hy1 hz hnd
  · rw [hen]; simp [Links.enqSwap, hf.head]
  · rw [hen, ← List.cons_append, tailRef_concat]; simp [Links.enqSwap]

/-- A whole enqueue while RECEIVE holds the lone node (R144, corner cases). -/
theorem LoneTaken.enqueue {l : Links} {q : QueueName} {h x : BufIdx} {c : List BufIdx} (hl : LoneTaken l q h c)
    (hx : x ∉ h :: c) (hn : l.nextOf x = none) : LoneTaken (l.enqueue q x) q h (c ++ [x]) := by
  have hxc : x ∉ c := fun k => hx (List.mem_cons_of_mem _ k)
  have hhc : h ∉ c := (List.nodup_cons.1 hl.nodup).1
  have hxh : h ≠ x := fun e => hx (e ▸ List.mem_cons_self)
  have hnd : (c ++ [x]).Nodup := by
    refine List.nodup_append.2 ⟨(List.nodup_cons.1 hl.nodup).2, by simp, ?_⟩
    rintro i hi j hj rfl
    exact hxc (by simp_all)
  have hnh : (l.queue q).last ≠ .node h := by
    rw [hl.last]; exact fun e => hhc (mem_of_tailRef e)
  have h1 : h ∉ c ++ [x] := by simp [hhc, hxh]
  have hch : chainOk (l.enqSwap q x).2 c = true := by
    rw [chainOk_congr (l := l)]; exact hl.chain; simp [Links.enqSwap]
  have hx1 : chainOk (l.enqSwap q x).2 [x] = true := by simp [Links.enqSwap, hn, chainOk]
  refine ⟨List.nodup_cons.2 ⟨h1, hnd⟩, ?_, ?_, ?_, (l.enqueue_nextOf q x hnh).trans hl.cleared⟩
  all_goals rcases List.eq_nil_or_concat' c with rfl | ⟨d, y, rfl⟩
  · have hs : (l.queue q).last = .sent := hl.last
    rw [List.nil_append, chainOk_congr (l := (l.enqSwap q x).2)]
    · exact hx1
    · simp [Links.enqueue, Links.enqLink, Links.enqSwap, Links.swapLast, hs, Links.setNxt]
  · have hs : (l.queue q).last = .node y := by rw [hl.last]; simp
    have := chainOk_join (b := [x]) (p := y) hch hx1 (by simp) hnd
    simpa [Links.enqueue, Links.enqLink, Links.enqSwap, Links.swapLast, hs, Links.setNxt] using this
  · have hs : (l.queue q).last = .sent := hl.last
    simp [Links.enqueue, Links.enqLink, Links.enqSwap, Links.swapLast, hs, Links.setNxt]
  · have hs : (l.queue q).last = .node y := by rw [hl.last]; simp
    simp only [Links.enqueue, Links.enqLink, Links.enqSwap, Links.swapLast, hs, Links.setNxt, Links.queue_setNext,
      Links.queue_setQueue_self, hl.head]
    cases d <;> simp
  · simp [Links.enqueue, Links.enqLink, Links.enqSwap]
  · rw [tailRef_concat]; simp [Links.enqueue, Links.enqLink, Links.enqSwap]

/-! ### Dequeue -/

/-- `cas` on a head word succeeds exactly when the word holds the old value (R66). -/
theorem Links.casHead_fst (l : Links) (q : QueueName) (o n : Option BufIdx) :
    (l.casHead q o n).1 = decide ((l.queue q).head = o) := by
  unfold Links.casHead; split <;> simp [*]

theorem Links.casHead_head (l : Links) (q : QueueName) (o n : Option BufIdx) :
    ((l.casHead q o n).2.queue q).head = if (l.queue q).head = o then n else (l.queue q).head := by
  unfold Links.casHead; split <;> simp

theorem Links.casHead_nextOf (l : Links) (q : QueueName) (o n : Option BufIdx) (j : BufIdx) :
    (l.casHead q o n).2.nextOf j = l.nextOf j := by
  unfold Links.casHead; split <;> simp

theorem Links.casHead_last (l : Links) (q : QueueName) (o n : Option BufIdx) :
    ((l.casHead q o n).2.queue q).last = (l.queue q).last := by
  unfold Links.casHead; split <;> simp

theorem Links.casHead_other (l : Links) {q q' : QueueName} (o n : Option BufIdx) (h : q' ≠ q) :
    (l.casHead q o n).2.queue q' = l.queue q' := by
  unfold Links.casHead; split
  · exact l.queue_setQueue_ne _ h
  · rfl

theorem Links.deqLone_eq (l : Links) (q : QueueName) (h : BufIdx) :
    l.deqLone q h = if (l.queue q).last = .node h then (true, l.setQueue q { l.queue q with last := .sent })
      else (false, l) := by
  unfold Links.deqLone Links.casLast; split <;> rfl

theorem Links.deqLone_nextOf (l : Links) (q : QueueName) (h j : BufIdx) :
    (l.deqLone q h).2.nextOf j = l.nextOf j := by
  rw [Links.deqLone_eq]; split <;> simp

theorem Links.deqLone_other (l : Links) {q q' : QueueName} (h : BufIdx) (hq : q' ≠ q) :
    (l.deqLone q h).2.queue q' = l.queue q' := by
  rw [Links.deqLone_eq]; split
  · exact l.queue_setQueue_ne _ hq
  · rfl

/-- A dequeue that returns NONE found the head word `NIL`, or met the guard; either way nothing changed (R125, R127). -/
theorem Links.dequeue_none {l : Links} {q : QueueName} (h : (l.dequeue q).1 = none) : (l.dequeue q).2 = l := by
  unfold Links.dequeue at h ⊢
  split at h
  · rfl
  · split at h
    · rename_i h0 _ hs
      simp only [Links.deqLone_eq] at hs ⊢
      split at hs
      · simp [Links.deqSucc] at hs
      · rename_i hl; simp [hl]
    · simp at h

theorem Links.dequeue_other (l : Links) {q q' : QueueName} (hq : q' ≠ q) :
    (l.dequeue q).2.queue q' = l.queue q' := by
  unfold Links.dequeue
  split
  · rfl
  · split
    · exact l.deqLone_other _ hq
    · simp [Links.deqClear, Links.deqUnlink, Links.casHead_other _ _ _ hq, l.deqLone_other _ hq]

/-- A dequeue clears the link of the node it returns and writes no other link (R129). -/
theorem Links.dequeue_nextOf (l : Links) (q : QueueName) (j : BufIdx) :
    (l.dequeue q).2.nextOf j = if (l.dequeue q).1 = some j then none else l.nextOf j := by
  unfold Links.dequeue
  cases l.deqHead q with
  | none => simp
  | some h =>
    cases hs : (l.deqLone q h).2.deqSucc h (l.deqLone q h).1 with
    | none => simp [hs, Links.deqLone_nextOf]
    | some s =>
      simp [hs, Links.deqClear, Links.nextOf_setNext, Links.deqUnlink, Links.casHead_nextOf, Links.deqLone_nextOf,
        eq_comm]

/-- A dequeue on an empty quiescent queue (R125). -/
theorem Quiescent.dequeue_nil {l : Links} {q : QueueName} (hq : Quiescent l q []) : l.dequeue q = (none, l) := by
  simp [Links.dequeue, Links.deqHead, show (l.queue q).head = none from hq.head]

/-- A dequeue on a quiescent queue returns the oldest node and leaves the rest (R130). -/
theorem Quiescent.dequeue_cons {l : Links} {q : QueueName} {h : BufIdx} {t : List BufIdx}
    (hq : Quiescent l q (h :: t)) : (l.dequeue q).1 = some h ∧ Quiescent (l.dequeue q).2 q t := by
  have hhead : (l.queue q).head = some h := hq.head
  obtain ⟨hnext, ht⟩ := (chainOk_cons l h t).1 hq.chain
  have hnd := List.nodup_cons.1 hq.nodup
  cases t with
  | nil =>
    have hlast : (l.queue q).last = .node h := hq.last
    have hfst : (l.dequeue q).1 = some h := by
      simp [Links.dequeue, Links.deqHead, hhead, Links.deqLone_eq, hlast, Links.deqSucc]
    refine ⟨hfst, hnd.2, rfl, ?_, ?_⟩ <;>
      simp [Links.dequeue, Links.deqHead, hhead, Links.deqLone_eq, hlast, Links.deqSucc, Links.deqClear,
        Links.deqUnlink, Links.casHead, show l.nextOf h = none from hnext]
  | cons b t =>
    have hlast : (l.queue q).last ≠ .node h := by
      rw [hq.last, tailRef_cons_cons]; exact fun e => hnd.1 (mem_of_tailRef e)
    have hn : l.nextOf h = some b := hnext
    have hde : l.dequeue q = (some h, (l.deqUnlink q h (some b)).deqClear h) := by
      simp [Links.dequeue, Links.deqHead, hhead, Links.deqLone_eq, hlast, Links.deqSucc, hn]
    rw [hde]
    refine ⟨rfl, hnd.2, ?_, ?_, ?_⟩
    · rw [chainOk_congr (l := l)]; exact ht
      intro i hi
      have : i ≠ h := fun e => hnd.1 (e ▸ hi)
      simp [Links.deqClear, Links.nextOf_setNext_ne _ _ this, Links.deqUnlink, Links.casHead_nextOf]
    · simp [Links.deqClear, Links.deqUnlink, Links.casHead, hhead]
    · simp [Links.deqClear, Links.deqUnlink, Links.casHead_last, hq.last]

/-- The two cases of spurious emptiness (R131): the head word is still `NIL`, or the old tail is at the head. -/
theorem EnqueueInFlight.dequeue_none {l : Links} {q : QueueName} {p : NodeRef} {x : BufIdx} {a b : List BufIdx}
    (hf : EnqueueInFlight l q p x a b) (ha : a.length ≤ 1) : l.dequeue q = (none, l) := by
  match a, ha with
  | [], _ => simp [Links.dequeue, Links.deqHead, show (l.queue q).head = none from hf.head]
  | [h], _ =>
    have hlast : (l.queue q).last ≠ .node h := by
      rw [hf.last]
      intro e
      have := mem_of_tailRef e
      have hnd := List.nodup_cons.1 hf.nodup
      exact hnd.1 (by simpa using this)
    have hn : l.nextOf h = none := ((chainOk_cons l h []).1 hf.chainA).1
    simp [Links.dequeue, Links.deqHead, show (l.queue q).head = some h from hf.head, Links.deqLone_eq, hlast,
      Links.deqSucc, hn]

/-- With two or more nodes ahead of the old tail's link a dequeue succeeds though an enqueue is in flight (R131). -/
theorem EnqueueInFlight.dequeue_cons {l : Links} {q : QueueName} {p : NodeRef} {x h c : BufIdx} {t b : List BufIdx}
    (hf : EnqueueInFlight l q p x (h :: c :: t) b) :
    (l.dequeue q).1 = some h ∧ EnqueueInFlight (l.dequeue q).2 q p x (c :: t) b := by
  have hhead : (l.queue q).head = some h := hf.head
  obtain ⟨hnext, ht⟩ := (chainOk_cons l h _).1 hf.chainA
  have hnd := List.nodup_cons.1 hf.nodup
  have hn : l.nextOf h = some c := hnext
  have hlast : (l.queue q).last ≠ .node h := by
    rw [hf.last]; intro e
    exact hnd.1 (List.mem_append_right _ (mem_of_tailRef e))
  have hde : l.dequeue q = (some h, (l.deqUnlink q h (some c)).deqClear h) := by
    simp [Links.dequeue, Links.deqHead, hhead, Links.deqLone_eq, hlast, Links.deqSucc, hn]
  have hne : ∀ i ∈ (c :: t) ++ x :: b, ((l.deqUnlink q h (some c)).deqClear h).nextOf i = l.nextOf i := by
    intro i hi
    have : i ≠ h := fun e => hnd.1 (e ▸ hi)
    simp [Links.deqClear, Links.nextOf_setNext_ne _ _ this, Links.deqUnlink, Links.casHead_nextOf]
  rw [hde]
  refine ⟨rfl, hnd.2, ?_, ?_, ?_, ?_, by simpa using hf.prev⟩
  · rw [chainOk_congr fun i hi => hne i (List.mem_append_left _ hi)]; exact ht
  · rw [chainOk_congr fun i hi => hne i (List.mem_append_right _ hi)]; exact hf.chainB
  · simp [Links.deqClear, Links.deqUnlink, Links.casHead, hhead]
  · simp [Links.deqClear, Links.deqUnlink, Links.casHead_last, hf.last]

/-! ### A form is not disturbed by what happens to another queue -/

theorem Quiescent.congr {l l' : Links} {q : QueueName} {c : List BufIdx} (hq : Quiescent l q c)
    (h1 : l'.queue q = l.queue q) (h2 : ∀ i ∈ c, l'.nextOf i = l.nextOf i) : Quiescent l' q c :=
  ⟨hq.nodup, (chainOk_congr h2).trans hq.chain, h1 ▸ hq.head, h1 ▸ hq.last⟩

theorem EnqueueInFlight.congr {l l' : Links} {q : QueueName} {p : NodeRef} {x : BufIdx} {a b : List BufIdx}
    (hf : EnqueueInFlight l q p x a b) (h1 : l'.queue q = l.queue q)
    (h2 : ∀ i ∈ a ++ x :: b, l'.nextOf i = l.nextOf i) : EnqueueInFlight l' q p x a b :=
  ⟨hf.nodup, (chainOk_congr fun i hi => h2 i (List.mem_append_left _ hi)).trans hf.chainA,
    (chainOk_congr fun i hi => h2 i (List.mem_append_right _ hi)).trans hf.chainB, h1 ▸ hf.head, h1 ▸ hf.last, hf.prev⟩

theorem LoneTaken.congr {l l' : Links} {q : QueueName} {h : BufIdx} {c : List BufIdx} (hl : LoneTaken l q h c)
    (h1 : l'.queue q = l.queue q) (h2 : ∀ i ∈ h :: c, l'.nextOf i = l.nextOf i) : LoneTaken l' q h c :=
  ⟨hl.nodup, (chainOk_congr fun i hi => h2 i (List.mem_cons_of_mem _ hi)).trans hl.chain, h1 ▸ hl.head, h1 ▸ hl.last,
    (h2 h List.mem_cons_self).trans hl.cleared⟩

end Sys2Proof.Machine
end

