-- ==== Sys2Proof/Laws/Forms.lean ====
section
/-! SUPPORT. The forms of the three queues as the command in progress shapes them (`FreeForm`, `InboxForm`, `OutboxForm`):
what an enqueue and a dequeue by the handler do to them, and that they do not notice changes elsewhere. -/

namespace Sys2Proof.Machine

/-! ### FREE -/

theorem FreeForm.nodup {s : State} {c : List BufIdx} (h : FreeForm s c) : c.Nodup := by
  unfold FreeForm at h
  split at h
  · obtain ⟨a, b, rfl, hf⟩ := h; exact hf.nodup
  · exact h.nodup

theorem FreeForm.congr {s t : State} {c : List BufIdx} (h : FreeForm s c) (hc : t.cmd = s.cmd)
    (hq : t.links.queue .free = s.links.queue .free) (hn : ∀ i ∈ c, t.links.nextOf i = s.links.nextOf i) :
    FreeForm t c := by
  unfold FreeForm at h ⊢
  rw [hc]
  split at h
  · obtain ⟨a, b, rfl, hf⟩ := h; exact ⟨a, b, rfl, hf.congr hq hn⟩
  · exact h.congr hq hn

/-- Outside the window between FREE.SWAP and FREE.LINK the form is quiescent. -/
theorem freeForm_iff {s : State} {c : List BufIdx} (hp : s.cmd.pos ≠ .freeLink) :
    FreeForm s c ↔ Quiescent s.links .free c := by
  unfold FreeForm
  split
  · contradiction
  · rfl

/-- The tail word of FREE names a node of its content. -/
theorem FreeForm.mem_last {s : State} {c : List BufIdx} {x : BufIdx} (h : FreeForm s c)
    (hx : (s.links.queue .free).last = .node x) : x ∈ c := by
  unfold FreeForm at h
  split at h
  · obtain ⟨a, b, rfl, hf⟩ := h
    exact List.mem_append_right _ (mem_of_tailRef (hf.last.symm.trans hx))
  · exact mem_of_tailRef (h.last.symm.trans hx)

theorem FreeForm.enqueue {s t : State} {c : List BufIdx} {y : BufIdx} (h : FreeForm s c) (hy : y ∉ c)
    (hn : s.links.nextOf y = none) (hc : t.cmd = s.cmd) (hl : t.links = s.links.enqueue .free y) :
    FreeForm t (c ++ [y]) := by
  unfold FreeForm at h ⊢
  rw [hc, hl]
  split at h
  · obtain ⟨a, b, rfl, hf⟩ := h
    exact ⟨a, b ++ [y], by simp, hf.enqueue hy hn⟩
  · exact Quiescent.enqueue h hy hn

/-- A dequeue of FREE that returns a buffer returns the oldest one. -/
theorem FreeForm.dequeue_some {s t : State} {c : List BufIdx} {r : BufIdx} (h : FreeForm s c)
    (hr : (s.links.dequeue .free).1 = some r) (hc : t.cmd = s.cmd) (hl : t.links = (s.links.dequeue .free).2) :
    ∃ c', c = r :: c' ∧ FreeForm t c' := by
  unfold FreeForm at h ⊢
  rw [hc, hl]
  split at h
  · obtain ⟨a, b, rfl, hf⟩ := h
    match a, hf with
    | [], hf => rw [hf.dequeue_none (by simp)] at hr; simp at hr
    | [z], hf => rw [hf.dequeue_none (by simp)] at hr; simp at hr
    | z :: w :: a, hf =>
      obtain ⟨h1, h2⟩ := hf.dequeue_cons
      obtain rfl : z = r := by simpa [h1] using hr
      exact ⟨_, rfl, w :: a, b, rfl, h2⟩
  · match c, h with
    | [], h => rw [h.dequeue_nil] at hr; simp at hr
    | z :: c, h =>
      obtain ⟨h1, h2⟩ := h.dequeue_cons
      obtain rfl : z = r := by simpa [h1] using hr
      exact ⟨c, rfl, h2⟩

/-! ### OUTBOX -/

theorem OutboxForm.nodup {s : State} {c : List BufIdx} (h : OutboxForm s c) : c.Nodup := by
  unfold OutboxForm at h
  split at h
  · obtain ⟨a, b, rfl, hf⟩ := h; exact hf.nodup
  · exact h.nodup

theorem OutboxForm.congr {s t : State} {c : List BufIdx} (h : OutboxForm s c) (hc : t.cmd = s.cmd)
    (hq : t.links.queue .outbox = s.links.queue .outbox) (hn : ∀ i ∈ c, t.links.nextOf i = s.links.nextOf i) :
    OutboxForm t c := by
  unfold OutboxForm at h ⊢
  rw [hc]
  split at h
  · obtain ⟨a, b, rfl, hf⟩ := h; exact ⟨a, b, rfl, hf.congr hq hn⟩
  · exact h.congr hq hn

/-- Outside the window between SEND.SWAP and SEND.LINK the form is quiescent. -/
theorem outboxForm_iff {s : State} {c : List BufIdx} (hp : s.cmd.pos ≠ .sendLink) :
    OutboxForm s c ↔ Quiescent s.links .outbox c := by
  unfold OutboxForm
  split
  · contradiction
  · rfl

/-- A dequeue of OUTBOX that returns a buffer returns the oldest one. -/
theorem OutboxForm.dequeue_some {s t : State} {c : List BufIdx} {r : BufIdx} (h : OutboxForm s c)
    (hr : (s.links.dequeue .outbox).1 = some r) (hc : t.cmd = s.cmd) (hl : t.links = (s.links.dequeue .outbox).2) :
    ∃ c', c = r :: c' ∧ OutboxForm t c' := by
  unfold OutboxForm at h ⊢
  rw [hc, hl]
  split at h
  · obtain ⟨a, b, rfl, hf⟩ := h
    match a, hf with
    | [], hf => rw [hf.dequeue_none (by simp)] at hr; simp at hr
    | [z], hf => rw [hf.dequeue_none (by simp)] at hr; simp at hr
    | z :: w :: a, hf =>
      obtain ⟨h1, h2⟩ := hf.dequeue_cons
      obtain rfl : z = r := by simpa [h1] using hr
      exact ⟨_, rfl, w :: a, b, rfl, h2⟩
  · match c, h with
    | [], h => rw [h.dequeue_nil] at hr; simp at hr
    | z :: c, h =>
      obtain ⟨h1, h2⟩ := h.dequeue_cons
      obtain rfl : z = r := by simpa [h1] using hr
      exact ⟨c, rfl, h2⟩

/-! ### INBOX -/

theorem LoneTaken.nodupTail {l : Links} {q : QueueName} {h : BufIdx} {c : List BufIdx} (hl : LoneTaken l q h c) :
    c.Nodup := (List.nodup_cons.1 hl.nodup).2

theorem InboxForm.nodup {s : State} {c : List BufIdx} (h : InboxForm s c) : c.Nodup := by
  unfold InboxForm at h
  split at h
  · exact h.1.nodup
  · split at h
    · exact h.nodupTail
    · exact h.1.nodup
  · split at h
    · exact h.1.nodupTail
    · exact h.1.nodup
  · exact h.1.nodup
  · exact h.nodup

/-- INBOX's form does not notice what leaves its two words, its nodes' links and the held node's link alone. -/
theorem InboxForm.congr {s t : State} {c : List BufIdx} (h : InboxForm s c) (hc : t.cmd = s.cmd)
    (hq : t.links.queue .inbox = s.links.queue .inbox)
    (hn : ∀ i, i ∈ c ∨ s.receiveHolds = some i → t.links.nextOf i = s.links.nextOf i) : InboxForm t c := by
  have hn' : ∀ i ∈ c, t.links.nextOf i = s.links.nextOf i := fun i hi => hn i (.inl hi)
  have hheld : ∀ i ∈ s.cmd.h :: c, s.receiveHolds = some s.cmd.h → t.links.nextOf i = s.links.nextOf i :=
    fun i hi hr => hn i ((List.mem_cons.1 hi).elim (fun e => .inr (e ▸ hr)) .inl)
  unfold InboxForm at h ⊢
  unfold State.receiveHolds at hheld
  rw [hc]
  split at h <;> rename_i hp
  · exact ⟨h.1.congr hq hn', h.2⟩
  · split at h <;> rename_i hl
    · rw [if_pos hl]
      exact h.congr hq fun i hi => hheld i hi (by simp [hp, hl])
    · rw [if_neg hl]
      exact ⟨h.1.congr hq hn', h.2⟩
  · split at h <;> rename_i hl
    · rw [if_pos hl]
      exact ⟨h.1.congr hq fun i hi => hheld i hi (by simp [hp, hl]), h.2⟩
    · rw [if_neg hl]
      refine ⟨h.1.congr hq hn', h.2.1, h.2.2.1, ?_⟩
      rw [hn' _ (by have := h.2.1; cases c <;> simp_all)]
      exact h.2.2.2
  · exact ⟨h.1.congr hq hn', h.2⟩
  · exact Quiescent.congr h hq hn'

/-- The handler's enqueue to INBOX between any two micro-steps of a RECEIVE (R144, corner cases). -/
theorem InboxForm.enqueue {s t : State} {c : List BufIdx} {x : BufIdx} (h : InboxForm s c) (hx : x ∉ c)
    (hh : s.receiveHolds ≠ some x) (hn : s.links.nextOf x = none) (hc : t.cmd = s.cmd)
    (hl : t.links = s.links.enqueue .inbox x) : InboxForm t (c ++ [x]) := by
  have hhead : ∀ z, c.head? = some z → (c ++ [x]).head? = some z := fun z hz => by cases c <;> simp_all
  have hlen : 2 ≤ c.length → 2 ≤ (c ++ [x]).length := fun h => by simp; omega
  unfold InboxForm at h ⊢
  unfold State.receiveHolds at hh
  rw [hc, hl]
  split at h <;> rename_i hp
  · exact ⟨h.1.enqueue hx hn, hhead _ h.2⟩
  · split at h <;> rename_i hlo
    · simp only [hp, hlo, if_true] at hh
      rw [if_pos hlo]
      refine h.enqueue (fun hm => ?_) hn
      rcases List.mem_cons.1 hm with rfl | hm
      · exact hh rfl
      · exact hx hm
    · rw [if_neg hlo]
      exact ⟨h.1.enqueue hx hn, hhead _ h.2.1, hlen h.2.2⟩
  · split at h <;> rename_i hlo
    · simp only [hp, hlo, if_true] at hh
      rw [if_pos hlo]
      refine ⟨h.1.enqueue (fun hm => ?_) hn, h.2⟩
      rcases List.mem_cons.1 hm with rfl | hm
      · exact hh rfl
      · exact hx hm
    · rw [if_neg hlo]
      refine ⟨h.1.enqueue hx hn, hhead _ h.2.1, hlen h.2.2.1, ?_⟩
      rw [Links.enqueue_nextOf, h.2.2.2]
      rw [h.1.last]
      intro e
      -- the node RECEIVE is about to unlink is the head of at least two, so it is not the tail
      match c, h with
      | a :: b :: c, h =>
        obtain rfl : a = s.cmd.h := by simpa using h.2.1
        rw [tailRef_cons_cons] at e
        exact (List.nodup_cons.1 h.1.nodup).1 (mem_of_tailRef e)
  · simp only [hp] at hh
    refine ⟨h.1.enqueue hx hn, ?_⟩
    intro hm
    rcases List.mem_append.1 hm with hm | hm
    · exact h.2 hm
    · exact hh (by simp_all)
  · exact Quiescent.enqueue h hx hn

/-- The tail word of INBOX names a node of its content. -/
theorem InboxForm.mem_last {s : State} {c : List BufIdx} {x : BufIdx} (h : InboxForm s c)
    (hx : (s.links.queue .inbox).last = .node x) : x ∈ c := by
  unfold InboxForm at h
  split at h
  · exact mem_of_tailRef (h.1.last.symm.trans hx)
  · split at h
    · exact mem_of_tailRef (h.last.symm.trans hx)
    · exact mem_of_tailRef (h.1.last.symm.trans hx)
  · split at h
    · exact mem_of_tailRef (h.1.last.symm.trans hx)
    · exact mem_of_tailRef (h.1.last.symm.trans hx)
  · exact mem_of_tailRef (h.1.last.symm.trans hx)
  · exact mem_of_tailRef (h.last.symm.trans hx)

/-! ### The queue invariant reads five fields -/

theorem QueueInv.congr {s t : State} {f ib ob : List BufIdx} (h : QueueInv s f ib ob) (hl : t.links = s.links)
    (ho : t.owner = s.owner) (hr : t.curRx = s.curRx) (ht : t.curTx = s.curTx) (hc : t.cmd = s.cmd) :
    QueueInv t f ib ob := by
  have how : ∀ i, t.ownerOf i = s.ownerOf i := fun i => by simp [State.ownerOf, ho]
  have hw : t.freeWaiting = s.freeWaiting := by simp [State.freeWaiting, hc]
  have hh : t.receiveHolds = s.receiveHolds := by simp [State.receiveHolds, hc]
  refine ⟨h.freeForm.congr hc (by rw [hl]) (by simp [hl]), h.inboxForm.congr hc (by rw [hl]) (by simp [hl]),
    h.outboxForm.congr hc (by rw [hl]) (by simp [hl]), ?_, ?_, ?_, ?_, ?_, ?_, ?_⟩
  · simpa [how, hw] using h.ownFree
  · simpa [how, hh] using h.ownInbox
  · simpa [how] using h.ownOutbox
  · simpa [how, hr] using h.ownRx
  · simpa [how, ht] using h.ownTx
  · simpa [hw] using h.waiting
  · simpa [how, hw, hl] using h.cleared

end Sys2Proof.Machine
end

