-- ==== Sys2Proof/Laws/Transaction.lean ====
section
/-! SUPPORT. The parts of START and FINISH (42_transaction.md): for each, one equation that says once what it does, what it
leaves alone field by field, and that it keeps the queue invariant. -/

namespace Sys2Proof.Machine

/-! ### What staging does -/

/-- Receive staging, without the intermediate states (R163, R175). -/
theorem State.stageRx_eq (s : State) : s.stageRx =
    match s.curRx with
    | some _ => s
    | none =>
      match (s.links.dequeue .free).1 with
      | none => s
      | some r => { s.setOwner r .rxStaged with links := (s.links.dequeue .free).2, curRx := some r } := by
  cases hc : s.curRx with
  | some i => simp [State.stageRx, hc]
  | none =>
    cases hd : (s.links.dequeue .free).1 with
    | none => simp [State.stageRx, hc, hd, State.allocInternal, Links.dequeue_none hd]; rw [← hc]
    | some r => simp [State.stageRx, hc, hd, State.allocInternal]; rfl

/-- Transmit staging, without the intermediate states (R164, R175). -/
theorem State.stageTx_eq (s : State) : s.stageTx =
    match s.curTx with
    | some _ => s
    | none =>
      match (s.links.dequeue .outbox).1 with
      | none => s
      | some r => { s.setOwner r .txStaged with links := (s.links.dequeue .outbox).2, curTx := some r } := by
  cases hc : s.curTx with
  | some i => simp [State.stageTx, hc]
  | none =>
    cases hd : (s.links.dequeue .outbox).1 with
    | none => simp [State.stageTx, hc, hd, State.takeOutbox, Links.dequeue_none hd]; rw [← hc]
    | some r => simp [State.stageTx, hc, hd, State.takeOutbox]; rfl

/-- START on this hardware, where `TX_DEQ_AT_START` is true (R162, R164). -/
theorem State.start_ptb (s : State) :
    s.start ptb = { s.stageRx.stageTx.armDma.preloadTransferId with busy := true } := rfl

/-! ### crcFlag -/

/-- All that `crcFlag` can write. -/
theorem State.crcFlag_frame (s : State) :
    s.crcFlag = { s with pool := s.crcFlag.pool } := by
  unfold State.crcFlag; split
  · rfl
  · split <;> rfl

@[simp] theorem State.crcFlag_links (s : State) : s.crcFlag.links = s.links := (congrArg State.links (s.crcFlag_frame) :)
@[simp] theorem State.crcFlag_owner (s : State) : s.crcFlag.owner = s.owner := (congrArg State.owner (s.crcFlag_frame) :)
@[simp] theorem State.crcFlag_curRx (s : State) : s.crcFlag.curRx = s.curRx := (congrArg State.curRx (s.crcFlag_frame) :)
@[simp] theorem State.crcFlag_curTx (s : State) : s.crcFlag.curTx = s.curTx := (congrArg State.curTx (s.crcFlag_frame) :)
@[simp] theorem State.crcFlag_busy (s : State) : s.crcFlag.busy = s.busy := (congrArg State.busy (s.crcFlag_frame) :)
@[simp] theorem State.crcFlag_enabled (s : State) : s.crcFlag.enabled = s.enabled := (congrArg State.enabled (s.crcFlag_frame) :)
@[simp] theorem State.crcFlag_xferId (s : State) : s.crcFlag.xferId = s.xferId := (congrArg State.xferId (s.crcFlag_frame) :)
@[simp] theorem State.crcFlag_dmaRx (s : State) : s.crcFlag.dmaRx = s.dmaRx := (congrArg State.dmaRx (s.crcFlag_frame) :)
@[simp] theorem State.crcFlag_dmaTx (s : State) : s.crcFlag.dmaTx = s.dmaTx := (congrArg State.dmaTx (s.crcFlag_frame) :)
@[simp] theorem State.crcFlag_spi (s : State) : s.crcFlag.spi = s.spi := (congrArg State.spi (s.crcFlag_frame) :)
@[simp] theorem State.crcFlag_cmd (s : State) : s.crcFlag.cmd = s.cmd := (congrArg State.cmd (s.crcFlag_frame) :)
@[simp] theorem State.crcFlag_linkFault (s : State) : s.crcFlag.linkFault = s.linkFault := (congrArg State.linkFault (s.crcFlag_frame) :)
@[simp] theorem State.crcFlag_resp (s : State) : s.crcFlag.resp = s.resp := (congrArg State.resp (s.crcFlag_frame) :)
@[simp] theorem State.crcFlag_miso (s : State) : s.crcFlag.miso = s.miso := (congrArg State.miso (s.crcFlag_frame) :)
@[simp] theorem State.crcFlag_ret (s : State) : s.crcFlag.ret = s.ret := (congrArg State.ret (s.crcFlag_frame) :)
@[simp] theorem State.crcFlag_inputs (s : State) : s.crcFlag.inputs = s.inputs := (congrArg State.inputs (s.crcFlag_frame) :)
@[simp] theorem State.crcFlag_draws (s : State) : s.crcFlag.draws = s.draws := (congrArg State.draws (s.crcFlag_frame) :)
@[simp] theorem State.crcFlag_resets (s : State) : s.crcFlag.resets = s.resets := (congrArg State.resets (s.crcFlag_frame) :)

/-! ### stageRx -/

/-- All that `stageRx` can write. -/
theorem State.stageRx_frame (s : State) :
    s.stageRx = { s with links := s.stageRx.links, owner := s.stageRx.owner, curRx := s.stageRx.curRx } := by
  rw [State.stageRx_eq]; split
  · rfl
  · split <;> rfl

@[simp] theorem State.stageRx_pool (s : State) : s.stageRx.pool = s.pool := (congrArg State.pool (s.stageRx_frame) :)
@[simp] theorem State.stageRx_curTx (s : State) : s.stageRx.curTx = s.curTx := (congrArg State.curTx (s.stageRx_frame) :)
@[simp] theorem State.stageRx_busy (s : State) : s.stageRx.busy = s.busy := (congrArg State.busy (s.stageRx_frame) :)
@[simp] theorem State.stageRx_enabled (s : State) : s.stageRx.enabled = s.enabled := (congrArg State.enabled (s.stageRx_frame) :)
@[simp] theorem State.stageRx_xferId (s : State) : s.stageRx.xferId = s.xferId := (congrArg State.xferId (s.stageRx_frame) :)
@[simp] theorem State.stageRx_dmaRx (s : State) : s.stageRx.dmaRx = s.dmaRx := (congrArg State.dmaRx (s.stageRx_frame) :)
@[simp] theorem State.stageRx_dmaTx (s : State) : s.stageRx.dmaTx = s.dmaTx := (congrArg State.dmaTx (s.stageRx_frame) :)
@[simp] theorem State.stageRx_spi (s : State) : s.stageRx.spi = s.spi := (congrArg State.spi (s.stageRx_frame) :)
@[simp] theorem State.stageRx_cmd (s : State) : s.stageRx.cmd = s.cmd := (congrArg State.cmd (s.stageRx_frame) :)
@[simp] theorem State.stageRx_linkFault (s : State) : s.stageRx.linkFault = s.linkFault := (congrArg State.linkFault (s.stageRx_frame) :)
@[simp] theorem State.stageRx_resp (s : State) : s.stageRx.resp = s.resp := (congrArg State.resp (s.stageRx_frame) :)
@[simp] theorem State.stageRx_miso (s : State) : s.stageRx.miso = s.miso := (congrArg State.miso (s.stageRx_frame) :)
@[simp] theorem State.stageRx_ret (s : State) : s.stageRx.ret = s.ret := (congrArg State.ret (s.stageRx_frame) :)
@[simp] theorem State.stageRx_inputs (s : State) : s.stageRx.inputs = s.inputs := (congrArg State.inputs (s.stageRx_frame) :)
@[simp] theorem State.stageRx_draws (s : State) : s.stageRx.draws = s.draws := (congrArg State.draws (s.stageRx_frame) :)
@[simp] theorem State.stageRx_resets (s : State) : s.stageRx.resets = s.resets := (congrArg State.resets (s.stageRx_frame) :)
@[simp] theorem State.stageRx_byteAt (s : State) (j : BufIdx) (w : Offset) : s.stageRx.byteAt j w = s.byteAt j w := by
  simp [State.byteAt]

/-! ### stageTx -/

/-- All that `stageTx` can write. -/
theorem State.stageTx_frame (s : State) :
    s.stageTx = { s with links := s.stageTx.links, owner := s.stageTx.owner, curTx := s.stageTx.curTx } := by
  rw [State.stageTx_eq]; split
  · rfl
  · split <;> rfl

@[simp] theorem State.stageTx_pool (s : State) : s.stageTx.pool = s.pool := (congrArg State.pool (s.stageTx_frame) :)
@[simp] theorem State.stageTx_curRx (s : State) : s.stageTx.curRx = s.curRx := (congrArg State.curRx (s.stageTx_frame) :)
@[simp] theorem State.stageTx_busy (s : State) : s.stageTx.busy = s.busy := (congrArg State.busy (s.stageTx_frame) :)
@[simp] theorem State.stageTx_enabled (s : State) : s.stageTx.enabled = s.enabled := (congrArg State.enabled (s.stageTx_frame) :)
@[simp] theorem State.stageTx_xferId (s : State) : s.stageTx.xferId = s.xferId := (congrArg State.xferId (s.stageTx_frame) :)
@[simp] theorem State.stageTx_dmaRx (s : State) : s.stageTx.dmaRx = s.dmaRx := (congrArg State.dmaRx (s.stageTx_frame) :)
@[simp] theorem State.stageTx_dmaTx (s : State) : s.stageTx.dmaTx = s.dmaTx := (congrArg State.dmaTx (s.stageTx_frame) :)
@[simp] theorem State.stageTx_spi (s : State) : s.stageTx.spi = s.spi := (congrArg State.spi (s.stageTx_frame) :)
@[simp] theorem State.stageTx_cmd (s : State) : s.stageTx.cmd = s.cmd := (congrArg State.cmd (s.stageTx_frame) :)
@[simp] theorem State.stageTx_linkFault (s : State) : s.stageTx.linkFault = s.linkFault := (congrArg State.linkFault (s.stageTx_frame) :)
@[simp] theorem State.stageTx_resp (s : State) : s.stageTx.resp = s.resp := (congrArg State.resp (s.stageTx_frame) :)
@[simp] theorem State.stageTx_miso (s : State) : s.stageTx.miso = s.miso := (congrArg State.miso (s.stageTx_frame) :)
@[simp] theorem State.stageTx_ret (s : State) : s.stageTx.ret = s.ret := (congrArg State.ret (s.stageTx_frame) :)
@[simp] theorem State.stageTx_inputs (s : State) : s.stageTx.inputs = s.inputs := (congrArg State.inputs (s.stageTx_frame) :)
@[simp] theorem State.stageTx_draws (s : State) : s.stageTx.draws = s.draws := (congrArg State.draws (s.stageTx_frame) :)
@[simp] theorem State.stageTx_resets (s : State) : s.stageTx.resets = s.resets := (congrArg State.resets (s.stageTx_frame) :)
@[simp] theorem State.stageTx_byteAt (s : State) (j : BufIdx) (w : Offset) : s.stageTx.byteAt j w = s.byteAt j w := by
  simp [State.byteAt]

/-! ### freeInternal -/

/-- All that `freeInternal` can write. -/
theorem State.freeInternal_frame (s : State) (i : BufIdx) :
    (s.freeInternal i) = { s with pool := (s.freeInternal i).pool, owner := (s.freeInternal i).owner, links := (s.freeInternal i).links } := rfl

@[simp] theorem State.freeInternal_curRx (s : State) (i : BufIdx) : (s.freeInternal i).curRx = s.curRx := (congrArg State.curRx (s.freeInternal_frame i) :)
@[simp] theorem State.freeInternal_curTx (s : State) (i : BufIdx) : (s.freeInternal i).curTx = s.curTx := (congrArg State.curTx (s.freeInternal_frame i) :)
@[simp] theorem State.freeInternal_busy (s : State) (i : BufIdx) : (s.freeInternal i).busy = s.busy := (congrArg State.busy (s.freeInternal_frame i) :)
@[simp] theorem State.freeInternal_enabled (s : State) (i : BufIdx) : (s.freeInternal i).enabled = s.enabled := (congrArg State.enabled (s.freeInternal_frame i) :)
@[simp] theorem State.freeInternal_xferId (s : State) (i : BufIdx) : (s.freeInternal i).xferId = s.xferId := (congrArg State.xferId (s.freeInternal_frame i) :)
@[simp] theorem State.freeInternal_dmaRx (s : State) (i : BufIdx) : (s.freeInternal i).dmaRx = s.dmaRx := (congrArg State.dmaRx (s.freeInternal_frame i) :)
@[simp] theorem State.freeInternal_dmaTx (s : State) (i : BufIdx) : (s.freeInternal i).dmaTx = s.dmaTx := (congrArg State.dmaTx (s.freeInternal_frame i) :)
@[simp] theorem State.freeInternal_spi (s : State) (i : BufIdx) : (s.freeInternal i).spi = s.spi := (congrArg State.spi (s.freeInternal_frame i) :)
@[simp] theorem State.freeInternal_cmd (s : State) (i : BufIdx) : (s.freeInternal i).cmd = s.cmd := (congrArg State.cmd (s.freeInternal_frame i) :)
@[simp] theorem State.freeInternal_linkFault (s : State) (i : BufIdx) : (s.freeInternal i).linkFault = s.linkFault := (congrArg State.linkFault (s.freeInternal_frame i) :)
@[simp] theorem State.freeInternal_resp (s : State) (i : BufIdx) : (s.freeInternal i).resp = s.resp := (congrArg State.resp (s.freeInternal_frame i) :)
@[simp] theorem State.freeInternal_miso (s : State) (i : BufIdx) : (s.freeInternal i).miso = s.miso := (congrArg State.miso (s.freeInternal_frame i) :)
@[simp] theorem State.freeInternal_ret (s : State) (i : BufIdx) : (s.freeInternal i).ret = s.ret := (congrArg State.ret (s.freeInternal_frame i) :)
@[simp] theorem State.freeInternal_inputs (s : State) (i : BufIdx) : (s.freeInternal i).inputs = s.inputs := (congrArg State.inputs (s.freeInternal_frame i) :)
@[simp] theorem State.freeInternal_draws (s : State) (i : BufIdx) : (s.freeInternal i).draws = s.draws := (congrArg State.draws (s.freeInternal_frame i) :)
@[simp] theorem State.freeInternal_resets (s : State) (i : BufIdx) : (s.freeInternal i).resets = s.resets := (congrArg State.resets (s.freeInternal_frame i) :)

/-! ### disposeRx -/

/-- All that `disposeRx` can write. -/
theorem State.disposeRx_frame (s : State) :
    s.disposeRx = { s with pool := s.disposeRx.pool, owner := s.disposeRx.owner, links := s.disposeRx.links, curRx := s.disposeRx.curRx } := by
  unfold State.disposeRx; split
  · rfl
  · split
    · rw [s.crcFlag_frame]; rfl
    · rfl

@[simp] theorem State.disposeRx_curTx (s : State) : s.disposeRx.curTx = s.curTx := (congrArg State.curTx (s.disposeRx_frame) :)
@[simp] theorem State.disposeRx_busy (s : State) : s.disposeRx.busy = s.busy := (congrArg State.busy (s.disposeRx_frame) :)
@[simp] theorem State.disposeRx_enabled (s : State) : s.disposeRx.enabled = s.enabled := (congrArg State.enabled (s.disposeRx_frame) :)
@[simp] theorem State.disposeRx_xferId (s : State) : s.disposeRx.xferId = s.xferId := (congrArg State.xferId (s.disposeRx_frame) :)
@[simp] theorem State.disposeRx_dmaRx (s : State) : s.disposeRx.dmaRx = s.dmaRx := (congrArg State.dmaRx (s.disposeRx_frame) :)
@[simp] theorem State.disposeRx_dmaTx (s : State) : s.disposeRx.dmaTx = s.dmaTx := (congrArg State.dmaTx (s.disposeRx_frame) :)
@[simp] theorem State.disposeRx_spi (s : State) : s.disposeRx.spi = s.spi := (congrArg State.spi (s.disposeRx_frame) :)
@[simp] theorem State.disposeRx_cmd (s : State) : s.disposeRx.cmd = s.cmd := (congrArg State.cmd (s.disposeRx_frame) :)
@[simp] theorem State.disposeRx_linkFault (s : State) : s.disposeRx.linkFault = s.linkFault := (congrArg State.linkFault (s.disposeRx_frame) :)
@[simp] theorem State.disposeRx_resp (s : State) : s.disposeRx.resp = s.resp := (congrArg State.resp (s.disposeRx_frame) :)
@[simp] theorem State.disposeRx_miso (s : State) : s.disposeRx.miso = s.miso := (congrArg State.miso (s.disposeRx_frame) :)
@[simp] theorem State.disposeRx_ret (s : State) : s.disposeRx.ret = s.ret := (congrArg State.ret (s.disposeRx_frame) :)
@[simp] theorem State.disposeRx_inputs (s : State) : s.disposeRx.inputs = s.inputs := (congrArg State.inputs (s.disposeRx_frame) :)
@[simp] theorem State.disposeRx_draws (s : State) : s.disposeRx.draws = s.draws := (congrArg State.draws (s.disposeRx_frame) :)
@[simp] theorem State.disposeRx_resets (s : State) : s.disposeRx.resets = s.resets := (congrArg State.resets (s.disposeRx_frame) :)

/-! ### disposeTx -/

/-- All that `disposeTx` can write. -/
theorem State.disposeTx_frame (s : State) :
    s.disposeTx = { s with pool := s.disposeTx.pool, owner := s.disposeTx.owner, links := s.disposeTx.links, curTx := s.disposeTx.curTx } := by
  unfold State.disposeTx; split
  · rfl
  · split <;> rfl

@[simp] theorem State.disposeTx_curRx (s : State) : s.disposeTx.curRx = s.curRx := (congrArg State.curRx (s.disposeTx_frame) :)
@[simp] theorem State.disposeTx_busy (s : State) : s.disposeTx.busy = s.busy := (congrArg State.busy (s.disposeTx_frame) :)
@[simp] theorem State.disposeTx_enabled (s : State) : s.disposeTx.enabled = s.enabled := (congrArg State.enabled (s.disposeTx_frame) :)
@[simp] theorem State.disposeTx_xferId (s : State) : s.disposeTx.xferId = s.xferId := (congrArg State.xferId (s.disposeTx_frame) :)
@[simp] theorem State.disposeTx_dmaRx (s : State) : s.disposeTx.dmaRx = s.dmaRx := (congrArg State.dmaRx (s.disposeTx_frame) :)
@[simp] theorem State.disposeTx_dmaTx (s : State) : s.disposeTx.dmaTx = s.dmaTx := (congrArg State.dmaTx (s.disposeTx_frame) :)
@[simp] theorem State.disposeTx_spi (s : State) : s.disposeTx.spi = s.spi := (congrArg State.spi (s.disposeTx_frame) :)
@[simp] theorem State.disposeTx_cmd (s : State) : s.disposeTx.cmd = s.cmd := (congrArg State.cmd (s.disposeTx_frame) :)
@[simp] theorem State.disposeTx_linkFault (s : State) : s.disposeTx.linkFault = s.linkFault := (congrArg State.linkFault (s.disposeTx_frame) :)
@[simp] theorem State.disposeTx_resp (s : State) : s.disposeTx.resp = s.resp := (congrArg State.resp (s.disposeTx_frame) :)
@[simp] theorem State.disposeTx_miso (s : State) : s.disposeTx.miso = s.miso := (congrArg State.miso (s.disposeTx_frame) :)
@[simp] theorem State.disposeTx_ret (s : State) : s.disposeTx.ret = s.ret := (congrArg State.ret (s.disposeTx_frame) :)
@[simp] theorem State.disposeTx_inputs (s : State) : s.disposeTx.inputs = s.inputs := (congrArg State.inputs (s.disposeTx_frame) :)
@[simp] theorem State.disposeTx_draws (s : State) : s.disposeTx.draws = s.draws := (congrArg State.draws (s.disposeTx_frame) :)
@[simp] theorem State.disposeTx_resets (s : State) : s.disposeTx.resets = s.resets := (congrArg State.resets (s.disposeTx_frame) :)

/-! ### prestage -/

/-- All that `prestage` can write. -/
theorem State.prestage_frame (s : State) :
    s.prestage = { s with links := s.prestage.links, owner := s.prestage.owner, curRx := s.prestage.curRx, curTx := s.prestage.curTx } := by
  unfold State.prestage; rw [s.stageRx.stageTx_frame, s.stageRx_frame]

@[simp] theorem State.prestage_pool (s : State) : s.prestage.pool = s.pool := (congrArg State.pool (s.prestage_frame) :)
@[simp] theorem State.prestage_busy (s : State) : s.prestage.busy = s.busy := (congrArg State.busy (s.prestage_frame) :)
@[simp] theorem State.prestage_enabled (s : State) : s.prestage.enabled = s.enabled := (congrArg State.enabled (s.prestage_frame) :)
@[simp] theorem State.prestage_xferId (s : State) : s.prestage.xferId = s.xferId := (congrArg State.xferId (s.prestage_frame) :)
@[simp] theorem State.prestage_dmaRx (s : State) : s.prestage.dmaRx = s.dmaRx := (congrArg State.dmaRx (s.prestage_frame) :)
@[simp] theorem State.prestage_dmaTx (s : State) : s.prestage.dmaTx = s.dmaTx := (congrArg State.dmaTx (s.prestage_frame) :)
@[simp] theorem State.prestage_spi (s : State) : s.prestage.spi = s.spi := (congrArg State.spi (s.prestage_frame) :)
@[simp] theorem State.prestage_cmd (s : State) : s.prestage.cmd = s.cmd := (congrArg State.cmd (s.prestage_frame) :)
@[simp] theorem State.prestage_linkFault (s : State) : s.prestage.linkFault = s.linkFault := (congrArg State.linkFault (s.prestage_frame) :)
@[simp] theorem State.prestage_resp (s : State) : s.prestage.resp = s.resp := (congrArg State.resp (s.prestage_frame) :)
@[simp] theorem State.prestage_miso (s : State) : s.prestage.miso = s.miso := (congrArg State.miso (s.prestage_frame) :)
@[simp] theorem State.prestage_ret (s : State) : s.prestage.ret = s.ret := (congrArg State.ret (s.prestage_frame) :)
@[simp] theorem State.prestage_inputs (s : State) : s.prestage.inputs = s.inputs := (congrArg State.inputs (s.prestage_frame) :)
@[simp] theorem State.prestage_draws (s : State) : s.prestage.draws = s.draws := (congrArg State.draws (s.prestage_frame) :)
@[simp] theorem State.prestage_resets (s : State) : s.prestage.resets = s.resets := (congrArg State.resets (s.prestage_frame) :)
@[simp] theorem State.prestage_byteAt (s : State) (j : BufIdx) (w : Offset) : s.prestage.byteAt j w = s.byteAt j w := by
  simp [State.byteAt]

/-! ### Bytes -/

theorem State.crcFlag_byteAt (s : State) (j : BufIdx) (w : Offset) : s.crcFlag.byteAt j w =
    if s.curRx = some j ∧ w = 3 ∧ s.dmaRx.tcif = true ∧ s.spi.crcerr = true then s.byteAt j w ||| 0x01#8
    else s.byteAt j w := by
  cases hc : s.curRx with
  | none => simp [State.crcFlag, hc]
  | some i =>
    by_cases hf : (s.dmaRx.tcif && s.spi.crcerr) = true
    · have hf' := Bool.and_eq_true_iff.1 hf
      simp only [State.crcFlag, hc, hf, if_true, State.byteAt_memWrite, State.memRead_buf, offFlags, withCrcErr,
        Option.some.injEq]
      by_cases hj : j = i ∧ w = 3
      · obtain ⟨rfl, rfl⟩ := hj; simp [hf']
      · rw [if_neg hj, if_neg]; exact fun h => hj ⟨h.1.symm, h.2.1⟩
    · have hf' : ¬ (s.dmaRx.tcif = true ∧ s.spi.crcerr = true) := fun h => hf (Bool.and_eq_true_iff.2 h)
      simp only [State.crcFlag, hc]
      rw [if_neg hf, if_neg]
      exact fun h => hf' h.2.2

theorem State.freeInternal_byteAt (s : State) (i j : BufIdx) (w : Offset) :
    (s.freeInternal i).byteAt j w = if j = i ∧ w.val < 4 then 0x00#8 else s.byteAt j w :=
  s.byteAt_zeroHeader i j w

/-! ### The queue invariant, part by part -/

theorem QueueInv.ownerCases {s : State} {f ib ob : List BufIdx} (h : QueueInv s f ib ob) (i : BufIdx) :
    (s.ownerOf i = .free ∧ (i ∈ f ∨ s.freeWaiting = some i)) ∨ (s.ownerOf i = .inbox ∧ (i ∈ ib ∨ s.receiveHolds = some i)) ∨
    (s.ownerOf i = .outbox ∧ i ∈ ob) ∨ (s.ownerOf i = .rxStaged ∧ s.curRx = some i) ∨
    (s.ownerOf i = .txStaged ∧ s.curTx = some i) ∨ s.ownerOf i = .client := by
  cases ho : s.ownerOf i
  · exact .inl ⟨rfl, (h.ownFree i).1 ho⟩
  · exact .inr (.inl ⟨rfl, (h.ownInbox i).1 ho⟩)
  · exact .inr (.inr (.inl ⟨rfl, (h.ownOutbox i).1 ho⟩))
  · exact .inr (.inr (.inr (.inl ⟨rfl, (h.ownRx i).1 ho⟩)))
  · exact .inr (.inr (.inr (.inr (.inl ⟨rfl, (h.ownTx i).1 ho⟩))))
  · exact .inr (.inr (.inr (.inr (.inr rfl))))

/-- Receive staging keeps the queue invariant; what it stages was the oldest of FREE. -/
theorem QueueInv.stageRx {s : State} {f ib ob : List BufIdx} (h : QueueInv s f ib ob) :
    ∃ f', QueueInv s.stageRx f' ib ob := by
  rw [State.stageRx_eq]
  split <;> rename_i hrx
  · exact ⟨f, h⟩
  split <;> rename_i r hd
  · exact ⟨f, h⟩
  obtain ⟨f', rfl, hf'⟩ := h.freeForm.dequeue_some (t := { s.setOwner r .rxStaged with
    links := (s.links.dequeue .free).2, curRx := some r }) hd rfl rfl
  refine ⟨f', ?_⟩
  have hr : s.ownerOf r = .free := (h.ownFree r).2 (.inl List.mem_cons_self)
  have hnd := List.nodup_cons.1 h.freeForm.nodup
  have hnext : ∀ j, j ≠ r → (s.links.dequeue .free).2.nextOf j = s.links.nextOf j := fun j hj => by
    rw [Links.dequeue_nextOf, hd, if_neg]; simpa using fun e => hj e.symm
  have hw : ∀ i, s.freeWaiting = some i → i ≠ r := fun i hi e => h.waiting i hi (e ▸ List.mem_cons_self)
  have how : ∀ i, ({ s.setOwner r .rxStaged with links := (s.links.dequeue .free).2, curRx := some r } : State).ownerOf i =
      if i = r then .rxStaged else s.ownerOf i := fun i => s.ownerOf_setOwner r i .rxStaged
  have hne : ∀ i, s.ownerOf i ≠ .free → i ≠ r := fun i hi e => hi (e ▸ hr)
  refine ⟨hf', h.inboxForm.congr rfl (s.links.dequeue_other (by decide)) fun i hi => hnext i ?_,
    h.outboxForm.congr rfl (s.links.dequeue_other (by decide)) fun i hi => hnext i ?_, ?_, ?_, ?_, ?_, ?_, ?_, ?_⟩
  · exact hne i (by rw [(h.ownInbox i).2 hi]; decide)
  · exact hne i (by rw [(h.ownOutbox i).2 hi]; decide)
  · intro i
    rw [how]
    by_cases hi : i = r
    · subst hi
      refine ⟨fun e => by simp at e, fun e => e.elim (fun e => absurd e hnd.1) fun e => absurd rfl (hw i e)⟩
    · rw [if_neg hi, h.ownFree i]
      exact or_congr_left ((List.mem_cons).trans (or_iff_right hi))
  · intro i
    rw [how]
    by_cases hi : i = r
    · subst hi
      have hno : ¬ (i ∈ ib ∨ s.receiveHolds = some i) := fun e => by
        have := (h.ownInbox i).2 e; rw [hr] at this; cases this
      exact ⟨fun e => by simp at e, fun e => absurd e hno⟩
    · rw [if_neg hi]; exact h.ownInbox i
  · intro i
    rw [how]
    by_cases hi : i = r
    · subst hi
      have hno : i ∉ ob := fun e => by have := (h.ownOutbox i).2 e; rw [hr] at this; cases this
      exact ⟨fun e => by simp at e, fun e => absurd e hno⟩
    · rw [if_neg hi]; exact h.ownOutbox i
  · intro i
    rw [how]
    by_cases hi : i = r
    · subst hi; simp
    · rw [if_neg hi, h.ownRx i, hrx]; simpa using fun e => hi e.symm
  · intro i
    rw [how]
    by_cases hi : i = r
    · subst hi
      have hno : s.curTx ≠ some i := fun e => by have := (h.ownTx i).2 e; rw [hr] at this; cases this
      exact ⟨fun e => by simp at e, fun e => absurd e hno⟩
    · rw [if_neg hi]; exact h.ownTx i
  · exact fun i hi hm => h.waiting i hi (List.mem_cons_of_mem _ hm)
  · intro i hi
    rw [how] at hi
    by_cases hir : i = r
    · subst hir
      exact (Links.dequeue_nextOf _ _ _).trans (by rw [hd]; simp)
    · rw [if_neg hir] at hi
      exact (hnext i hir).trans (h.cleared i hi)

/-- Transmit staging keeps the queue invariant; what it stages was the oldest of OUTBOX. -/
theorem QueueInv.stageTx {s : State} {f ib ob : List BufIdx} (h : QueueInv s f ib ob) :
    ∃ ob', QueueInv s.stageTx f ib ob' := by
  rw [State.stageTx_eq]
  split <;> rename_i htx
  · exact ⟨ob, h⟩
  split <;> rename_i r hd
  · exact ⟨ob, h⟩
  obtain ⟨ob', rfl, hob'⟩ := h.outboxForm.dequeue_some (t := { s.setOwner r .txStaged with
    links := (s.links.dequeue .outbox).2, curTx := some r }) hd rfl rfl
  refine ⟨ob', ?_⟩
  have hr : s.ownerOf r = .outbox := (h.ownOutbox r).2 List.mem_cons_self
  have hnd := List.nodup_cons.1 h.outboxForm.nodup
  have hnext : ∀ j, j ≠ r → (s.links.dequeue .outbox).2.nextOf j = s.links.nextOf j := fun j hj => by
    rw [Links.dequeue_nextOf, hd, if_neg]; simpa using fun e => hj e.symm
  have how : ∀ i, ({ s.setOwner r .txStaged with links := (s.links.dequeue .outbox).2, curTx := some r } : State).ownerOf i =
      if i = r then .txStaged else s.ownerOf i := fun i => s.ownerOf_setOwner r i .txStaged
  have hne : ∀ i, s.ownerOf i ≠ .outbox → i ≠ r := fun i hi e => hi (e ▸ hr)
  have hw : s.freeWaiting ≠ some r := fun e => by
    have := (h.ownFree r).2 (.inr e); rw [hr] at this; cases this
  refine ⟨h.freeForm.congr rfl (s.links.dequeue_other (by decide)) fun i hi => hnext i ?_,
    h.inboxForm.congr rfl (s.links.dequeue_other (by decide)) fun i hi => hnext i ?_, hob', ?_, ?_, ?_, ?_, ?_, ?_, ?_⟩
  · exact hne i (by rw [(h.ownFree i).2 (.inl hi)]; decide)
  · exact hne i (by rw [(h.ownInbox i).2 hi]; decide)
  · intro i
    rw [how]
    by_cases hi : i = r
    · subst hi
      have hno : ¬ (i ∈ f ∨ s.freeWaiting = some i) := fun e => by
        have := (h.ownFree i).2 e; rw [hr] at this; cases this
      exact ⟨fun e => by simp at e, fun e => absurd e hno⟩
    · rw [if_neg hi]; exact h.ownFree i
  · intro i
    rw [how]
    by_cases hi : i = r
    · subst hi
      have hno : ¬ (i ∈ ib ∨ s.receiveHolds = some i) := fun e => by
        have := (h.ownInbox i).2 e; rw [hr] at this; cases this
      exact ⟨fun e => by simp at e, fun e => absurd e hno⟩
    · rw [if_neg hi]; exact h.ownInbox i
  · intro i
    rw [how]
    by_cases hi : i = r
    · subst hi; exact ⟨fun e => by simp at e, fun e => absurd e hnd.1⟩
    · rw [if_neg hi, h.ownOutbox i]; simp [hi]
  · intro i
    rw [how]
    by_cases hi : i = r
    · subst hi
      have hno : s.curRx ≠ some i := fun e => by have := (h.ownRx i).2 e; rw [hr] at this; cases this
      exact ⟨fun e => by simp at e, fun e => absurd e hno⟩
    · rw [if_neg hi]; exact h.ownRx i
  · intro i
    rw [how]
    by_cases hi : i = r
    · subst hi; simp
    · rw [if_neg hi, h.ownTx i, htx]; simpa using fun e => hi e.symm
  · exact h.waiting
  · intro i hi
    rw [how] at hi
    by_cases hir : i = r
    · subst hir
      exact (Links.dequeue_nextOf _ _ _).trans (by rw [hd]; simp)
    · rw [if_neg hir] at hi
      exact (hnext i hir).trans (h.cleared i hi)

/-- Receive disposal of a complete frame appends its buffer to INBOX (R168). -/
theorem QueueInv.disposeRx {s : State} {f ib ob : List BufIdx} {i : BufIdx} (h : QueueInv s f ib ob)
    (hi : s.curRx = some i) (hc : s.dmaRx.tcif = true) : QueueInv s.disposeRx f (ib ++ [i]) ob := by
  have hoi : s.ownerOf i = .rxStaged := (h.ownRx i).2 hi
  have hni : s.links.nextOf i = none := h.cleared i (.inr (.inl hoi))
  have hne : ∀ j, s.ownerOf j ≠ .rxStaged → j ≠ i := fun j hj e => hj (e ▸ hoi)
  have hib : i ∉ ib := fun e => by have := (h.ownInbox i).2 (.inl e); rw [hoi] at this; cases this
  have hih : s.receiveHolds ≠ some i := fun e => by have := (h.ownInbox i).2 (.inr e); rw [hoi] at this; cases this
  have hl : s.disposeRx.links = s.links.enqueue .inbox i := by
    unfold State.disposeRx; rw [hi]; simp [hc]
  have how : ∀ j, s.disposeRx.ownerOf j = if j = i then .inbox else s.ownerOf j := fun j => by
    have : s.disposeRx.ownerOf j = (s.crcFlag.setOwner i .inbox).ownerOf j := by
      unfold State.disposeRx; rw [hi]; simp [hc, State.ownerOf]
    rw [this, State.ownerOf_setOwner]; simp [State.ownerOf]
  have hcr : s.disposeRx.curRx = none := by unfold State.disposeRx; rw [hi]; simp [hc]
  have hlast : ∀ j, s.ownerOf j ≠ .inbox → s.disposeRx.links.nextOf j = s.links.nextOf j := fun j hj => by
    rw [hl, Links.enqueue_nextOf]
    exact fun e => hj ((h.ownInbox j).2 (.inl (h.inboxForm.mem_last e)))
  have hq : ∀ q, q ≠ .inbox → s.disposeRx.links.queue q = s.links.queue q := fun q hq => by
    rw [hl, Links.enqueue_other _ _ hq]
  have hw : s.disposeRx.freeWaiting = s.freeWaiting := by simp [State.freeWaiting]
  have hh : s.disposeRx.receiveHolds = s.receiveHolds := by simp [State.receiveHolds]
  have hfw : s.freeWaiting ≠ some i := fun e => by have := (h.ownFree i).2 (.inr e); rw [hoi] at this; cases this
  refine ⟨h.freeForm.congr (by simp) (hq _ (by decide)) fun j hj => hlast j ?_,
    h.inboxForm.enqueue hib hih hni (by simp) hl,
    h.outboxForm.congr (by simp) (hq _ (by decide)) fun j hj => hlast j ?_, ?_, ?_, ?_, ?_, ?_, ?_, ?_⟩
  · rw [(h.ownFree j).2 (.inl hj)]; decide
  · rw [(h.ownOutbox j).2 hj]; decide
  · intro j
    rw [how, hw]
    by_cases hj : j = i
    · subst hj
      have hno : ¬ (j ∈ f ∨ s.freeWaiting = some j) := fun e => by
        have := (h.ownFree j).2 e; rw [hoi] at this; cases this
      exact ⟨fun e => by simp at e, fun e => absurd e hno⟩
    · rw [if_neg hj]; exact h.ownFree j
  · intro j
    rw [how, hh]
    by_cases hj : j = i
    · subst hj; simp
    · rw [if_neg hj, h.ownInbox j]; simp [hj]
  · intro j
    rw [how]
    by_cases hj : j = i
    · subst hj
      have hno : j ∉ ob := fun e => by have := (h.ownOutbox j).2 e; rw [hoi] at this; cases this
      exact ⟨fun e => by simp at e, fun e => absurd e hno⟩
    · rw [if_neg hj]; exact h.ownOutbox j
  · intro j
    rw [how, hcr]
    by_cases hj : j = i
    · subst hj; simp
    · rw [if_neg hj, h.ownRx j, hi]; simpa using fun e => hj e.symm
  · intro j
    rw [how]
    by_cases hj : j = i
    · subst hj
      have hno : s.curTx ≠ some j := fun e => by have := (h.ownTx j).2 e; rw [hoi] at this; cases this
      exact ⟨fun e => by simp at e, fun e => absurd (by simpa using e) hno⟩
    · rw [if_neg hj]; simpa using h.ownTx j
  · rw [hw]; exact h.waiting
  · intro j hj
    rw [how, hw] at hj
    by_cases hji : j = i
    · subst hji; simp [hfw] at hj
    · rw [if_neg hji] at hj
      have hno : s.ownerOf j ≠ .inbox := fun e => by
        rcases hj with hj | hj | hj | hj
        · rw [e] at hj; cases hj
        · rw [e] at hj; cases hj
        · rw [e] at hj; cases hj
        · have := (h.ownFree j).2 (.inr hj); rw [e] at this; cases this
      exact (hlast j hno).trans (h.cleared j hj)

/-- Transmit disposal of a buffer sent to the end appends it to FREE (R169). -/
theorem QueueInv.disposeTx {s : State} {f ib ob : List BufIdx} {i : BufIdx} (h : QueueInv s f ib ob)
    (hi : s.curTx = some i) (hc : s.dmaTx.tcif = true) : QueueInv s.disposeTx (f ++ [i]) ib ob := by
  have hoi : s.ownerOf i = .txStaged := (h.ownTx i).2 hi
  have hni : s.links.nextOf i = none := h.cleared i (.inr (.inr (.inl hoi)))
  have hif : i ∉ f := fun e => by have := (h.ownFree i).2 (.inl e); rw [hoi] at this; cases this
  have hl : s.disposeTx.links = s.links.enqueue .free i := by
    unfold State.disposeTx; rw [hi]; simp [hc, State.freeInternal]
  have how : ∀ j, s.disposeTx.ownerOf j = if j = i then .free else s.ownerOf j := fun j => by
    have : s.disposeTx.ownerOf j = ((s.zeroHeader i).setOwner i .free).ownerOf j := by
      unfold State.disposeTx; rw [hi]; simp [hc, State.ownerOf, State.freeInternal]
    rw [this, State.ownerOf_setOwner]; simp [State.ownerOf]
  have hct : s.disposeTx.curTx = none := by unfold State.disposeTx; rw [hi]; simp [hc]
  have hlast : ∀ j, j ∉ f → s.disposeTx.links.nextOf j = s.links.nextOf j := fun j hj => by
    rw [hl, Links.enqueue_nextOf]
    exact fun e => hj (h.freeForm.mem_last e)
  have hq : ∀ q, q ≠ .free → s.disposeTx.links.queue q = s.links.queue q := fun q hq => by
    rw [hl, Links.enqueue_other _ _ hq]
  have hw : s.disposeTx.freeWaiting = s.freeWaiting := by simp [State.freeWaiting]
  have hh : s.disposeTx.receiveHolds = s.receiveHolds := by simp [State.receiveHolds]
  have hfw : s.freeWaiting ≠ some i := fun e => by have := (h.ownFree i).2 (.inr e); rw [hoi] at this; cases this
  have hnf : ∀ j, s.ownerOf j ≠ .free → j ∉ f := fun j hj e => hj ((h.ownFree j).2 (.inl e))
  refine ⟨h.freeForm.enqueue hif hni (by simp) hl,
    h.inboxForm.congr (by simp) (hq _ (by decide)) fun j hj => hlast j (hnf j ?_),
    h.outboxForm.congr (by simp) (hq _ (by decide)) fun j hj => hlast j (hnf j ?_), ?_, ?_, ?_, ?_, ?_, ?_, ?_⟩
  · rw [(h.ownInbox j).2 hj]; decide
  · rw [(h.ownOutbox j).2 hj]; decide
  · intro j
    rw [how, hw]
    by_cases hj : j = i
    · subst hj; simp
    · rw [if_neg hj, h.ownFree j]; simp [hj]
  · intro j
    rw [how, hh]
    by_cases hj : j = i
    · subst hj
      have hno : ¬ (j ∈ ib ∨ s.receiveHolds = some j) := fun e => by
        have := (h.ownInbox j).2 e; rw [hoi] at this; cases this
      exact ⟨fun e => by simp at e, fun e => absurd e hno⟩
    · rw [if_neg hj]; exact h.ownInbox j
  · intro j
    rw [how]
    by_cases hj : j = i
    · subst hj
      have hno : j ∉ ob := fun e => by have := (h.ownOutbox j).2 e; rw [hoi] at this; cases this
      exact ⟨fun e => by simp at e, fun e => absurd e hno⟩
    · rw [if_neg hj]; exact h.ownOutbox j
  · intro j
    rw [how]
    by_cases hj : j = i
    · subst hj
      have hno : s.curRx ≠ some j := fun e => by have := (h.ownRx j).2 e; rw [hoi] at this; cases this
      exact ⟨fun e => by simp at e, fun e => absurd (by simpa using e) hno⟩
    · rw [if_neg hj]; simpa using h.ownRx j
  · intro j
    rw [how, hct]
    by_cases hj : j = i
    · subst hj; simp
    · rw [if_neg hj, h.ownTx j, hi]; simpa using fun e => hj e.symm
  · intro j hj hm
    rw [hw] at hj
    rcases List.mem_append.1 hm with hm | hm
    · exact h.waiting j hj hm
    · obtain rfl : j = i := by simpa using hm
      exact hfw hj
  · intro j hj
    rw [how, hw] at hj
    by_cases hji : j = i
    · subst hji; simp [hfw] at hj
    · rw [if_neg hji] at hj
      have hno : j ∉ f := fun e => by
        have hfr := (h.ownFree j).2 (.inl e)
        rcases hj with hj | hj | hj | hj
        · rw [hfr] at hj; cases hj
        · rw [hfr] at hj; cases hj
        · rw [hfr] at hj; cases hj
        · exact h.waiting j hj e
      exact (hlast j hno).trans (h.cleared j hj)

end Sys2Proof.Machine
end

