-- ==== Sys2Proof/Laws/Client.lean ====
section
/-! SUPPORT. The client's micro-steps (41_pool_commands.md): each keeps the queue invariant, from the command position it
runs at to the one it leaves. -/

namespace Sys2Proof.Machine

/-! ### One owner changes -/

section Own
variable {s t : State} {x : BufIdx} {o o1 o2 : Owner} {P : BufIdx → Prop}

/-- An owner that is neither the old nor the new one of `x` keeps its buffers. -/
theorem own_keep (h : ∀ i, s.ownerOf i = o ↔ P i) (ht : ∀ i, t.ownerOf i = if i = x then o2 else s.ownerOf i)
    (hx : s.ownerOf x = o1) (h1 : o1 ≠ o) (h2 : o2 ≠ o) : ∀ i, t.ownerOf i = o ↔ P i := by
  intro i
  rw [ht, ← h]
  by_cases hi : i = x
  · subst hi; simp [hx, h1, h2]
  · rw [if_neg hi]

/-- The new owner of `x` has its old buffers and `x`. -/
theorem own_gain (h : ∀ i, s.ownerOf i = o ↔ P i) (ht : ∀ i, t.ownerOf i = if i = x then o else s.ownerOf i) :
    ∀ i, t.ownerOf i = o ↔ P i ∨ i = x := by
  intro i
  rw [ht, ← h]
  by_cases hi : i = x <;> simp [hi]

/-- The old owner of `x` keeps the others. -/
theorem own_lose (h : ∀ i, s.ownerOf i = o ↔ P i) (ht : ∀ i, t.ownerOf i = if i = x then o2 else s.ownerOf i)
    (h2 : o2 ≠ o) : ∀ i, t.ownerOf i = o ↔ P i ∧ i ≠ x := by
  intro i
  rw [ht, ← h]
  by_cases hi : i = x <;> simp [hi, h2]

end Own

/-- Nothing waits and nothing is held outside FREE and RECEIVE. -/
theorem freeWaiting_none {s : State} (h : s.cmd.pos ≠ .freeSwap) : s.freeWaiting = none := by
  simp [State.freeWaiting, h]

/-- `ALLOC` (R141) of a buffer that FREE gives. -/
theorem QueueInv.alloc {s t : State} {f ib ob : List BufIdx} {r : BufIdx} (h : QueueInv s f ib ob)
    (hd : (s.links.dequeue .free).1 = some r) (hl : t.links = (s.links.dequeue .free).2)
    (ho : ∀ i, t.ownerOf i = if i = r then .client else s.ownerOf i) (hrx : t.curRx = s.curRx) (htx : t.curTx = s.curTx)
    (hc : t.cmd = s.cmd) : ∃ f', f = r :: f' ∧ QueueInv t f' ib ob := by
  obtain ⟨f', rfl, hf'⟩ := h.freeForm.dequeue_some (t := t) hd hc hl
  refine ⟨f', rfl, ?_⟩
  have hr : s.ownerOf r = .free := (h.ownFree r).2 (.inl List.mem_cons_self)
  have hnd := List.nodup_cons.1 h.freeForm.nodup
  have hnext : ∀ j, j ≠ r → t.links.nextOf j = s.links.nextOf j := fun j hj => by
    rw [hl, Links.dequeue_nextOf, hd, if_neg]; simpa using fun e => hj e.symm
  have hw : ∀ i, s.freeWaiting = some i → i ≠ r := fun i hi e => h.waiting i hi (e ▸ List.mem_cons_self)
  have hwt : t.freeWaiting = s.freeWaiting := by simp [State.freeWaiting, hc]
  have hht : t.receiveHolds = s.receiveHolds := by simp [State.receiveHolds, hc]
  have hne : ∀ i, s.ownerOf i ≠ .free → i ≠ r := fun i hi e => hi (e ▸ hr)
  refine ⟨hf', h.inboxForm.congr hc (by rw [hl, s.links.dequeue_other (by decide)]) fun i hi => hnext i (hne i ?_),
    h.outboxForm.congr hc (by rw [hl, s.links.dequeue_other (by decide)]) fun i hi => hnext i (hne i ?_), ?_,
    ?_, own_keep h.ownOutbox ho hr (by decide) (by decide), ?_, ?_, ?_, ?_⟩
  · rw [(h.ownInbox i).2 hi]; decide
  · rw [(h.ownOutbox i).2 hi]; decide
  · intro i
    rw [own_lose h.ownFree ho (by decide), hwt]
    constructor
    · rintro ⟨hi | hi, hir⟩
      · exact .inl ((List.mem_cons.1 hi).resolve_left hir)
      · exact .inr hi
    · rintro (hi | hi)
      · exact ⟨.inl (List.mem_cons_of_mem _ hi), fun e => hnd.1 (e ▸ hi)⟩
      · exact ⟨.inr hi, hw i hi⟩
  · rw [hht]; exact own_keep h.ownInbox ho hr (by decide) (by decide)
  · rw [hrx]; exact own_keep h.ownRx ho hr (by decide) (by decide)
  · rw [htx]; exact own_keep h.ownTx ho hr (by decide) (by decide)
  · intro i hi hm; rw [hwt] at hi; exact h.waiting i hi (List.mem_cons_of_mem _ hm)
  · intro i hi
    rw [ho, hwt] at hi
    by_cases hir : i = r
    · subst hir; rw [hl, Links.dequeue_nextOf, hd]; simp
    · rw [if_neg hir] at hi
      exact (hnext i hir).trans (h.cleared i hi)

/-- `FREE.ZERO` (R142): the buffer waits for its enqueue. -/
theorem QueueInv.freeZero {s t : State} {f ib ob : List BufIdx} {x : BufIdx} (h : QueueInv s f ib ob)
    (hp : s.cmd.pos = .idle) (hx : s.ownerOf x = .client) (hl : t.links = s.links)
    (ho : ∀ i, t.ownerOf i = if i = x then .free else s.ownerOf i) (hrx : t.curRx = s.curRx) (htx : t.curTx = s.curTx)
    (htp : t.cmd.pos = .freeSwap) (htxx : t.cmd.x = x) : QueueInv t f ib ob := by
  have hw : s.freeWaiting = none := freeWaiting_none (by rw [hp]; decide)
  have hh : s.receiveHolds = none := by simp [State.receiveHolds, hp]
  have hwt : t.freeWaiting = some x := by simp [State.freeWaiting, htp, htxx]
  have hht : t.receiveHolds = none := by simp [State.receiveHolds, htp]
  obtain ⟨h1, h2, h3, h4, h5, h6, h7, h8, h9, h10⟩ := h
  have hxf : x ∉ f := fun e => by have := (h4 x).2 (.inl e); rw [hx] at this; cases this
  refine ⟨?_, ?_, ?_, ?_, ?_, own_keep h6 ho hx (by decide) (by decide), ?_, ?_, ?_, ?_⟩
  · unfold FreeForm at h1 ⊢; rw [hp] at h1; rw [htp, hl]; exact h1
  · unfold InboxForm at h2 ⊢; rw [hp] at h2; rw [htp, hl]; exact h2
  · unfold OutboxForm at h3 ⊢; rw [hp] at h3; rw [htp, hl]; exact h3
  · intro i
    rw [own_gain h4 ho, hw, hwt]
    simp [eq_comm]
  · rw [hht]; rw [hh] at h5; exact own_keep h5 ho hx (by decide) (by decide)
  · rw [hrx]; exact own_keep h7 ho hx (by decide) (by decide)
  · rw [htx]; exact own_keep h8 ho hx (by decide) (by decide)
  · intro i hi; rw [hwt] at hi; cases hi; exact hxf
  · intro i hi
    rw [hl]
    rw [ho, hwt] at hi
    by_cases hix : i = x
    · subst hix; exact h10 i (.inl hx)
    · rw [if_neg hix] at hi
      refine h10 i ?_
      rcases hi with hi | hi | hi | hi
      · exact .inl hi
      · exact .inr (.inl hi)
      · exact .inr (.inr (.inl hi))
      · exact absurd (by simpa using hi.symm) hix

/-- `FREE.SWAP` (R142): the enqueue is in flight. -/
theorem QueueInv.freeSwap {s : State} {f ib ob : List BufIdx} (h : QueueInv s f ib ob) (hp : s.cmd.pos = .freeSwap) :
    QueueInv s.freeSwap (f ++ [s.cmd.x]) ib ob := by
  have hw : s.freeWaiting = some s.cmd.x := by simp [State.freeWaiting, hp]
  have hh : s.receiveHolds = none := by simp [State.receiveHolds, hp]
  have hwt : s.freeSwap.freeWaiting = none := by simp [State.freeWaiting, State.freeSwap]
  have hht : s.freeSwap.receiveHolds = none := by simp [State.receiveHolds, State.freeSwap]
  obtain ⟨h1, h2, h3, h4, h5, h6, h7, h8, h9, h10⟩ := h
  have hn : ∀ j, s.freeSwap.links.nextOf j = s.links.nextOf j := fun j => by simp [State.freeSwap, Links.enqSwap]
  have hq : ∀ q, q ≠ .free → s.freeSwap.links.queue q = s.links.queue q := fun q hq => by
    simp [State.freeSwap, Links.enqSwap, Links.swapLast_other _ _ hq]
  have hxf : s.cmd.x ∉ f := h9 _ hw
  have hxn : s.links.nextOf s.cmd.x = none := h10 _ (.inr (.inr (.inr hw)))
  refine ⟨⟨f, [], by simp [State.freeSwap], ?_⟩, ?_, ?_, ?_, ?_, h6, h7, h8, ?_, ?_⟩
  · unfold FreeForm at h1; rw [hp] at h1; exact h1.enqSwap hxf hxn
  · unfold InboxForm at h2 ⊢; rw [hp] at h2
    exact Quiescent.congr h2 (hq _ (by decide)) fun i _ => hn i
  · unfold OutboxForm at h3 ⊢; rw [hp] at h3
    exact Quiescent.congr h3 (hq _ (by decide)) fun i _ => hn i
  · intro i
    rw [hwt]
    refine (h4 i).trans ?_
    rw [hw]; simp [eq_comm]
  · intro i; rw [hht]; rw [hh] at h5; exact h5 i
  · intro i hi; rw [hwt] at hi; cases hi
  · intro i hi
    rw [hn]
    rw [hwt] at hi
    refine h10 i ?_
    rcases hi with hi | hi | hi | hi
    · exact .inl hi
    · exact .inr (.inl hi)
    · exact .inr (.inr (.inl hi))
    · cases hi

/-- The links an ENQ.LINK writes: of nodes in the queue only. -/
theorem EnqueueInFlight.enqLink_nextOf {l : Links} {q : QueueName} {p : NodeRef} {x : BufIdx} {a b : List BufIdx}
    (hf : EnqueueInFlight l q p x a b) {j : BufIdx} (hj : j ∉ a ++ x :: b) :
    (l.enqLink q p x).nextOf j = l.nextOf j :=
  Links.setNxt_nextOf _ _ _ _ fun e => hj (List.mem_append_left _ (mem_of_tailRef (hf.prev.symm.trans e)))

/-- `FREE.LINK` (R142). -/
theorem QueueInv.freeLink {s : State} {f ib ob : List BufIdx} (h : QueueInv s f ib ob) (hp : s.cmd.pos = .freeLink) :
    QueueInv s.freeLink f ib ob := by
  have hw : s.freeWaiting = none := by simp [State.freeWaiting, hp]
  have hh : s.receiveHolds = none := by simp [State.receiveHolds, hp]
  have hwt : s.freeLink.freeWaiting = none := by simp [State.freeWaiting, State.freeLink]
  have hht : s.freeLink.receiveHolds = none := by simp [State.receiveHolds, State.freeLink]
  obtain ⟨h1, h2, h3, h4, h5, h6, h7, h8, h9, h10⟩ := h
  unfold FreeForm at h1; rw [hp] at h1
  obtain ⟨a, b, rfl, hf⟩ := h1
  have hn : ∀ j, j ∉ a ++ s.cmd.x :: b → s.freeLink.links.nextOf j = s.links.nextOf j := fun j hj =>
    hf.enqLink_nextOf hj
  have hq : ∀ q, q ≠ .free → s.freeLink.links.queue q = s.links.queue q := fun q hq => by
    simp [State.freeLink, Links.enqLink, Links.setNxt_other _ _ _ hq]
  have hno : ∀ j, s.ownerOf j ≠ .free → s.freeLink.links.nextOf j = s.links.nextOf j := fun j hj =>
    hn j fun e => hj ((h4 j).2 (.inl e))
  refine ⟨?_, ?_, ?_, ?_, ?_, h6, h7, h8, ?_, ?_⟩
  · exact hf.enqLink
  · unfold InboxForm at h2 ⊢; rw [hp] at h2
    exact Quiescent.congr h2 (hq _ (by decide)) fun i hi => hno i (by rw [(h5 i).2 (.inl hi)]; decide)
  · unfold OutboxForm at h3 ⊢; rw [hp] at h3
    exact Quiescent.congr h3 (hq _ (by decide)) fun i hi => hno i (by rw [(h6 i).2 hi]; decide)
  · intro i; rw [hwt]; rw [hw] at h4; exact h4 i
  · intro i; rw [hht]; rw [hh] at h5; exact h5 i
  · intro i hi; rw [hwt] at hi; cases hi
  · intro i hi
    rw [hwt] at hi
    have hi' : s.ownerOf i = .client ∨ s.ownerOf i = .rxStaged ∨ s.ownerOf i = .txStaged := by
      rcases hi with hi | hi | hi | hi
      · exact .inl hi
      · exact .inr (.inl hi)
      · exact .inr (.inr hi)
      · cases hi
    rw [hno i (by rcases hi' with e | e | e <;> rw [e] <;> decide)]
    exact h10 i (by rcases hi' with e | e | e <;> simp [e])

/-- `SEND.SWAP` (R143). -/
theorem QueueInv.sendSwap {s t : State} {f ib ob : List BufIdx} {x : BufIdx} (h : QueueInv s f ib ob)
    (hp : s.cmd.pos = .idle) (hx : s.ownerOf x = .client) (hl : t.links = (s.links.enqSwap .outbox x).2)
    (ho : ∀ i, t.ownerOf i = if i = x then .outbox else s.ownerOf i) (hrx : t.curRx = s.curRx) (htx : t.curTx = s.curTx)
    (htp : t.cmd.pos = .sendLink) (htxx : t.cmd.x = x) (htpp : t.cmd.p = (s.links.enqSwap .outbox x).1) :
    QueueInv t f ib (ob ++ [x]) := by
  have hw : s.freeWaiting = none := freeWaiting_none (by rw [hp]; decide)
  have hh : s.receiveHolds = none := by simp [State.receiveHolds, hp]
  have hwt : t.freeWaiting = none := by simp [State.freeWaiting, htp]
  have hht : t.receiveHolds = none := by simp [State.receiveHolds, htp]
  obtain ⟨h1, h2, h3, h4, h5, h6, h7, h8, h9, h10⟩ := h
  have hn : ∀ j, t.links.nextOf j = s.links.nextOf j := fun j => by simp [hl, Links.enqSwap]
  have hq : ∀ q, q ≠ .outbox → t.links.queue q = s.links.queue q := fun q hq => by
    simp [hl, Links.enqSwap, Links.swapLast_other _ _ hq]
  have hxo : x ∉ ob := fun e => by have := (h6 x).2 e; rw [hx] at this; cases this
  have hxn : s.links.nextOf x = none := h10 _ (.inl hx)
  refine ⟨?_, ?_, ?_, ?_, ?_, ?_, ?_, ?_, ?_, ?_⟩
  · unfold FreeForm at h1 ⊢; rw [hp] at h1; rw [htp]
    exact Quiescent.congr h1 (hq _ (by decide)) fun i _ => hn i
  · unfold InboxForm at h2 ⊢; rw [hp] at h2; rw [htp]
    exact Quiescent.congr h2 (hq _ (by decide)) fun i _ => hn i
  · unfold OutboxForm at h3 ⊢; rw [hp] at h3; rw [htp]
    refine ⟨ob, [], by rw [htxx], ?_⟩
    rw [hl, htpp, htxx]
    exact Quiescent.enqSwap h3 hxo hxn
  · rw [hwt]; rw [hw] at h4; exact own_keep h4 ho hx (by decide) (by decide)
  · rw [hht]; rw [hh] at h5; exact own_keep h5 ho hx (by decide) (by decide)
  · intro i; rw [own_gain h6 ho]; simp
  · rw [hrx]; exact own_keep h7 ho hx (by decide) (by decide)
  · rw [htx]; exact own_keep h8 ho hx (by decide) (by decide)
  · intro i hi; rw [hwt] at hi; cases hi
  · intro i hi
    rw [hn]
    rw [ho, hwt] at hi
    by_cases hix : i = x
    · subst hix; exact hxn
    · rw [if_neg hix] at hi
      refine h10 i ?_
      rcases hi with hi | hi | hi | hi
      · exact .inl hi
      · exact .inr (.inl hi)
      · exact .inr (.inr (.inl hi))
      · cases hi

/-- `SEND.LINK` (R143). -/
theorem QueueInv.sendLink {s : State} {f ib ob : List BufIdx} (h : QueueInv s f ib ob) (hp : s.cmd.pos = .sendLink) :
    QueueInv s.sendLink f ib ob := by
  have hw : s.freeWaiting = none := by simp [State.freeWaiting, hp]
  have hh : s.receiveHolds = none := by simp [State.receiveHolds, hp]
  have hwt : s.sendLink.freeWaiting = none := by simp [State.freeWaiting, State.sendLink]
  have hht : s.sendLink.receiveHolds = none := by simp [State.receiveHolds, State.sendLink]
  obtain ⟨h1, h2, h3, h4, h5, h6, h7, h8, h9, h10⟩ := h
  unfold OutboxForm at h3; rw [hp] at h3
  obtain ⟨a, b, rfl, hf⟩ := h3
  have hn : ∀ j, j ∉ a ++ s.cmd.x :: b → s.sendLink.links.nextOf j = s.links.nextOf j := fun j hj =>
    hf.enqLink_nextOf hj
  have hq : ∀ q, q ≠ .outbox → s.sendLink.links.queue q = s.links.queue q := fun q hq => by
    simp [State.sendLink, Links.enqLink, Links.setNxt_other _ _ _ hq]
  have hno : ∀ j, s.ownerOf j ≠ .outbox → s.sendLink.links.nextOf j = s.links.nextOf j := fun j hj =>
    hn j fun e => hj ((h6 j).2 e)
  refine ⟨?_, ?_, ?_, ?_, ?_, h6, h7, h8, ?_, ?_⟩
  · unfold FreeForm at h1 ⊢; rw [hp] at h1
    exact Quiescent.congr h1 (hq _ (by decide)) fun i hi => hno i (by rw [(h4 i).2 (.inl hi)]; decide)
  · unfold InboxForm at h2 ⊢; rw [hp] at h2
    exact Quiescent.congr h2 (hq _ (by decide)) fun i hi => hno i (by rw [(h5 i).2 (.inl hi)]; decide)
  · exact hf.enqLink
  · intro i; rw [hwt]; rw [hw] at h4; exact h4 i
  · intro i; rw [hht]; rw [hh] at h5; exact h5 i
  · intro i hi; rw [hwt] at hi; cases hi
  · intro i hi
    rw [hwt] at hi
    have hi' : s.ownerOf i = .client ∨ s.ownerOf i = .rxStaged ∨ s.ownerOf i = .txStaged := by
      rcases hi with hi | hi | hi | hi
      · exact .inl hi
      · exact .inr (.inl hi)
      · exact .inr (.inr hi)
      · cases hi
    rw [hno i (by rcases hi' with e | e | e <;> rw [e] <;> decide)]
    exact h10 i (by rcases hi' with e | e | e <;> simp [e])

/-! ### RECEIVE -/

/-- A micro-step of RECEIVE that leaves FREE, OUTBOX, the links of all nodes and the ownership as they are. -/
theorem QueueInv.receiveStep {s t : State} {f ib ib' ob : List BufIdx} (h : QueueInv s f ib ob)
    (hp : s.cmd.pos ≠ .freeLink ∧ s.cmd.pos ≠ .sendLink ∧ s.cmd.pos ≠ .freeSwap)
    (htp : t.cmd.pos ≠ .freeLink ∧ t.cmd.pos ≠ .sendLink ∧ t.cmd.pos ≠ .freeSwap)
    (hq : ∀ q, q ≠ .inbox → t.links.queue q = s.links.queue q) (hn : ∀ j, t.links.nextOf j = s.links.nextOf j)
    (ho : t.owner = s.owner) (hrx : t.curRx = s.curRx) (htx : t.curTx = s.curTx) (hf : InboxForm t ib')
    (hi : ∀ i, (i ∈ ib ∨ s.receiveHolds = some i) ↔ (i ∈ ib' ∨ t.receiveHolds = some i)) : QueueInv t f ib' ob := by
  have hw : s.freeWaiting = none := freeWaiting_none hp.2.2
  have hwt : t.freeWaiting = none := freeWaiting_none htp.2.2
  have how : ∀ i, t.ownerOf i = s.ownerOf i := fun i => by simp [State.ownerOf, ho]
  obtain ⟨h1, h2, h3, h4, h5, h6, h7, h8, h9, h10⟩ := h
  refine ⟨?_, hf, ?_, ?_, ?_, ?_, ?_, ?_, ?_, ?_⟩
  · rw [freeForm_iff htp.1]
    exact ((freeForm_iff hp.1).1 h1).congr (hq _ (by decide)) fun i _ => hn i
  · rw [outboxForm_iff htp.2.1]
    exact ((outboxForm_iff hp.2.1).1 h3).congr (hq _ (by decide)) fun i _ => hn i
  · intro i; rw [how, hwt]; rw [hw] at h4; exact h4 i
  · intro i; rw [how]; exact (h5 i).trans (hi i)
  · intro i; rw [how]; exact h6 i
  · intro i; rw [how, hrx]; exact h7 i
  · intro i; rw [how, htx]; exact h8 i
  · intro i hi; rw [hwt] at hi; cases hi
  · intro i hi; rw [hn]; rw [how, hwt] at hi; rw [hw] at h10; exact h10 i hi

/-- `RECEIVE.HEAD` (R144). -/
theorem QueueInv.recvHead {s t : State} {f ib ob : List BufIdx} {b : BufIdx} (h : QueueInv s f ib ob)
    (hp : s.cmd.pos = .idle) (hb : s.links.inbox.head = some b) (hl : t.links = s.links) (ho : t.owner = s.owner)
    (hrx : t.curRx = s.curRx) (htx : t.curTx = s.curTx) (htp : t.cmd.pos = .recvLone) (hth : t.cmd.h = b) :
    QueueInv t f ib ob := by
  refine h.receiveStep (by simp [hp]) (by simp [htp]) (fun q _ => by rw [hl]) (fun j => by rw [hl]) ho hrx htx ?_
    (by simp [State.receiveHolds, hp, htp])
  have h2 := h.inboxForm
  unfold InboxForm at h2 ⊢; rw [hp] at h2; rw [htp, hl, hth]
  exact ⟨h2, h2.head.symm.trans hb⟩

/-- `RECEIVE.LONE` (R144). -/
theorem QueueInv.recvLone {s : State} {f ib ob : List BufIdx} (h : QueueInv s f ib ob) (hp : s.cmd.pos = .recvLone) :
    ∃ ib', QueueInv s.recvLone f ib' ob := by
  have h2 := h.inboxForm
  unfold InboxForm at h2; rw [hp] at h2
  obtain ⟨hq, hh⟩ := h2
  have hno : ∀ q, q ≠ .inbox → s.recvLone.links.queue q = s.links.queue q := fun q hq => s.links.deqLone_other _ hq
  have hn : ∀ j, s.recvLone.links.nextOf j = s.links.nextOf j := fun j => s.links.deqLone_nextOf _ _ _
  by_cases hl : (s.links.queue .inbox).last = .node s.cmd.h
  · -- the lone node
    have hone : ib = [s.cmd.h] := by
      cases ib with
      | nil => simp at hh
      | cons a c =>
        obtain rfl : a = s.cmd.h := by simpa using hh
        cases c with
        | nil => rfl
        | cons b c =>
          have := hq.last.symm.trans hl
          rw [tailRef_cons_cons] at this
          exact absurd (mem_of_tailRef this) (List.nodup_cons.1 hq.nodup).1
    refine ⟨[], h.receiveStep (by simp [hp]) (by simp [State.recvLone]) hno hn rfl rfl rfl ?_ ?_⟩
    · simp only [InboxForm, State.recvLone, Links.deqLone_eq, if_pos hl, if_true]
      refine ⟨by simp, rfl, ?_, by simp, ?_⟩
      · simpa [hone] using hq.head
      · simpa using nextOf_tail (l := s.links) (c := ib) hq.chain (hq.last.symm.trans hl)
    · intro i
      simp [State.receiveHolds, hp, State.recvLone, Links.deqLone_eq, hl, hone, eq_comm]
  · refine ⟨ib, h.receiveStep (by simp [hp]) (by simp [State.recvLone]) hno hn rfl rfl rfl ?_ ?_⟩
    · simp only [InboxForm, State.recvLone, Links.deqLone_eq, if_neg hl]
      refine ⟨hq, hh, ?_⟩
      match ib, hh, hq with
      | [a], hh, hq => exact absurd (hq.last.trans (by simp at hh; simp [hh])) hl
      | a :: b :: c, _, _ => simp
    · intro i
      simp [State.receiveHolds, hp, State.recvLone, Links.deqLone_eq, hl]

/-- `RECEIVE.SUCC` (R144); its guard does not fire. -/
theorem QueueInv.recvSucc {s : State} {f ib ob : List BufIdx} (h : QueueInv s f ib ob) (hp : s.cmd.pos = .recvSucc) :
    QueueInv s.recvSucc f ib ob := by
  have h2 := h.inboxForm
  unfold InboxForm at h2; rw [hp] at h2
  cases hlo : s.cmd.lone with
  | true =>
    simp only [hlo, if_true] at h2
    have he : s.recvSucc = { s with cmd := { s.cmd with pos := .recvUnlink, s := s.links.nextOf s.cmd.h } } := by
      simp [State.recvSucc, Links.deqSucc, hlo]
    rw [he]
    refine h.receiveStep (by simp [hp]) (by simp) (fun _ _ => rfl) (fun _ => rfl) rfl rfl rfl ?_
      (by simp [State.receiveHolds, hp, hlo])
    simp only [InboxForm, hlo, if_true]
    exact ⟨h2, h2.cleared⟩
  | false =>
    simp only [hlo] at h2
    obtain ⟨hq, hh, hlen⟩ := h2
    have hn : s.links.nextOf s.cmd.h ≠ none := by
      match ib, hh, hlen, hq with
      | a :: b :: c, hh, _, hq =>
        obtain rfl : a = s.cmd.h := by simpa using hh
        rw [((chainOk_cons _ _ _).1 hq.chain).1]; simp
    have he : s.recvSucc = { s with cmd := { s.cmd with pos := .recvUnlink, s := s.links.nextOf s.cmd.h } } := by
      simp [State.recvSucc, Links.deqSucc, hn]
    rw [he]
    refine h.receiveStep (by simp [hp]) (by simp) (fun _ _ => rfl) (fun _ => rfl) rfl rfl rfl ?_
      (by simp [State.receiveHolds, hp, hlo])
    simp only [InboxForm, hlo]
    exact ⟨hq, hh, hlen, trivial⟩

/-- `RECEIVE.UNLINK` (R144). -/
theorem QueueInv.recvUnlink {s : State} {f ib ob : List BufIdx} (h : QueueInv s f ib ob)
    (hp : s.cmd.pos = .recvUnlink) : ∃ ib', QueueInv s.recvUnlink f ib' ob := by
  have h2 := h.inboxForm
  unfold InboxForm at h2; rw [hp] at h2
  have hno : ∀ q, q ≠ .inbox → s.recvUnlink.links.queue q = s.links.queue q := fun q hq =>
    s.links.casHead_other _ _ hq
  have hn : ∀ j, s.recvUnlink.links.nextOf j = s.links.nextOf j := fun j => s.links.casHead_nextOf _ _ _ _
  have hlast : (s.recvUnlink.links.queue .inbox).last = (s.links.queue .inbox).last := s.links.casHead_last _ _ _
  have hhead : (s.recvUnlink.links.queue .inbox).head =
      if (s.links.queue .inbox).head = some s.cmd.h then s.cmd.s else (s.links.queue .inbox).head := by
    simp only [State.recvUnlink, Links.deqUnlink, Links.casHead]; split <;> simp
  cases hlo : s.cmd.lone with
  | true =>
    simp only [hlo, if_true] at h2
    obtain ⟨hq, hs⟩ := h2
    have hnd := List.nodup_cons.1 hq.nodup
    refine ⟨ib, h.receiveStep (by simp [hp]) (by simp [State.recvUnlink]) hno hn rfl rfl rfl ?_ ?_⟩
    · simp only [InboxForm, State.recvUnlink]
      refine ⟨⟨hnd.2, (chainOk_congr fun i _ => hn i).trans hq.chain, hhead.trans ?_, hlast.trans hq.last⟩, hnd.1⟩
      rw [hq.head]
      cases ib with
      | nil => simpa using hs
      | cons a c =>
        have : a ≠ s.cmd.h := fun e => hnd.1 (e ▸ List.mem_cons_self)
        simp [this]
    · intro i
      simp [State.receiveHolds, hp, hlo, State.recvUnlink]
  | false =>
    simp only [hlo] at h2
    obtain ⟨hq, hh, hlen, hs⟩ := h2
    match ib, hh, hlen, hq with
    | a :: b :: c, hh, _, hq =>
      obtain rfl : a = s.cmd.h := by simpa using hh
      have hnd := List.nodup_cons.1 hq.nodup
      obtain ⟨hc1, hc2⟩ := (chainOk_cons _ _ _).1 hq.chain
      refine ⟨b :: c, h.receiveStep (by simp [hp]) (by simp [State.recvUnlink]) hno hn rfl rfl rfl ?_ ?_⟩
      · simp only [InboxForm, State.recvUnlink]
        refine ⟨⟨hnd.2, (chainOk_congr fun i _ => hn i).trans hc2, hhead.trans ?_, hlast.trans ?_⟩, hnd.1⟩
        · rw [hq.head]; simp [hs, hc1]
        · rw [hq.last, tailRef_cons_cons]
      · intro i
        simp [State.receiveHolds, hp, hlo, State.recvUnlink, or_comm, eq_comm]

/-- `RECEIVE.CLEAR` (R144): the node is the client's. -/
theorem QueueInv.recvClear {s : State} {f ib ob : List BufIdx} (h : QueueInv s f ib ob)
    (hp : s.cmd.pos = .recvClear) : QueueInv s.recvClear f ib ob := by
  have hw : s.freeWaiting = none := by simp [State.freeWaiting, hp]
  have hh : s.receiveHolds = some s.cmd.h := by simp [State.receiveHolds, hp]
  have hwt : s.recvClear.freeWaiting = none := by simp [State.freeWaiting, State.recvClear]
  have hht : s.recvClear.receiveHolds = none := by simp [State.receiveHolds, State.recvClear]
  have ho : ∀ i, s.recvClear.ownerOf i = if i = s.cmd.h then .client else s.ownerOf i := fun i =>
    s.ownerOf_setOwner s.cmd.h i .client
  have hn : ∀ j, j ≠ s.cmd.h → s.recvClear.links.nextOf j = s.links.nextOf j := fun j hj =>
    s.links.nextOf_setNext_ne _ hj
  have hq : ∀ q, s.recvClear.links.queue q = s.links.queue q := fun q => s.links.queue_setNext _ _ _
  obtain ⟨h1, h2, h3, h4, h5, h6, h7, h8, h9, h10⟩ := h
  unfold InboxForm at h2; rw [hp] at h2
  obtain ⟨hib, hhib⟩ := h2
  have hx : s.ownerOf s.cmd.h = .inbox := (h5 _).2 (.inr hh)
  refine ⟨?_, ?_, ?_, ?_, ?_, own_keep h6 ho hx (by decide) (by decide), own_keep h7 ho hx (by decide) (by decide),
    own_keep h8 ho hx (by decide) (by decide), ?_, ?_⟩
  · unfold FreeForm at h1 ⊢; rw [hp] at h1
    exact Quiescent.congr h1 (hq _) fun i hi => hn i fun e => by
      have := (h4 i).2 (.inl hi); rw [e, hx] at this; cases this
  · unfold InboxForm
    exact Quiescent.congr hib (hq _) fun i hi => hn i fun e => hhib (e ▸ hi)
  · unfold OutboxForm at h3 ⊢; rw [hp] at h3
    exact Quiescent.congr h3 (hq _) fun i hi => hn i fun e => by
      have := (h6 i).2 hi; rw [e, hx] at this; cases this
  · rw [hwt]; rw [hw] at h4; exact own_keep h4 ho hx (by decide) (by decide)
  · intro i
    rw [own_lose h5 ho (by decide), hht, hh]
    constructor
    · rintro ⟨hi | hi, hne⟩
      · exact .inl hi
      · exact absurd (by simpa using hi.symm) hne
    · rintro (hi | hi)
      · exact ⟨.inl hi, fun e => hhib (e ▸ hi)⟩
      · cases hi
  · intro i hi; rw [hwt] at hi; cases hi
  · intro i hi
    by_cases hih : i = s.cmd.h
    · subst hih; exact s.links.nextOf_setNext_self _ _
    · rw [ho, if_neg hih, hwt] at hi
      rw [hn i hih]
      rw [hw] at h10
      exact h10 i hi

end Sys2Proof.Machine
end

