-- ==== Sys2Proof/Laws/Exchange.lean ====
section
/-! SUPPORT. An exchange (42_transaction.md): what it can write at all, what the outgoing and the incoming byte do in each
range of `k` with the channels armed, and which pool bytes stay. -/

namespace Sys2Proof.Machine

/-! ### The outgoing byte -/

theorem State.outgoing_lead (c : Config) {k : Nat} (s : State) (hl : c.lead = 1) (hk : k = 0) :
    s.outgoing c k = (s.spi.lead, s) := by
  simp [State.outgoing, hl, hk]

theorem State.outgoing_data (c : Config) {k : Nat} (s : State) (hl : c.lead = 1) (h1 : 1 ≤ k) (h2 : k ≤ 36)
    (he : s.dmaTx.en = true) :
    s.outgoing c k = (s.memRead s.dmaTx.idx s.dmaTx.pos,
      { s.crcTxStep c.linkCrc (s.memRead s.dmaTx.idx s.dmaTx.pos) with dmaTx := s.dmaTx.advance }) := by
  have h3 : ¬ k < 1 := by omega
  have h4 : k < 1 + 36 := by omega
  simp only [State.outgoing, hl, c.dataBytes_eq, h3, h4, he, if_true, if_false]

theorem State.outgoing_crc (c : Config) {k : Nat} (s : State) (hl : c.lead = 1) (hk : k = 37) :
    s.outgoing c k = (s.spi.txcrc, s) := by
  simp [State.outgoing, hl, hk, c.dataBytes_eq]

theorem State.outgoing_beyond (c : Config) {k : Nat} (s : State) (hl : c.lead = 1) (hk : 38 ≤ k) :
    s.outgoing c k = (Config.draw s.draws, { s with draws := s.draws + 1 }) := by
  have h3 : ¬ k < 1 := by omega
  have h4 : ¬ k < 1 + 36 := by omega
  have h5 : k ≠ 1 + 36 := by omega
  simp only [State.outgoing, hl, c.dataBytes_eq, h3, h4, h5, if_false]
  rfl

/-- All that the outgoing byte can write. -/
theorem State.outgoing_frame (c : Config) (k : Nat) (s : State) :
    (s.outgoing c k).2 = { s with
      spi := { s.spi with txcrc := (s.outgoing c k).2.spi.txcrc }
      dmaTx := (s.outgoing c k).2.dmaTx
      draws := (s.outgoing c k).2.draws } := by
  unfold State.outgoing
  split
  · rfl
  · split
    · split <;> rfl
    · split <;> rfl

/-! ### The incoming byte -/

theorem State.incoming_data (c : Config) {k : Nat} (m : Byte) (s : State) (h : k < 36) (he : s.dmaRx.en = true) :
    s.incoming c k m =
      { (s.crcRxStep c.linkCrc m).memWrite s.dmaRx.idx ⟨k, by omega⟩ m with dmaRx := s.dmaRx.receivedAt k h } := by
  simp [State.incoming, h, he, c.dataBytes_eq]

theorem State.incoming_crc (c : Config) {k : Nat} (m : Byte) (s : State) (hk : k = 36) (he : s.dmaRx.en = true) :
    s.incoming c k m =
      { (s.crcRxCheck m).draw.2.memWrite s.dmaRx.idx offCrcSlot (s.crcRxCheck m).draw.1 with
        dmaRx := s.dmaRx.receivedAll } := by
  subst hk; simp [State.incoming, he, c.dataBytes_eq]

theorem State.incoming_beyond (c : Config) {k : Nat} (m : Byte) (s : State) (hk : 37 ≤ k) : s.incoming c k m = s := by
  have h1 : ¬ k < 36 := by omega
  have h2 : k ≠ 36 := by omega
  simp [State.incoming, h1, h2, c.dataBytes_eq]

theorem State.memWrite_frame (s : State) (t : Target) (o : Offset) (v : Byte) :
    s.memWrite t o v = { s with pool := (s.memWrite t o v).pool } := by cases t <;> rfl

/-- All that the incoming byte can write. -/
theorem State.incoming_frame (c : Config) (k : Nat) (m : Byte) (s : State) :
    s.incoming c k m = { s with
      pool := (s.incoming c k m).pool
      spi := { s.spi with rxcrc := (s.incoming c k m).spi.rxcrc, crcerr := (s.incoming c k m).spi.crcerr }
      dmaRx := (s.incoming c k m).dmaRx
      draws := (s.incoming c k m).draws } := by
  unfold State.incoming
  split
  · split
    · rw [State.memWrite_frame]; rfl
    · rfl
  · split
    · split
      · rw [State.memWrite_frame]; rfl
      · rfl
    · rfl

/-- All that an exchange can write. -/
theorem State.exchange_frame (c : Config) (m : Byte) (s : State) :
    s.exchange c m = { s with
      pool := (s.exchange c m).pool
      dmaRx := (s.exchange c m).dmaRx
      dmaTx := (s.exchange c m).dmaTx
      spi := (s.exchange c m).spi
      miso := (s.exchange c m).miso
      draws := (s.exchange c m).draws } := by
  unfold State.exchange
  simp only
  rw [State.incoming_frame, State.outgoing_frame]

/-! ### An exchange -/

@[simp] theorem State.exchange_k (c : Config) (m : Byte) (s : State) : (s.exchange c m).spi.k = s.spi.k + 1 := rfl
@[simp] theorem State.exchange_miso (c : Config) (m : Byte) (s : State) :
    (s.exchange c m).miso = some (s.outgoing c s.spi.k).1 := rfl

@[simp] theorem State.exchange_lead (c : Config) (m : Byte) (s : State) : (s.exchange c m).spi.lead = s.spi.lead := by
  unfold State.exchange
  simp only
  rw [State.incoming_frame, State.outgoing_frame]

theorem State.exchange_dmaTx (c : Config) (m : Byte) (s : State) :
    (s.exchange c m).dmaTx = (s.outgoing c s.spi.k).2.dmaTx := by
  unfold State.exchange
  simp only
  rw [State.incoming_frame]

theorem State.exchange_txcrc (c : Config) (m : Byte) (s : State) :
    (s.exchange c m).spi.txcrc = (s.outgoing c s.spi.k).2.spi.txcrc := by
  unfold State.exchange
  simp only
  rw [State.incoming_frame]

/-- The receive side of an exchange of a data byte (R172). -/
theorem State.exchange_rx_data (c : Config) (m : Byte) (s : State) (h : s.spi.k < 36) (he : s.dmaRx.en = true) :
    (s.exchange c m).dmaRx = s.dmaRx.receivedAt s.spi.k h ∧
    (s.exchange c m).spi.rxcrc = c.linkCrc.step s.spi.rxcrc m ∧ (s.exchange c m).spi.crcerr = s.spi.crcerr ∧
    (s.exchange c m).pool = (s.memWrite s.dmaRx.idx ⟨s.spi.k, by omega⟩ m).pool := by
  have h1 := s.outgoing_frame c s.spi.k
  have he' : (s.outgoing c s.spi.k).2.dmaRx.en = true := by rw [h1]; exact he
  unfold State.exchange
  simp only
  rw [State.incoming_data c m _ h he', h1]
  refine ⟨rfl, ?_, ?_, ?_⟩ <;> cases s.dmaRx.idx <;> rfl

/-- The receive side of the exchange of the CRC byte (R172, R194). -/
theorem State.exchange_rx_crc (c : Config) (m : Byte) (s : State) (h : s.spi.k = 36) (he : s.dmaRx.en = true) :
    (s.exchange c m).dmaRx = s.dmaRx.receivedAll ∧
    (s.exchange c m).spi.rxcrc = s.spi.rxcrc ∧
    (s.exchange c m).spi.crcerr = crcErrAfter s.spi.crcerr m s.spi.rxcrc ∧
    ∃ v, (s.exchange c m).pool = (s.memWrite s.dmaRx.idx offCrcSlot v).pool := by
  have h1 := s.outgoing_frame c s.spi.k
  have he' : (s.outgoing c s.spi.k).2.dmaRx.en = true := by rw [h1]; exact he
  unfold State.exchange
  simp only
  rw [State.incoming_crc c m _ h he', h1]
  refine ⟨rfl, ?_, ?_, (s.outgoing c s.spi.k).2.draw.1, ?_⟩ <;> cases s.dmaRx.idx <;> rfl

/-- The receive side of every later exchange (R172, R178). -/
theorem State.exchange_rx_beyond (c : Config) (m : Byte) (s : State) (h : 37 ≤ s.spi.k) :
    (s.exchange c m).dmaRx = s.dmaRx ∧ (s.exchange c m).spi.rxcrc = s.spi.rxcrc ∧
    (s.exchange c m).spi.crcerr = s.spi.crcerr ∧ (s.exchange c m).pool = s.pool := by
  unfold State.exchange
  simp only
  rw [State.incoming_beyond c m _ h, s.outgoing_frame c s.spi.k]
  exact ⟨rfl, rfl, rfl, rfl⟩

/-- The queue side of the state does not depend on an exchange. -/
theorem State.exchange_queues (c : Config) (m : Byte) (s : State) :
    (s.exchange c m).links = s.links ∧ (s.exchange c m).owner = s.owner ∧ (s.exchange c m).curRx = s.curRx ∧
    (s.exchange c m).curTx = s.curTx ∧ (s.exchange c m).cmd = s.cmd := by
  rw [State.exchange_frame]; exact ⟨rfl, rfl, rfl, rfl, rfl⟩

/-- An exchange stores at most one byte: at offset `k` of the receive channel's target. -/
theorem State.exchange_pool (c : Config) (m : Byte) (s : State) :
    (s.exchange c m).pool = s.pool ∨
    ∃ (o : Offset) (v : Byte), o.val = s.spi.k ∧ (s.exchange c m).pool = (s.memWrite s.dmaRx.idx o v).pool := by
  have h1 := s.outgoing_frame c s.spi.k
  by_cases hk : 37 ≤ s.spi.k
  · exact .inl (s.exchange_rx_beyond c m hk).2.2.2
  · cases he : s.dmaRx.en with
    | true =>
      by_cases h : s.spi.k < 36
      · exact .inr ⟨_, _, rfl, (s.exchange_rx_data c m h he).2.2.2⟩
      · obtain ⟨-, -, -, v, hv⟩ := s.exchange_rx_crc c m (by omega) he
        exact .inr ⟨offCrcSlot, v, by simp [offCrcSlot]; omega, hv⟩
    | false =>
      left
      have he' : (s.outgoing c s.spi.k).2.dmaRx.en = false := by rw [h1]; exact he
      have hp : (s.outgoing c s.spi.k).2.pool = s.pool := by rw [h1]
      refine Eq.trans ?_ hp
      unfold State.exchange State.incoming
      simp only [he']
      split
      · rfl
      · split <;> rfl

/-- Every pool byte but the one at offset `k` of the receive channel's target is as it was (R172). -/
theorem State.exchange_byteAt_other (c : Config) (m : Byte) (s : State) (j : BufIdx) (w : Offset)
    (hj : s.dmaRx.idx ≠ .buf j ∨ w.val ≠ s.spi.k) : (s.exchange c m).byteAt j w = s.byteAt j w := by
  have hr : (s.exchange c m).resets = s.resets := by rw [State.exchange_frame]
  rcases s.exchange_pool c m with h | ⟨o, v, ho, h⟩
  · simp only [State.byteAt, h, hr]
  · have hm : (s.memWrite s.dmaRx.idx o v).resets = s.resets := by cases s.dmaRx.idx <;> rfl
    have : (s.exchange c m).byteAt j w = (s.memWrite s.dmaRx.idx o v).byteAt j w := by
      simp only [State.byteAt, h, hr, hm]
    rw [this, State.byteAt_memWrite_target]
    exact hj.imp id fun e1 e2 => e1 (by rw [e2, ho])

/-- The byte of exchange `k < 36` is in the receive channel's buffer, at offset `k` (R172). -/
theorem State.exchange_byteAt_data (c : Config) (m : Byte) (s : State) {i : BufIdx} {o : Offset}
    (hi : s.dmaRx.idx = .buf i) (ho : o.val = s.spi.k) (hk : s.spi.k < 36) (he : s.dmaRx.en = true) :
    (s.exchange c m).byteAt i o = m := by
  have hr : (s.exchange c m).resets = s.resets := by rw [State.exchange_frame]
  have h := (s.exchange_rx_data c m hk he).2.2.2
  have hoo : (⟨s.spi.k, by omega⟩ : Offset) = o := Fin.ext ho.symm
  rw [hoo] at h
  have : (s.exchange c m).byteAt i o = (s.memWrite (.buf i) o m).byteAt i o := by
    simp only [State.byteAt, h, hr, hi]
    rfl
  rw [this, State.byteAt_memWrite, if_pos ⟨rfl, rfl⟩]

/-- An exchange keeps the canonical form of the pool's list. -/
theorem State.wf_exchange (c : Config) (m : Byte) {s : State} (h : s.pool.wf = true) :
    (s.exchange c m).pool.wf = true := by
  rcases s.exchange_pool c m with h' | ⟨o, v, -, h'⟩
  · rw [h']; exact h
  · rw [h']; exact State.wf_memWrite _ _ _ h

end Sys2Proof.Machine
end

