-- ==== Sys2Proof/Laws/Invariant.lean ====
section
/-! SUPPORT. The invariants of 44_arithmetic_control_access.md R276, part by part: what they read, that reset contents meet
them, and what START, FINISH and their parts do to each. -/

namespace Sys2Proof.Machine

/-! ### What the invariants read -/

theorem TransferInv.congr {s t : State} (h : TransferInv s) (hb : t.busy = s.busy) (he : t.enabled = s.enabled)
    (hs : t.spi = s.spi) (h1 : t.dmaRx = s.dmaRx) (h2 : t.dmaTx = s.dmaTx) (h3 : t.curRx = s.curRx)
    (h4 : t.curTx = s.curTx) : TransferInv t := by
  obtain ⟨a, b, c, d, e, f, g, i, j, k, l, m⟩ := h
  constructor <;> simp only [hb, he, hs, h1, h2, h3, h4] <;> assumption

theorem HeaderInv.congr {s t : State} (h : HeaderInv s) (ho : t.owner = s.owner) (hp : t.pool = s.pool)
    (hr : t.resets = s.resets) : HeaderInv t := by
  intro i hi off hoff
  have : t.byteAt i off = s.byteAt i off := by simp [State.byteAt, hp, hr]
  rw [this]; exact h i (by simpa [State.ownerOf, ho] using hi) off hoff

/-- The transfer invariant reads seven fields. -/
theorem TransferInv.congrFields {s t : State} (h : TransferInv s)
    (e : (t.busy, t.enabled, t.spi, t.dmaRx, t.dmaTx, t.curRx, t.curTx) =
      (s.busy, s.enabled, s.spi, s.dmaRx, s.dmaTx, s.curRx, s.curTx)) : TransferInv t := by
  simp only [Prod.mk.injEq] at e
  obtain ⟨a, b, c, d, e, f, g⟩ := e
  exact h.congr a b c d e f g

/-- The invariants read no port, schedule, counter or fault mark. -/
theorem Inv.congrFields {s t : State} (h : Inv s) (hp : t.pool = s.pool) (hr : t.resets = s.resets)
    (e : (t.busy, t.enabled, t.spi, t.dmaRx, t.dmaTx, t.curRx, t.curTx) =
      (s.busy, s.enabled, s.spi, s.dmaRx, s.dmaTx, s.curRx, s.curTx))
    (hl : t.links = s.links) (ho : t.owner = s.owner) (hc : t.cmd = s.cmd) : Inv t := by
  obtain ⟨a, b, c, f, ib, ob, q⟩ := h
  have e' := e
  simp only [Prod.mk.injEq] at e'
  exact ⟨hp ▸ a, b.congrFields e, c.congr ho hp hr, f, ib, ob, q.congr hl ho e'.2.2.2.2.2.1 e'.2.2.2.2.2.2 hc⟩

/-- The headers stay zero when FREE gains no buffer and its buffers' bytes stay. -/
theorem HeaderInv.mono {s t : State} (h : HeaderInv s) (ho : ∀ i, t.ownerOf i = .free → s.ownerOf i = .free)
    (hb : ∀ i, s.ownerOf i = .free → ∀ off, t.byteAt i off = s.byteAt i off) : HeaderInv t :=
  fun i hi off hoff => (hb i (ho i hi) off).trans (h i (ho i hi) off hoff)

/-! ### Reset contents -/

/-- The reset contents of R41 meet the queue invariant: FREE holds all buffers, the other queues none. -/
theorem QueueInv.ofReset {s : State} (hl : s.links = Links.reset) (ho : ∀ i, s.ownerOf i = .free) (hrx : s.curRx = none)
    (htx : s.curTx = none) (hp : s.cmd.pos = .idle) : QueueInv s (List.finRange 32) [] [] := by
  have hw : s.freeWaiting = none := by simp [State.freeWaiting, hp]
  have hh : s.receiveHolds = none := by simp [State.receiveHolds, hp]
  refine ⟨?_, ?_, ?_, ?_, ?_, ?_, ?_, ?_, ?_, ?_⟩
  · unfold FreeForm; rw [hp, hl]
    exact ⟨List.nodup_finRange 32, by decide, by decide, by decide⟩
  · unfold InboxForm; rw [hp, hl]; exact ⟨by simp, rfl, rfl, rfl⟩
  · unfold OutboxForm; rw [hp, hl]; exact ⟨by simp, rfl, rfl, rfl⟩
  all_goals intro i
  · simp [ho]
  · simp [ho, hh]
  · simp [ho]
  · simp [ho, hrx]
  · simp [ho, htx]
  · simp [hw]
  · simp [ho, hw]

/-- A state with the reset values of R41 meets the invariants; what its pool holds beyond the headers does not matter. -/
theorem Inv.ofReset {s : State} (hp : s.pool.wf = true) (hl : s.links = Links.reset)
    (ho : ∀ i, s.ownerOf i = .free) (hrx : s.curRx = none) (htx : s.curTx = none) (hpos : s.cmd.pos = .idle)
    (hb : s.busy = false) (hs : s.spi = Spi.reset linkCrc) (h1 : s.dmaRx.en = false) (h2 : s.dmaTx.en = false)
    (hz : HeaderInv s) : Inv s := by
  refine ⟨hp, ?_, hz, _, _, _, QueueInv.ofReset hl ho hrx htx hpos⟩
  constructor <;> simp [hb, hs, Spi.reset, h1, h2]

theorem State.ownerOf_resetWith (c : Config) (i : BufIdx) : (State.resetWith c).ownerOf i = .free := by
  simp [State.ownerOf, State.resetWith]

/-! ### Staging -/

/-- Receive staging: a buffer is staged already, FREE gives none, or FREE gives one. -/
theorem State.stageRx_cases (s : State) :
    (∃ i, s.curRx = some i ∧ s.stageRx = s) ∨
    (s.curRx = none ∧ (s.links.dequeue .free).1 = none ∧ s.stageRx = s) ∨
    ∃ r, s.curRx = none ∧ (s.links.dequeue .free).1 = some r ∧
      s.stageRx = { s.setOwner r .rxStaged with links := (s.links.dequeue .free).2, curRx := some r } := by
  rw [State.stageRx_eq]
  split <;> rename_i h
  · exact .inl ⟨_, h, rfl⟩
  · split <;> rename_i h2
    · exact .inr (.inl ⟨h, h2, rfl⟩)
    · exact .inr (.inr ⟨_, h, h2, rfl⟩)
/-- Transmit staging: a buffer is staged already, OUTBOX gives none, or OUTBOX gives one. -/
theorem State.stageTx_cases (s : State) :
    (∃ i, s.curTx = some i ∧ s.stageTx = s) ∨
    (s.curTx = none ∧ (s.links.dequeue .outbox).1 = none ∧ s.stageTx = s) ∨
    ∃ r, s.curTx = none ∧ (s.links.dequeue .outbox).1 = some r ∧
      s.stageTx = { s.setOwner r .txStaged with links := (s.links.dequeue .outbox).2, curTx := some r } := by
  rw [State.stageTx_eq]
  split <;> rename_i h
  · exact .inl ⟨_, h, rfl⟩
  · split <;> rename_i h2
    · exact .inr (.inl ⟨h, h2, rfl⟩)
    · exact .inr (.inr ⟨_, h, h2, rfl⟩)

/-! ### The pool's canonical form -/
theorem State.wf_crcFlag {s : State} (h : s.pool.wf = true) : s.crcFlag.pool.wf = true := by
  unfold State.crcFlag
  split
  · exact h
  · split
    · exact State.wf_memWrite _ _ _ h
    · exact h

theorem State.wf_disposeRx {s : State} (h : s.pool.wf = true) : s.disposeRx.pool.wf = true := by
  unfold State.disposeRx
  split
  · exact h
  · split
    · exact State.wf_crcFlag h
    · exact h

theorem State.wf_disposeTx {s : State} (h : s.pool.wf = true) : s.disposeTx.pool.wf = true := by
  unfold State.disposeTx
  split
  · exact h
  · split
    · exact State.wf_zeroHeader _ h
    · exact h

/-! ### START and FINISH -/
/-- START keeps the queue invariant, and INBOX's content. -/
theorem QueueInv.start {s : State} {f ib ob} (c : Config) (h : QueueInv s f ib ob) :
    ∃ f' ob', QueueInv (s.start c) f' ib ob' := by
  obtain ⟨f', h1⟩ := h.stageRx
  obtain ⟨ob', h2⟩ : ∃ ob', QueueInv (s.stageRx.stageTxAtStart c.txDeqAtStart) f' ib ob' := by
    cases c.txDeqAtStart with
    | true => exact h1.stageTx
    | false => exact ⟨ob, h1⟩
  exact ⟨f', ob', h2.congr rfl rfl rfl rfl rfl⟩

theorem State.disposeRx_of_not {s : State} (h : s.dmaRx.tcif = false ∨ s.curRx = none) : s.disposeRx = s := by
  unfold State.disposeRx
  split
  · rfl
  · rename_i i hi
    rcases h with h | h
    · simp [h]
    · rw [h] at hi; cases hi

theorem State.disposeTx_of_not {s : State} (h : s.dmaTx.tcif = false ∨ s.curTx = none) : s.disposeTx = s := by
  unfold State.disposeTx
  split
  · rfl
  · rename_i i hi
    rcases h with h | h
    · simp [h]
    · rw [h] at hi; cases hi

/-- FINISH keeps the queue invariant; a frame received to the end is the newest of INBOX. -/
theorem QueueInv.finish {s : State} {f ib ob} (c : Config) (h : QueueInv s f ib ob) :
    ∃ f' ob', QueueInv (s.finish c) f' (ib ++ (if s.dmaRx.tcif then s.curRx.toList else [])) ob' := by
  have h0 : QueueInv s.disableDma f ib ob := h.congr rfl rfl rfl rfl rfl
  have h1 : QueueInv s.disableDma.disposeRx f (ib ++ (if s.dmaRx.tcif then s.curRx.toList else [])) ob := by
    cases hc : s.curRx with
    | none => rw [State.disposeRx_of_not (.inr (by simpa using hc))]; simpa using h0
    | some i =>
      cases ht : s.dmaRx.tcif with
      | false => rw [State.disposeRx_of_not (.inl (by simpa [Dma.disable] using ht))]; simpa using h0
      | true => simpa using h0.disposeRx (i := i) (by simpa using hc) (by simpa [Dma.disable] using ht)
  obtain ⟨f2, h2⟩ : ∃ f2, QueueInv s.disableDma.disposeRx.disposeTx f2
      (ib ++ (if s.dmaRx.tcif then s.curRx.toList else [])) ob := by
    generalize hs : s.disableDma.disposeRx = u at h1 ⊢
    cases hc : u.curTx with
    | none => exact ⟨f, by rw [State.disposeTx_of_not (.inr hc)]; exact h1⟩
    | some i =>
      cases ht : u.dmaTx.tcif with
      | false => exact ⟨f, by rw [State.disposeTx_of_not (.inl ht)]; exact h1⟩
      | true => exact ⟨_, h1.disposeTx hc ht⟩
  have h3 : QueueInv (s.disableDma.disposeRx.disposeTx.spiRearm c.linkCrc) f2 _ ob := h2.congr rfl rfl rfl rfl rfl
  obtain ⟨f4, h4⟩ := h3.stageRx
  obtain ⟨ob5, h5⟩ := h4.stageTx
  exact ⟨f4, ob5, h5.congr rfl rfl rfl rfl rfl⟩

/-! ### Headers of the buffers in FREE -/

theorem HeaderInv.stageRx {s : State} (h : HeaderInv s) : HeaderInv s.stageRx := by
  intro i hi off hoff
  rw [State.stageRx_byteAt]
  refine h i ?_ off hoff
  rw [State.stageRx_eq] at hi
  split at hi
  · exact hi
  · split at hi
    · exact hi
    · rename_i r _
      have := s.ownerOf_setOwner r i .rxStaged
      by_cases hr : i = r
      · rw [if_pos hr] at this; exact absurd (this.symm.trans hi) (by decide)
      · rw [if_neg hr] at this; exact this.symm.trans hi

theorem HeaderInv.stageTx {s : State} (h : HeaderInv s) : HeaderInv s.stageTx := by
  intro i hi off hoff
  rw [State.stageTx_byteAt]
  refine h i ?_ off hoff
  rw [State.stageTx_eq] at hi
  split at hi
  · exact hi
  · split at hi
    · exact hi
    · rename_i r _
      have := s.ownerOf_setOwner r i .txStaged
      by_cases hr : i = r
      · rw [if_pos hr] at this; exact absurd (this.symm.trans hi) (by decide)
      · rw [if_neg hr] at this; exact this.symm.trans hi

theorem HeaderInv.disposeRx {s : State} {f ib ob} (h : HeaderInv s) (hq : QueueInv s f ib ob) : HeaderInv s.disposeRx := by
  by_cases hn : s.dmaRx.tcif = false ∨ s.curRx = none
  · rw [State.disposeRx_of_not hn]; exact h
  · simp only [not_or, Bool.not_eq_false] at hn
    obtain ⟨i, hi⟩ := Option.ne_none_iff_exists'.1 hn.2
    have hd : s.disposeRx = { s.crcFlag.setOwner i .inbox with links := s.links.enqueue .inbox i, curRx := none } := by
      unfold State.disposeRx; rw [hi]; simp [hn.1]
    have how : s.ownerOf i = .rxStaged := (hq.ownRx i).2 hi
    rw [hd]
    intro j hj off hoff
    have h1 : s.ownerOf j = .free := by
      have := s.crcFlag.ownerOf_setOwner i j .inbox
      by_cases hji : j = i
      · rw [if_pos hji] at this; exact absurd (this.symm.trans hj) (by decide)
      · rw [if_neg hji] at this
        have h2 := this.symm.trans hj
        simpa [State.ownerOf] using h2
    have hji : j ≠ i := fun e => by rw [e, how] at h1; cases h1
    have : s.crcFlag.byteAt j off = s.byteAt j off := by
      rw [State.crcFlag_byteAt, if_neg]; rintro ⟨e, -⟩; rw [hi] at e; exact hji (by simpa using e.symm)
    exact this.trans (h j h1 off hoff)

theorem HeaderInv.disposeTx {s : State} (h : HeaderInv s) : HeaderInv s.disposeTx := by
  unfold State.disposeTx
  split
  · exact h
  · rename_i i hi
    split
    · intro j hj off hoff
      have hb : (s.freeInternal i).byteAt j off = 0x00#8 := by
        rw [State.freeInternal_byteAt]
        by_cases hji : j = i
        · rw [if_pos ⟨hji, hoff⟩]
        · rw [if_neg (fun e => hji e.1)]
          refine h j ?_ off hoff
          have := (s.zeroHeader i).ownerOf_setOwner i j .free
          rw [if_neg hji] at this
          exact this.symm.trans hj
      exact hb
    · exact h

end Sys2Proof.Machine
end

