-- ==== Sys2Proof/Laws/PerInstr.lean ====
section
/-! SUPPORT. The family `RowBits`, one lemma per constructor: the word of an operation carries the fixed bits of its own row
of spec/opcode_table.json, and exactly the rows with bits have a word (R100, R101, R103, R105). -/

namespace Sys2Proof.Laws.RowBits

/-- Width, mask and match of the operation's row; none for a row without an encoding (R105). -/
def row : Instr → Option (Nat × Nat × Nat)
  | .nop => some (8, 0xFF, 0x00)
  | .alloc => some (8, 0xFF, 0x20)
  | .free _ => some (8, 0xE0, 0x40)
  | .send _ => some (8, 0xE0, 0x60)
  | .receive => some (8, 0xFF, 0x80)
  | .reserved101 _ => some (8, 0xE0, 0xA0)
  | .shutdown => some (8, 0xFF, 0xC0)
  | .init => some (8, 0xFF, 0xE0)
  | .bufRd _ _ => some (12, 0x800, 0x000)
  | .bufWr _ _ _ => some (12, 0x800, 0x800)
  | .edge | .xchg _ | .start | .finish | .allocInternal | .freeInternal _ | .qInit _ | .enqSwap _ _
  | .enqLink _ _ _ | .deqHead _ | .deqLone _ _ | .deqSucc _ _ _ | .deqUnlink _ _ _ | .deqClear _
  | .crcReset | .crcRxStep _ | .crcRxCheck _ | .crcTxStep _ | .crcTxSend | .crcFlag => none

/-- Width and value of a port word. -/
def bitsOf : PortWord → Nat × Nat
  | .cw w => (8, w.toNat)
  | .ba w _ => (12, w.toNat)

/-- The word has the row's width and, under the row's mask, the row's match; no row, no word. -/
def Statement (i : Instr) : Prop :=
  match encode i, row i with
  | some w, some (n, mask, pat) => (bitsOf w).1 = n ∧ (bitsOf w).2 &&& mask = pat
  | none, none => True
  | _, _ => False

theorem nop : Statement .nop := ⟨rfl, rfl⟩
theorem alloc : Statement .alloc := ⟨rfl, rfl⟩
theorem free (i : BufIdx) : Statement (.free i) := ⟨rfl, by revert i; decide⟩
theorem send (i : BufIdx) : Statement (.send i) := ⟨rfl, by revert i; decide⟩
theorem receive : Statement .receive := ⟨rfl, rfl⟩
theorem reserved101 (idx : BitVec 5) : Statement (.reserved101 idx) := by
  refine ⟨rfl, ?_⟩
  have h : ∀ k : Fin 32, (packCW 0b101#3 (.ofFin k)).toNat &&& 0xE0 = 0xA0 := by decide
  exact h idx.toFin
theorem shutdown : Statement .shutdown := ⟨rfl, rfl⟩
theorem init : Statement .init := ⟨rfl, rfl⟩
theorem bufRd (i : BufIdx) (off : BitVec 6) : Statement (.bufRd i off) := by
  refine ⟨rfl, ?_⟩
  have h : ∀ (i : BufIdx) (k : Fin 64), (packBA 0#1 (fieldOfBuf i) (.ofFin k)).toNat &&& 0x800 = 0x000 := by decide
  exact h i off.toFin
theorem bufWr (i : BufIdx) (off : BitVec 6) (v : Byte) : Statement (.bufWr i off v) := by
  refine ⟨rfl, ?_⟩
  have h : ∀ (i : BufIdx) (k : Fin 64), (packBA 1#1 (fieldOfBuf i) (.ofFin k)).toNat &&& 0x800 = 0x800 := by decide
  exact h i off.toFin
theorem edge : Statement .edge := trivial
theorem xchg (m : Byte) : Statement (.xchg m) := trivial
theorem start : Statement .start := trivial
theorem finish : Statement .finish := trivial
theorem allocInternal : Statement .allocInternal := trivial
theorem freeInternal (i : BufIdx) : Statement (.freeInternal i) := trivial
theorem qInit (q : QueueName) : Statement (.qInit q) := trivial
theorem enqSwap (q : QueueName) (x : BufIdx) : Statement (.enqSwap q x) := trivial
theorem enqLink (q : QueueName) (p : NodeRef) (x : BufIdx) : Statement (.enqLink q p x) := trivial
theorem deqHead (q : QueueName) : Statement (.deqHead q) := trivial
theorem deqLone (q : QueueName) (h : BufIdx) : Statement (.deqLone q h) := trivial
theorem deqSucc (q : QueueName) (h : BufIdx) (lone : Bool) : Statement (.deqSucc q h lone) := trivial
theorem deqUnlink (q : QueueName) (h : BufIdx) (s : Option BufIdx) : Statement (.deqUnlink q h s) := trivial
theorem deqClear (h : BufIdx) : Statement (.deqClear h) := trivial
theorem crcReset : Statement .crcReset := trivial
theorem crcRxStep (m : Byte) : Statement (.crcRxStep m) := trivial
theorem crcRxCheck (m : Byte) : Statement (.crcRxCheck m) := trivial
theorem crcTxStep (v : Byte) : Statement (.crcTxStep v) := trivial
theorem crcTxSend : Statement .crcTxSend := trivial
theorem crcFlag : Statement .crcFlag := trivial

end Sys2Proof.Laws.RowBits
end

