-- ==== Sys2Proof/Tests/Slice0.lean ====
section
/-! SUPPORT. Tests, their expected results taken from the tables of spec/ and the vectors V1 to V49 of
95_test_vectors.md, each cited where it stands; and for every statement with hypotheses a state that meets them. -/

open Sys2Proof Sys2Proof.Machine

namespace Sys2Proof.Tests

/-! ## Well-formedness refuses ill-formed terms -/

/-- ENQ.LINK of a node behind itself (R122). -/
theorem test_wf_refuses_enq_link_to_itself : (Instr.enqLink .free (.node 7) 7).wf = false := by decide
/-- DEQ.UNLINK with a node as its own successor (R27). -/
theorem test_wf_refuses_unlink_to_itself : (Instr.deqUnlink .inbox 7 (some 7)).wf = false := by decide
theorem test_wf_accepts : (Instr.enqLink .free (.node 5) 7).wf = true ∧ (Instr.deqUnlink .inbox 5 (some 7)).wf = true ∧
    (Instr.bufRd 31 63#6).wf = true := by decide

/-! ## Words written out bit by bit from R100, R101 and R103 -/

theorem test_decode_nop : decode (.cw 0b00000000#8) = .ok .nop := by decide
theorem test_decode_alloc : decode (.cw 0b00100000#8) = .ok .alloc := by decide
theorem test_decode_free : decode (.cw 0b01000011#8) = .ok (.free 3) := by decide
theorem test_decode_send : decode (.cw 0b01111111#8) = .ok (.send 31) := by decide
theorem test_decode_receive : decode (.cw 0b10000000#8) = .ok .receive := by decide
theorem test_decode_reserved : decode (.cw 0b10110001#8) = .ok (.reserved101 17#5) := by decide
theorem test_decode_shutdown : decode (.cw 0b11000000#8) = .ok .shutdown := by decide
theorem test_decode_init : decode (.cw 0b11100000#8) = .ok .init := by decide
/-- `RD b1[37]` has BA 0x065 (V19). -/
theorem test_decode_buf_rd : decode (.ba 0b000001100101#12 0xAA#8) = .ok (.bufRd 1 37#6) := by decide
/-- `WR b3[0] = 1` has BA 0x8C0 (V15). -/
theorem test_decode_buf_wr : decode (.ba 0b100011000000#12 0x01#8) = .ok (.bufWr 3 0#6 0x01#8) := by decide
/-- The words of V18 with a nonzero index. -/
theorem test_decode_refuses_v18 : decode (.cw 0x21#8) = .error (.idxNotZero 1#3 1#5) ∧
    decode (.cw 0x81#8) = .error (.idxNotZero 4#3 1#5) ∧ decode (.cw 0xC1#8) = .error (.idxNotZero 6#3 1#5) ∧
    decode (.cw 0xE1#8) = .error (.idxNotZero 7#3 1#5) ∧ decode (.cw 0x01#8) = .error (.idxNotZero 0#3 1#5) := by decide
/-- Rows of the opcode table by their numbers: FREE's match, and BUF_WR's as two bytes. -/
theorem test_table_word : decodeTableWord 8 0x40 = some (.free 0) ∧ decodeTableWord 16 0x800 = some (.bufWr 0 0#6 0#8) ∧
    decodeTableWord 12 0x83F = some (.bufWr 0 63#6 0#8) ∧ decodeTableWord 8 0x1FF = none := by decide
/-- `RW` of V12 (OK_IDX b0), V14 (ERR_OWNER), P2 (OK_IDX b1). -/
theorem test_response_words : ({ status := .okIdx, idx := some 0, data := none } : Response).word = 0x20#8 ∧
    ({ status := .errOwner, idx := none, data := none } : Response).word = 0x60#8 ∧
    ({ status := .okIdx, idx := some 1, data := none } : Response).word = 0x21#8 ∧
    ({ status := .ok, idx := some 5, data := none } : Response).word = 0x00#8 := by decide

/-! ## Small states -/

/-- The response of an answer. -/
def respOf : Answer → Option Response
  | .next t => t.resp
  | .fault _ => none
  | .refused _ => none

/-- A property of the next state. -/
def after (a : Answer) (p : State → Bool) : Bool :=
  match a with
  | .next t => p t
  | .fault _ => false
  | .refused _ => false

/-- A link space with empty queues and no links. -/
def bare : Links where
  next := Vector.replicate 32 none
  free := Queue.empty
  inbox := Queue.empty
  outbox := Queue.empty

/-- INBOX `5/5` (V3, V4). -/
def one5 : Links := { bare with inbox := { head := some 5, last := .node 5 } }
/-- INBOX `5/7`, `next[5] = 7` (V5). -/
def two57 : Links := { bare with inbox := { head := some 5, last := .node 7 } }.setNext 5 (some 7)
/-- INBOX `5/7` with `next[5] = NIL`, an enqueue of 7 in flight (V7). -/
def flight57 : Links := { bare with inbox := { head := some 5, last := .node 7 } }

/-- The reset state with a link space. -/
def withLinks (l : Links) : State := { State.reset with links := l }
/-- The reset state with buffer 0 given to the client. -/
def held : State := State.reset.setOwner 0 .client
/-- A state with the client's command standing at `p`, going on next. -/
def standing (p : CmdPos) : State :=
  { State.reset with cmd := { State.reset.cmd with pos := p }, inputs := [.proceed] }
/-- A transaction at exchange `k`, receiving into buffer 1 and sending from buffer 0. -/
def atExchange (k : Nat) (rx : Fin 38) (tx : Fin 37) (done : Bool) : State :=
  { State.reset with
    busy := true
    curRx := some 1
    curTx := some 0
    dmaRx := { en := true, tcif := done, idx := .buf 1, pos := rx }
    dmaTx := { en := true, tcif := done, idx := .buf 0, pos := tx }
    spi := { State.reset.spi with k := k, lead := 0x2A#8 } }
/-- The reset state with values in the SPI unit. -/
def withSpi (rxcrc txcrc : Byte) (err : Bool) : State :=
  { State.reset with spi := { lead := 0x2A#8, k := 3, rxcrc := rxcrc, txcrc := txcrc, crcerr := err } }

/-! ## Queue micro-steps (95_test_vectors.md section 2.1) -/

/-- V1: NONE at DEQ.HEAD. -/
theorem test_deq_head_empty : after (exec (.deqHead .inbox) (withLinks bare)) (fun t => t.ret = .none) = true := by decide
theorem test_deq_head : after (exec (.deqHead .inbox) (withLinks two57)) (fun t => t.ret = .buf 5) = true := by decide
/-- V2: after SWAP `p = S`, `q = NIL/5`. -/
theorem test_enq_swap_empty : after (exec (.enqSwap .inbox 5) (withLinks bare))
    (fun t => t.ret = .ref .sent ∧ t.links.inbox = { head := none, last := .node 5 }) = true := by decide
/-- V3: after SWAP `p = 5`, `q = 5/7`. -/
theorem test_enq_swap : after (exec (.enqSwap .inbox 7) (withLinks one5))
    (fun t => t.ret = .ref (.node 5) ∧ t.links.inbox = { head := some 5, last := .node 7 }) = true := by decide
/-- V2: LINK behind the sentinel writes the head word. -/
theorem test_enq_link_sent : after (exec (.enqLink .inbox .sent 5)
    (withLinks { bare with inbox := { head := none, last := .node 5 } }))
    (fun t => t.links.inbox = { head := some 5, last := .node 5 }) = true := by decide
/-- V3, V7: LINK behind a node writes its link. -/
theorem test_enq_link_node : after (exec (.enqLink .inbox (.node 5) 7) (withLinks flight57))
    (fun t => t.links.nextOf 5 = some 7 ∧ t.links.inbox = flight57.inbox) = true := by decide
/-- V4: the lone node, `q = 5/S`. -/
theorem test_deq_lone : after (exec (.deqLone .inbox 5) (withLinks one5))
    (fun t => t.ret = .flag true ∧ t.links.inbox = { head := some 5, last := .sent }) = true := by decide
/-- V5: not lone, nothing written. -/
theorem test_deq_lone_not : after (exec (.deqLone .inbox 5) (withLinks two57))
    (fun t => t.ret = .flag false ∧ t.links.inbox = two57.inbox) = true := by decide
/-- V5: `s = 7`. -/
theorem test_deq_succ : after (exec (.deqSucc .inbox 5 false) (withLinks two57)) (fun t => t.ret = .link (some 7)) = true := by
  decide
/-- V7: the guard returns NONE. V4: with `lone` it does not. -/
theorem test_deq_succ_guard : after (exec (.deqSucc .inbox 5 false) (withLinks flight57)) (fun t => t.ret = .none) = true ∧
    after (exec (.deqSucc .inbox 5 true) (withLinks one5)) (fun t => t.ret = .link none) = true := by decide
/-- V5: `q = 7/7`. -/
theorem test_deq_unlink : after (exec (.deqUnlink .inbox 5 (some 7)) (withLinks two57))
    (fun t => t.links.inbox = { head := some 7, last := .node 7 }) = true := by decide
/-- V11: the head word has moved on, so nothing is written. -/
theorem test_deq_unlink_failed_cas : after (exec (.deqUnlink .inbox 0 none)
    (withLinks { bare with inbox := { head := some 1, last := .node 1 } }))
    (fun t => t.links.inbox = { head := some 1, last := .node 1 }) = true := by decide
/-- V5: `next[5] = NIL`, returns 5. -/
theorem test_deq_clear : after (exec (.deqClear 5) (withLinks two57))
    (fun t => t.ret = .buf 5 ∧ t.links.nextOf 5 = none) = true := by decide
/-- R121: an empty queue is `NIL/S`. -/
theorem test_q_init : after (exec (.qInit .inbox) (withLinks two57))
    (fun t => t.links.inbox = { head := none, last := .sent } ∧ t.links.nextOf 5 = some 7) = true := by decide
/-- V5 as a whole: 5, then 7, then NONE. -/
theorem test_dequeue_v5 : (two57.dequeue .inbox).1 = some 5 ∧ ((two57.dequeue .inbox).2.dequeue .inbox).1 = some 7 ∧
    (((two57.dequeue .inbox).2.dequeue .inbox).2.dequeue .inbox).1 = none := by decide
/-- V7: NONE and nothing written; after the LINK 5, then 7. -/
theorem test_dequeue_v7 : flight57.dequeue .inbox = (none, flight57) ∧
    ((flight57.enqLink .inbox (.node 5) 7).dequeue .inbox).1 = some 5 ∧
    (((flight57.enqLink .inbox (.node 5) 7).dequeue .inbox).2.dequeue .inbox).1 = some 7 := by decide

/-! ## Client commands (section 2.2) -/

/-- V23. -/
theorem test_nop : respOf (exec .nop State.reset) = some { status := .ok, idx := none, data := none } := by decide
/-- V12: OK_IDX b0, `owner[0] = Client`, `FREE.head = 1`, `next[0] = NIL`. -/
theorem test_alloc_v12 : after (exec .alloc State.reset) (fun t =>
    t.resp = some { status := .okIdx, idx := some 0, data := none } ∧ t.ownerOf 0 = .client ∧
    t.links.free = { head := some 1, last := .node 31 } ∧ t.links.nextOf 0 = none) = true := by decide
/-- V17: NONE from `NIL/S`. -/
theorem test_alloc_v17 : respOf (exec .alloc (withLinks bare)) = some { status := .none, idx := none, data := none } := by
  decide
/-- V13, ZERO: a header byte and the owner. -/
theorem test_free_v13 : after (exec (.free 0) (held.memWrite (.buf 0) 3 0xFF#8)) (fun t =>
    t.byteAt 0 3 = 0x00#8 ∧ t.ownerOf 0 = .free ∧ t.cmd.pos = .freeSwap) = true := by decide
/-- V15: `FREE b3` of a buffer the client does not hold. -/
theorem test_free_v15 : respOf (exec (.free 3) State.reset) = some { status := .errOwner, idx := none, data := none } := by
  decide
/-- V13, SWAP: `p = 31`, `FREE.last = 0`. -/
theorem test_free_swap_v13 : after (step { standing .freeSwap with links := { bare with free := { head := some 1, last := .node 31 } } })
    (fun t => t.cmd.p = .node 31 ∧ t.links.free = { head := some 1, last := .node 0 } ∧ t.cmd.pos = .freeLink) = true := by
  decide
/-- V20, SWAP: OUTBOX's tail word names b0, `owner[0] = Outbox`. -/
theorem test_send_v20 : after (exec (.send 0) held) (fun t =>
    t.ownerOf 0 = .outbox ∧ t.links.outbox = { head := none, last := .node 0 } ∧ t.cmd.p = .sent) = true := by decide
/-- V15: `SEND b3`. -/
theorem test_send_v15 : respOf (exec (.send 3) State.reset) = some { status := .errOwner, idx := none, data := none } := by
  decide
/-- V16. -/
theorem test_receive_v16 : respOf (exec .receive State.reset) = some { status := .none, idx := none, data := none } := by
  decide
/-- V10, HEAD: `cmd.h`. -/
theorem test_receive_head : after (exec .receive (withLinks one5))
    (fun t => t.cmd.h = 5 ∧ t.cmd.pos = .recvLone ∧ t.resp = none) = true := by decide
/-- V18: CW 0xBF. -/
theorem test_reserved_v18 : respOf (step { State.reset with inputs := [.issue (.cw 0xBF#8)] }) =
    some { status := .errIllegal, idx := none, data := none } := by decide
/-- V22: `enabled = 0`; then EDGE changes nothing. -/
theorem test_shutdown_v22 : after (exec .shutdown State.reset) (fun t =>
    t.enabled = false ∧ after (exec .edge t) (fun u => u.busy = false ∧ u.xferId = 0#8)) = true := by decide
/-- V21: `busy = 0`, every owner Free. -/
theorem test_init_v21 : after (exec .init (atExchange 5 5 4 false)) (fun t =>
    t.busy = false ∧ t.ownerOf 0 = .free ∧ t.curRx = none ∧ t.links.free = { head := some 0, last := .node 31 } ∧
    t.resp = some { status := .ok, idx := none, data := none }) = true := by decide
/-- V21: payload bytes keep their content, headers do not. -/
theorem test_init_keeps_payload : after (exec .init ((State.reset.memWrite (.buf 2) 4 0x5A#8).memWrite (.buf 2) 3 0x80#8))
    (fun t => t.byteAt 2 4 = 0x5A#8 ∧ t.byteAt 2 3 = 0x00#8) = true := by decide
/-- V19: `RD b0[37]` and `RD b1[37]` are out of range before ownership is asked. -/
theorem test_buf_rd_v19 : respOf (exec (.bufRd 0 37#6) held) = some { status := .errRange, idx := none, data := none } ∧
    respOf (exec (.bufRd 1 37#6) held) = some { status := .errRange, idx := none, data := none } := by decide
/-- P1: `RD b0[1] -> FE`. -/
theorem test_buf_rd_p1 : respOf (exec (.bufRd 0 1#6) (held.memWrite (.buf 0) 1 0xFE#8)) =
    some { status := .ok, idx := none, data := some 0xFE#8 } := by decide
/-- V19: `WR b0[63]` out of range; `WR b0[36] = 55` has no effect. -/
theorem test_buf_wr_v19 : respOf (exec (.bufWr 0 63#6 0#8) held) = some { status := .errRange, idx := none, data := none } ∧
    after (exec (.bufWr 0 36#6 0x55#8) held) (fun t => t.pool = []) = true := by decide
/-- P2: `WR b0[35] = 5A` writes the last payload byte. -/
theorem test_buf_wr_p2 : after (exec (.bufWr 0 35#6 0x5A#8) held) (fun t => t.byteAt 0 35 = 0x5A#8) = true := by decide

/-! ## Transactions (section 2.3, 2.5) -/

/-- V49: the first EDGE. -/
theorem test_edge_v49 : after (exec .edge State.reset) (fun t =>
    t.curRx = some 0 ∧ t.ownerOf 0 = .rxStaged ∧ t.links.free.head = some 1 ∧ t.dmaRx.idx = .buf 0 ∧
    t.dmaTx.idx = .zero ∧ t.spi.lead = 0x00#8 ∧ t.xferId = 0x01#8 ∧ t.busy = true) = true := by decide
/-- V22: no edge is taken while disabled. -/
theorem test_edge_disabled : after (exec .edge { State.reset with enabled := false }) (fun t => t.busy = false) = true := by
  decide
/-- V36: the id after 0xFF is 0x00. -/
theorem test_start_wraps_v36 : after (exec .start { State.reset with xferId := 0xFF#8 })
    (fun t => t.spi.lead = 0xFF#8 ∧ t.xferId = 0x00#8) = true := by decide
/-- V28: INBOX `[1]`, b0 back in FREE behind 31. -/
theorem test_finish_v28 : after (exec .finish { atExchange 37 37 36 true with
      links := { Links.reset with free := { head := some 2, last := .node 31 } } }) (fun t =>
    t.links.inbox = { head := some 1, last := .node 1 } ∧ t.ownerOf 1 = .inbox ∧ t.curTx = none ∧
    t.links.free.last = .node 0 ∧ t.links.nextOf 31 = some 0) = true := by decide
/-- V27: 36 exchanges complete neither channel; the staged buffers stay. -/
theorem test_finish_v27 : after (exec .finish (atExchange 36 36 35 false)) (fun t =>
    t.links.inbox = { head := none, last := .sent } ∧ t.curRx = some 1 ∧ t.curTx = some 0 ∧ t.spi.k = 0) = true := by decide
/-- V38: the first byte is the id; V25: `dma_rx.pos = 1`, `dma_tx.pos = 0`, the host's byte is stored. -/
theorem test_xchg_v25 : after (exec (.xchg 0x11#8) (atExchange 0 0 0 false)) (fun t =>
    t.miso = some 0x2A#8 ∧ t.byteAt 1 0 = 0x11#8 ∧ t.dmaRx.pos = 1 ∧ t.dmaTx.pos = 0) = true := by decide
/-- V28: exchange 36 completes both channels. -/
theorem test_xchg_v28 : after (exec (.xchg 0xC4#8) (atExchange 36 36 35 false)) (fun t =>
    t.dmaRx.tcif = true ∧ t.dmaTx.tcif = true ∧ t.dmaRx.pos = 37 ∧ t.dmaTx.pos = 36) = true := by decide
/-- V39: `link_fault`. -/
theorem test_link_violation_v39 : after (exec (.xchg 0x11#8) State.reset) (fun t => t.linkFault = true) = true := by decide
/-- V49 by the handler's own allocation: FREE's head. -/
theorem test_alloc_internal : after (exec .allocInternal State.reset)
    (fun t => t.ret = .buf 0 ∧ t.ownerOf 0 = .free ∧ t.links.free.head = some 1) = true := by decide
/-- R149, as P5's b5: the header zeroed, FREE `0/0`. -/
theorem test_free_internal : after (exec (.freeInternal 0) ((withLinks bare).memWrite (.buf 0) 1 0xFE#8))
    (fun t => t.byteAt 0 1 = 0x00#8 ∧ t.links.free = { head := some 0, last := .node 0 }) = true := by decide

/-- `MemRead(i, off, n)` (R10): the four header bytes of buffer 3, lowest offset first; from Z all are 0x00 (R24). -/
theorem test_mem_read_n :
    ((State.reset.memWrite (.buf 3) 0 0x11#8).memWrite (.buf 3) 2 0x33#8).memReadN (.buf 3) 0 4 (by decide) =
      [0x11#8, 0x00#8, 0x33#8, 0x00#8] ∧ State.reset.memReadN .zero 35 2 (by decide) = [0x00#8, 0x00#8] := by decide

/-! ## CRC harness (section 2.4), under the default LINKCRC -/

/-- V41, V42. -/
theorem test_crc_v41_v42 : crcOf defaultLinkCrc [0x01#8] = 0x07#8 ∧ crcOf defaultLinkCrc [0x80#8] = 0x89#8 ∧
    crcOf defaultLinkCrc [0xFF#8] = 0xF3#8 ∧ crcOf defaultLinkCrc [0x01#8, 0x02#8] = 0x1B#8 := by decide
/-- V45. -/
theorem test_crc_step_v45 : crc8Step 0x40#8 0x00#8 = 0xC7#8 := by decide
/-- V46: the first byte of A. -/
theorem test_crc_rx_step_v46 : ((State.resetWith { ptb with linkCrc := defaultLinkCrc }).crcRxStep defaultLinkCrc 0x11#8).spi.rxcrc = 0x77#8 := by
  decide
/-- V46: the second byte, by the transmit side. -/
theorem test_crc_tx_step : ((withSpi 0x00#8 0x77#8 false).crcTxStep defaultLinkCrc 0xFE#8).spi.txcrc = 0xB6#8 := by decide
/-- V47. -/
theorem test_crc_rx_check_v47 :
    after (exec (.crcRxCheck 0xC4#8) (withSpi 0xC4#8 0x11#8 false)) (fun t => t.spi.crcerr = false) = true ∧
    after (exec (.crcRxCheck 0xC5#8) (withSpi 0xC4#8 0x11#8 false)) (fun t => t.spi.crcerr = true) = true := by decide
/-- V48. -/
theorem test_crc_reset_v48 : ((withSpi 0xC4#8 0x11#8 true).crcReset defaultLinkCrc).spi =
    { lead := 0x2A#8, k := 3, rxcrc := 0x00#8, txcrc := 0x00#8, crcerr := false } := by decide
/-- V29: the block sends its CRC. -/
theorem test_crc_tx_send : after (exec .crcTxSend (withSpi 0xC4#8 0x17#8 false)) (fun t => t.miso = some 0x17#8) = true := by
  decide
/-- V34: F0 with CRCERR ORed in is F1. V32: 00 becomes 01. -/
theorem test_crc_flag_v34 : withCrcErr 0xF0#8 = 0xF1#8 ∧ withCrcErr 0x00#8 = 0x01#8 := by decide
theorem test_crc_flag : after (exec .crcFlag ({ atExchange 37 37 36 true with
      spi := { State.reset.spi with crcerr := true } }.memWrite (.buf 1) 3 0xF0#8))
    (fun t => t.byteAt 1 3 = 0xF1#8) = true := by decide

/-! ## Witnesses: for every statement with hypotheses, a state that meets them -/

/-- `StepRunsTheDecodedOperation`, its clauses in order. -/
theorem wit_step_runs :
    (({ State.reset with inputs := [.issue (.cw 0x43#8)] } : State).cmd.pos = .idle ∧ decode (.cw 0x43#8) = .ok (.free 3)) ∧
    ({ State.reset with inputs := [.edge] } : State).inputs = .edge :: [] ∧
    ({ State.reset with inputs := [.xchg 7#8] } : State).inputs = .xchg 7#8 :: [] ∧
    (tableWord 8 0x40 = some (.cw 0x40#8) ∧ decode (.cw 0x40#8) = .ok (.free 0)) ∧
    (tableWord 16 0x83F = some (.ba 0x83F#12 0#8) ∧ decode (.ba 0x83F#12 0#8) = .ok (.bufWr 0 63#6 0#8)) := by decide

/-- `ClientGoesOnByTheMicroStepTable` and the clauses of the FREE, SEND and RECEIVE statements that start at a position:
every position, and both sides of the guard of R127. -/
theorem wit_positions : (∀ p, (standing p).inputs = [.proceed] ∧ (standing p).cmd.pos = p) ∧
    (standing .recvSucc).links.nextOf (standing .recvSucc).cmd.h ≠ none ∧
    (({ standing .recvSucc with links := bare } : State).links.nextOf (standing .recvSucc).cmd.h = none ∧
      (standing .recvSucc).cmd.lone = false) ∧
    (standing .freeLink).cmd.p = .sent ∧ (standing .sendLink).cmd.p = .sent :=
  ⟨fun _ => ⟨rfl, rfl⟩, by decide, by decide, rfl, rfl⟩

/-- RECEIVE's two sides at LONE and UNLINK, and a previous tail that is a node at FREE.LINK. -/
theorem wit_receive_sides :
    one5.inbox.last = .node 5 ∧ two57.inbox.last ≠ .node 5 ∧ one5.inbox.head = some 5 ∧ bare.inbox.head ≠ some 5 ∧
    ({ standing .freeLink with cmd := { (standing .freeLink).cmd with p := .node 31 } } : State).cmd.p = .node 31 := by
  decide

/-- `EncodedOperationDecodesToItself` and `DecodedWordIsItsOperationsEncoding`. -/
theorem wit_encoding : encode (.bufRd 31 63#6) = some (.ba 0x7FF#12 0#8) ∧ decode (.cw 0x7F#8) = .ok (.send 31) ∧
    decode (.ba 0x7FF#12 9#8) = .ok (.bufRd 31 63#6) ∧ decode (.ba 0x800#12 9#8) = .ok (.bufWr 0 0#6 9#8) := by decide

/-- `IllegalCommandWordsAreRefused`: the reserved code with index 0, and NOP with index 1. -/
theorem wit_illegal :
    ({ State.reset with inputs := [.issue (.cw (0b101#3 ++ 0#5))] } : State).inputs = [.issue (.cw (0b101#3 ++ 0#5))] ∧
    State.reset.cmd.pos = .idle ∧ (1#5 ≠ 0#5 ∧ 0b000#3 ≠ 0b010#3 ∧ 0b000#3 ≠ 0b011#3) := ⟨rfl, rfl, by decide⟩

/-- `AllocDequeuesFree`: FREE empty, and FREE as reset leaves it. -/
theorem wit_alloc : ((withLinks bare).links.dequeue .free).1 = none ∧ (State.reset.links.dequeue .free).1 = some 0 := by decide

/-- `AllocReturnsTheOldestFreeBuffer`: empty, and one buffer. -/
theorem wit_alloc_quiescent : Quiescent bare .free [] ∧
    Quiescent { bare with free := { head := some 5, last := .node 5 } } .free [5] :=
  ⟨⟨by simp, rfl, rfl, rfl⟩, ⟨by simp, by decide, rfl, rfl⟩⟩

/-- The reset state meets the invariants: `EveryStepKeepsTheInvariants` and every statement over them. -/
theorem wit_inv_reset : Inv State.reset :=
  Inv.ofReset rfl rfl (State.ownerOf_resetWith _) rfl rfl rfl rfl rfl rfl rfl fun i _ off h => by
    have : unlistedByte (poolKey i off) = some 0x00#8 := by unfold unlistedByte; rw [poolKey_mod]; simp [h]
    simp [State.byteAt, State.reset, State.resetWith, Memory.read, Memory.lookup, this]

/-- The reset contents of the queues. -/
theorem wit_queues_reset : QueueInv State.reset (List.finRange 32) [] [] :=
  QueueInv.ofReset rfl (State.ownerOf_resetWith _) rfl rfl rfl

/-- The state ALLOC leaves after reset. -/
def allocated : State := { State.reset.setOwner 0 .client with
  links := (State.reset.links.dequeue .free).2, resp := some { status := .okIdx, idx := some 0, data := none } }

/-- `AllocatedBufferHasAZeroHeader`. -/
theorem wit_alloc_answers : State.reset.cmd.pos = .idle ∧ exec .alloc State.reset = .next allocated :=
  ⟨rfl, by simp only [exec, execAlloc, State.allocInternal, show (State.reset.links.dequeue .free).1 = some 0 by decide]; rfl⟩

/-- `LinkEventsLeaveClientBuffersAlone`: after an ALLOC buffer 0 is the client's. -/
theorem wit_inv_allocated : Inv allocated ∧ allocated.ownerOf 0 = .client := by
  obtain ⟨f', -, hq⟩ := wit_queues_reset.alloc (t := allocated) (r := 0) (by decide) rfl
    (fun i => State.reset.ownerOf_setOwner 0 i .client) rfl rfl rfl
  refine ⟨⟨rfl, wit_inv_reset.transfer.congrFields rfl, wit_inv_reset.header.mono (fun i hi => ?_) (fun _ _ _ => rfl),
    _, _, _, hq⟩, rfl⟩
  exact State.ownerOf_resetWith _ i

/-- A state with a SEND of buffer 0 between its two micro-steps. -/
def sending : State := { allocated.setOwner 0 .outbox with
  links := (allocated.links.enqSwap .outbox 0).2
  cmd := { allocated.cmd with pos := .sendLink, x := 0, p := (allocated.links.enqSwap .outbox 0).1 }
  resp := none }

/-- `EdgeKeepsASendInFlight`. -/
theorem wit_sending : Inv sending ∧ sending.cmd.pos = .sendLink ∧
    EnqueueInFlight sending.links .outbox sending.cmd.p sending.cmd.x [] [] := by
  obtain ⟨⟨hp, ht, hh, f, ib, ob, hq⟩, hc⟩ := wit_inv_allocated
  have how : ∀ i, sending.ownerOf i = if i = 0 then .outbox else allocated.ownerOf i := fun i =>
    allocated.ownerOf_setOwner 0 i .outbox
  have h2 := hq.sendSwap (t := sending) (x := 0) rfl hc rfl how rfl rfl rfl rfl rfl
  refine ⟨⟨hp, ht.congrFields rfl, hh.mono (fun i hi => ?_) (fun _ _ _ => rfl), _, _, _, h2⟩, rfl,
    ⟨by simp, rfl, by decide, by decide, by decide, by decide⟩⟩
  rw [how] at hi
  by_cases h : i = 0
  · rw [if_pos h] at hi; cases hi
  · rwa [if_neg h] at hi

/-- A transaction at exchange `k`, as START leaves it after reset but for the positions and flags that follow `k`. -/
def inFrame (k : Nat) : State := { (State.reset.start ptb) with
  spi := { (State.reset.start ptb).spi with k := k }
  dmaRx := { (State.reset.start ptb).dmaRx with pos := ⟨min k 37, by omega⟩, tcif := decide (37 ≤ k) }
  dmaTx := { (State.reset.start ptb).dmaTx with pos := ⟨min (k - 1) 36, by omega⟩, tcif := decide (37 ≤ k) } }

/-- The invariants hold in it for every `k`. -/
theorem wit_inv_inFrame (k : Nat) : Inv (inFrame k) := by
  obtain ⟨f', ob', hq⟩ := wit_queues_reset.start ptb
  refine ⟨by simpa [inFrame, State.start, State.stageTxAtStart, ptb_txDeqAtStart] using wit_inv_reset.pool, ?_, ?_,
    f', [], ob', hq.congr rfl rfl rfl rfl rfl⟩
  · constructor <;> simp [inFrame, State.start, State.stageTxAtStart, ptb_txDeqAtStart, Dma.arm]
  · exact wit_inv_reset.header.stageRx.stageTx.congr rfl rfl rfl

/-- `BothChannelsCompleteTogether`, `ClientLeavesStagedBuffersAlone` and `FrameQueuedDuringReceiveIsKept`: inside a frame,
with buffer 0 staged; 37 exchanges done for the last. -/
theorem wit_inFrame (k : Nat) : (inFrame k).enabled = true ∧ (inFrame k).busy = true ∧ (inFrame k).curRx = some 0 ∧
    (inFrame k).cmd.pos = .idle ∧ (inFrame k).spi.k = k ∧ (∃ f ib ob, QueueInv (inFrame k) f ib ob) :=
  ⟨rfl, rfl, rfl, rfl, rfl, (wit_inv_inFrame k).queues⟩

/-- `FullFrameIsDelivered`, `FrameSendsIdDataAndCrc`, `ShortFrameIsRetried`: frames of 37 and of 0 and 36 exchanges from
reset. -/
theorem wit_frames : Inv State.reset ∧ QueueInv State.reset (List.finRange 32) [] [] ∧ State.reset.enabled = true ∧
    State.reset.busy = false ∧ 37 ≤ (List.replicate 37 0x00#8).length ∧ (List.replicate 36 0x00#8).length < 37 ∧
    ([] : List Byte).length < 37 := ⟨wit_inv_reset, wit_queues_reset, rfl, rfl, by simp, by simp, by simp⟩

/-- `FrameSendsIdDataAndCrc`: the state after the edge and no exchange exists. -/
theorem wit_frame_sends : exec .edge State.reset = .next (State.reset.start ptb) ∧
    execAll (exchanges []) (State.reset.start ptb) = .next (State.reset.start ptb) := ⟨rfl, rfl⟩

/-- FREE, SEND, BUF_RD and BUF_WR: a buffer the client holds, one it does not; offsets 35, 36, 37 and 63. -/
theorem wit_owner_and_range : held.ownerOf 0 = .client ∧ held.ownerOf 1 ≠ .client ∧ (35#6).toNat < 36 ∧ (36#6).toNat = 36 ∧
    37 ≤ (37#6).toNat ∧ 37 ≤ (63#6).toNat ∧ (35 : Offset).val = (35#6).toNat := by decide

/-- `FreeAppendsToFree`. -/
theorem wit_free_appends :
    ({ held with inputs := [.issue (.cw (0b010#3 ++ fieldOfBuf 0)), .proceed, .proceed], links := bare } : State).ownerOf 0 =
      .client ∧ Quiescent bare .free [] ∧ (0 : BufIdx) ∉ ([] : List BufIdx) ∧ bare.nextOf 0 = none ∧ held.cmd.pos = .idle :=
  ⟨by decide, ⟨by simp, rfl, rfl, rfl⟩, by simp, by decide, rfl⟩

/-- `ReceiveReturnsTheOldestFrame`: one frame, and two. -/
theorem wit_receive_oldest : Quiescent one5 .inbox [5] ∧ Quiescent two57 .inbox [5, 7] ∧
    ({ withLinks two57 with inputs := [.issue (.cw 0x80#8), .proceed, .proceed, .proceed, .proceed] } : State).cmd.pos =
      .idle := ⟨⟨by simp, by decide, rfl, rfl⟩, ⟨by decide, by decide, by decide, by decide⟩, rfl⟩

/-- `HardwareResetGivesTheResetState`. -/
theorem wit_hw_reset : ({ State.reset with inputs := [.hwReset] } : State).inputs = .hwReset :: [] := rfl

/-- `RefusedOperationChangesNoState`: `FREE b3` after reset. -/
theorem wit_refused : encode (.free 3) ≠ none ∧ exec (.free 3) State.reset =
    .next { State.reset with resp := some { status := .errOwner, idx := none, data := none } } := ⟨by decide, rfl⟩

/-- `EdgeAlternatesStartAndFinish`, `ExchangeOutsideATransaction`, `EnabledBitRules`: disabled; enabled between frames;
enabled inside one. -/
theorem wit_edge_cases : ({ State.reset with enabled := false } : State).enabled = false ∧
    (State.reset.enabled = true ∧ State.reset.busy = false) ∧
    ((atExchange 0 0 0 false).enabled = true ∧ (atExchange 0 0 0 false).busy = true) := ⟨rfl, ⟨rfl, rfl⟩, ⟨rfl, rfl⟩⟩

/-- `StartStagesFromFreeAndOutbox`, and `FinishPrestagesTheNextBuffers` on the state after the earlier parts: both slots empty; both
full; one of each. -/
theorem wit_staging : (State.reset.curRx = none ∧ State.reset.curTx = none) ∧
    ((atExchange 0 0 0 false).curRx = some 1 ∧ (atExchange 0 0 0 false).curTx = some 0) ∧
    (({ State.reset with curRx := some 1 } : State).curTx = none) ∧ (({ State.reset with curTx := some 1 } : State).curRx = none) :=
  ⟨⟨rfl, rfl⟩, ⟨rfl, rfl⟩, rfl, rfl⟩

/-- `ReceivedFrameIsDisposed`, `SentBufferIsDisposed`, `CrcFlagOrsTheErrorBit`: complete in a buffer, with and without a
CRC error; not complete; nothing staged. -/
theorem wit_disposal : ((atExchange 37 37 36 true).dmaRx.tcif = true ∧ (atExchange 37 37 36 true).curRx = some 1) ∧
    ((atExchange 37 37 36 true).dmaTx.tcif = true ∧ (atExchange 37 37 36 true).curTx = some 0) ∧
    (atExchange 36 36 35 false).dmaRx.tcif = false ∧ State.reset.curRx = none ∧
    ({ atExchange 37 37 36 true with spi := { State.reset.spi with crcerr := true } } : State).spi.crcerr = true :=
  ⟨⟨rfl, rfl⟩, ⟨rfl, rfl⟩, rfl, rfl, rfl⟩

/-- `BufferJustSentIsRestaged`. -/
theorem wit_restaged : ({ atExchange 37 37 36 true with curRx := none, links := bare } : State).curRx = none ∧
    ({ atExchange 37 37 36 true with curRx := none, links := bare } : State).dmaTx.tcif = true ∧
    ({ atExchange 37 37 36 true with curRx := none, links := bare } : State).curTx = some 0 ∧
    Quiescent bare .free [] ∧ bare.nextOf 0 = none :=
  ⟨rfl, rfl, rfl, ⟨by simp, rfl, rfl, rfl⟩, by decide⟩

/-- `ExchangeSendsTheOutgoingByte`, `ExchangeStoresTheIncomingByte`, `ExchangesBeyondTheFrameOnlyCount`: k = 0, 1, 35, 36, 37
and 38, each with the position that goes with it and both channels armed. -/
theorem wit_exchanges : (atExchange 0 0 0 false).spi.k = 0 ∧
    ((atExchange 1 1 0 false).spi.k = 1 ∧ (atExchange 1 1 0 false).dmaTx.pos.val = 1 - 1) ∧
    ((atExchange 35 35 34 false).spi.k = (35 : Offset).val ∧ (atExchange 35 35 34 false).dmaTx.pos.val = 35 - 1) ∧
    ((atExchange 36 36 35 false).spi.k = 36 ∧ (atExchange 36 36 35 false).dmaTx.pos.val = 36 - 1) ∧
    (atExchange 37 37 36 true).spi.k = 37 ∧ 38 ≤ (atExchange 38 37 36 true).spi.k ∧
    (atExchange 0 0 0 false).dmaRx.en = true ∧ (atExchange 0 0 0 false).dmaTx.en = true ∧
    (atExchange 0 0 0 false).dmaRx.idx = .buf 1 := by decide

/-- `LinkFaultIsSticky`: an exchange between frames as the next step, and a state with the mark set. -/
theorem wit_link_fault : (∀ rest, ({ State.reset with inputs := [.xchg 0#8] } : State).inputs ≠ .hwReset :: rest) ∧
    ({ State.reset with linkFault := true } : State).linkFault = true ∧
    (∃ t, step { State.reset with inputs := [.xchg 0#8] } = .next t) := ⟨by simp, rfl, ⟨_, rfl⟩⟩

/-- `ZeroBufferSendsZeroAndStoresNothing`. -/
theorem wit_zero_buffer : ({ atExchange 5 5 4 false with
    dmaRx := { en := true, tcif := false, idx := .zero, pos := 5 }
    dmaTx := { en := true, tcif := false, idx := .zero, pos := 4 } } : State).dmaTx.idx = .zero ∧
    1 ≤ (atExchange 5 5 4 false).spi.k ∧ (atExchange 5 5 4 false).spi.k ≤ 36 := by decide

/-- `EnabledBitRules`, `OnlyStartAdvancesTheTransferId`, `ShutdownPowersDownTheTransport`,
`ClientTouchesNoHandlerRegister`: operations that answer. -/
theorem wit_answers : (∃ t, exec .shutdown State.reset = .next t) ∧ (∃ t, exec .init State.reset = .next t) ∧
    (∃ t, exec (.xchg 0#8) { State.reset with enabled := false } = .next t) ∧
    (encode .nop ≠ none ∧ Instr.nop ≠ .init ∧ Instr.nop ≠ .shutdown ∧ ∃ t, exec .nop State.reset = .next t) :=
  ⟨⟨_, rfl⟩, ⟨_, rfl⟩, ⟨_, rfl⟩, by decide, by decide, by decide, ⟨_, rfl⟩⟩

/-- `DequeueMicroSteps`: each side of each clause. -/
theorem wit_dequeue_sides : (two57.queue .inbox).last ≠ .node 5 ∧ (one5.queue .inbox).last = .node 5 ∧
    (bare.queue .inbox).head ≠ some 5 ∧ (one5.queue .inbox).head = some 5 := by decide

/-- `SpuriousEmptinessIsHarmless`: FREE, and OUTBOX, with buffer 5 and an enqueue of 7 in flight; and with nothing ahead of
it. -/
theorem wit_spurious :
    EnqueueInFlight { bare with free := { head := some 5, last := .node 7 } } .free (.node 5) 7 [5] [] ∧
    EnqueueInFlight { bare with free := { head := none, last := .node 7 } } .free .sent 7 [] [] ∧
    EnqueueInFlight { bare with outbox := { head := some 5, last := .node 7 } } .outbox (.node 5) 7 [5] [] ∧
    EnqueueInFlight { bare with outbox := { head := none, last := .node 7 } } .outbox .sent 7 [] [] :=
  ⟨⟨by decide, by decide, by decide, rfl, rfl, rfl⟩, ⟨by decide, rfl, by decide, rfl, rfl, rfl⟩,
    ⟨by decide, by decide, by decide, rfl, rfl, rfl⟩, ⟨by decide, rfl, by decide, rfl, rfl, rfl⟩⟩

/-- `ResponseWordLayout`: an ALLOC that answers OK_IDX, a refused word, a RECEIVE in its last micro-step; an edge. -/
theorem wit_response_answers : encode .alloc ≠ none ∧ encode .edge = none ∧
    after (exec .alloc State.reset) (fun t => t.resp = some { status := .okIdx, idx := some 0, data := none }) = true ∧
    after (issueWord (.cw 0xA0#8) State.reset) (fun t => t.resp = some { status := .errIllegal, idx := none, data := none }) =
      true ∧
    ({ State.reset with cmd := { Cmd.reset with pos := .recvClear } } : State).clientProceed.resp =
      some { status := .okIdx, idx := some 0, data := none } ∧ State.reset.resp = none := by decide

/-- `CrcHarnessSteps`: the check byte right, and wrong. -/
theorem wit_crc_check : 0xC4#8 = (withSpi 0xC4#8 0 false).spi.rxcrc ∧ 0xC5#8 ≠ (withSpi 0xC4#8 0 false).spi.rxcrc := by decide

end Sys2Proof.Tests
end

section
/-! SUPPORT. Frames of the operations: all that START, FINISH, EDGE, XCHG, a later micro-step and `exec` can write; and the
two one-bit facts that follow for every operation (`enabled`, `link_fault`). -/

namespace Sys2Proof.Machine

/-! ### The link's operations -/

/-- All that START can write. -/
theorem State.start_frame (s : State) :
    s.start ptb = { s with
      links := (s.start ptb).links, owner := (s.start ptb).owner, curRx := (s.start ptb).curRx
      curTx := (s.start ptb).curTx, busy := true, xferId := s.xferId + 1#8
      dmaRx := (s.start ptb).dmaRx, dmaTx := (s.start ptb).dmaTx, spi := { s.spi with lead := s.xferId } } := by
  rw [State.start_ptb, s.stageRx.stageTx_frame, s.stageRx_frame]
  rfl

/-- All that FINISH can write. -/
theorem State.finish_frame (s : State) :
    s.finish ptb = { s with
      pool := (s.finish ptb).pool, links := (s.finish ptb).links, owner := (s.finish ptb).owner
      curRx := (s.finish ptb).curRx, curTx := (s.finish ptb).curTx, busy := false
      dmaRx := (s.finish ptb).dmaRx, dmaTx := (s.finish ptb).dmaTx, spi := (s.finish ptb).spi } := by
  unfold State.finish
  rw [State.prestage_frame, State.disposeTx_frame, State.disposeRx_frame]
  rfl

theorem State.edge_of_disabled {s : State} (he : s.enabled = false) : s.edge ptb = s := by
  simp [State.edge, State.edgeEntry, he]

theorem State.edge_of_start {s : State} (he : s.enabled = true) (hb : s.busy = false) : s.edge ptb = s.start ptb := by
  simp [State.edge, State.edgeEntry, he, hb, State.handlerReturn]

theorem State.edge_of_finish {s : State} (he : s.enabled = true) (hb : s.busy = true) : s.edge ptb = s.finish ptb := by
  simp [State.edge, State.edgeEntry, he, hb, State.handlerReturn]

/-- All that EDGE can write. -/
theorem State.edge_frame (s : State) :
    s.edge ptb = { s with
      pool := (s.edge ptb).pool, links := (s.edge ptb).links, owner := (s.edge ptb).owner
      curRx := (s.edge ptb).curRx, curTx := (s.edge ptb).curTx, busy := (s.edge ptb).busy
      xferId := (s.edge ptb).xferId, dmaRx := (s.edge ptb).dmaRx, dmaTx := (s.edge ptb).dmaTx
      spi := (s.edge ptb).spi } := by
  rcases s.enabled.eq_false_or_eq_true with he | he
  · rcases s.busy.eq_false_or_eq_true with hb | hb
    · rw [State.edge_of_finish he hb, State.finish_frame]
    · rw [State.edge_of_start he hb, State.start_frame]
  · rw [State.edge_of_disabled he]

theorem State.xchg_of_disabled {s : State} (m : Byte) (he : s.enabled = false) :
    s.xchg ptb m = { s with miso := some (Config.draw s.draws), draws := s.draws + 1 } := by
  simp [State.xchg, he, State.draw, State.send]

/-- A link violation (R179, R213). -/
theorem State.xchg_of_idle {s : State} (m : Byte) (he : s.enabled = true) (hb : s.busy = false) :
    s.xchg ptb m = { s with miso := some (Config.draw s.draws), draws := s.draws + 1, linkFault := true } := by
  simp [State.xchg, he, hb, State.draw, State.send]

theorem State.xchg_of_busy {s : State} (m : Byte) (he : s.enabled = true) (hb : s.busy = true) :
    s.xchg ptb m = s.exchange ptb m := by
  simp [State.xchg, he, hb]

/-- All that XCHG can write; `link_fault` is set by a link violation only. -/
theorem State.xchg_frame (m : Byte) (s : State) :
    s.xchg ptb m = { s with
      pool := (s.xchg ptb m).pool, dmaRx := (s.xchg ptb m).dmaRx, dmaTx := (s.xchg ptb m).dmaTx
      spi := (s.xchg ptb m).spi, miso := (s.xchg ptb m).miso, draws := (s.xchg ptb m).draws
      linkFault := s.linkFault || (s.enabled && !s.busy) } := by
  cases he : s.enabled with
  | false => simp [State.xchg_of_disabled m he, he]
  | true =>
    cases hb : s.busy with
    | false => simp [State.xchg_of_idle m he hb, he, hb]
    | true => rw [State.xchg_of_busy m he hb, State.exchange_frame]; simp [he, hb]

/-! ### The client's later micro-steps -/

/-- All that a later micro-step of a client command can write. -/
theorem State.clientProceed_frame (s : State) :
    s.clientProceed = { s with
      links := s.clientProceed.links, owner := s.clientProceed.owner
      cmd := s.clientProceed.cmd, resp := s.clientProceed.resp } := by
  cases hp : s.cmd.pos <;> simp only [State.clientProceed, hp]
  case recvSucc => unfold State.recvSucc; split <;> rfl
  all_goals rfl

/-! ### `exec` -/

/-- All that a port operation other than SHUTDOWN and INIT can write in the step that issues it. -/
theorem exec_port_frame {i : Instr} {s t : State} (hp : encode i ≠ none) (hs : i ≠ .shutdown) (hi : i ≠ .init)
    (h : exec i s = .next t) :
    t = { s with pool := t.pool, links := t.links, owner := t.owner, cmd := t.cmd, resp := t.resp, draws := t.draws } := by
  cases i
  case nop | reserved101 => cases h; rfl
  case shutdown => exact absurd rfl hs
  case init => exact absurd rfl hi
  case alloc => simp only [exec, execAlloc] at h; split at h <;> cases h <;> rfl
  case free b => simp only [exec, execFree] at h; split at h <;> cases h <;> rfl
  case send b => simp only [exec, execSend] at h; split at h <;> cases h <;> rfl
  case receive => simp only [exec, execReceive] at h; split at h <;> cases h <;> rfl
  case bufRd b off =>
    simp only [exec, execBufRd] at h
    split at h
    · cases h; rfl
    · split at h
      · split at h <;> cases h <;> rfl
      · cases h; rfl
  case bufWr b off v =>
    simp only [exec, execBufWr] at h
    split at h
    · cases h; rfl
    · split at h
      · split at h <;> cases h <;> rfl
      · cases h; rfl
  all_goals exact absurd rfl hp

/-- All that an operation without a port word, XCHG aside, can write. -/
theorem exec_internal_frame {i : Instr} {s t : State} (hp : encode i = none) (hx : ∀ m, i ≠ .xchg m)
    (h : exec i s = .next t) :
    t = { s with
      pool := t.pool, links := t.links, owner := t.owner, curRx := t.curRx, curTx := t.curTx, busy := t.busy
      xferId := t.xferId, dmaRx := t.dmaRx, dmaTx := t.dmaTx, spi := t.spi, miso := t.miso, ret := t.ret } := by
  cases i
  case nop | alloc | free | send | receive | reserved101 | shutdown | init | bufRd | bufWr => cases hp
  case xchg m => exact absurd rfl (hx m)
  case edge => cases h; rw [State.edge_frame]
  case start => cases h; rw [State.start_frame]
  case finish => cases h; rw [State.finish_frame]
  case crcFlag => cases h; rw [State.crcFlag_frame]
  all_goals cases h; rfl

/-- `link_fault` is written by no operation but XCHG (R43). -/
theorem exec_linkFault_of_ne_xchg {i : Instr} {s t : State} (hx : ∀ m, i ≠ .xchg m) (h : exec i s = .next t) :
    t.linkFault = s.linkFault := by
  by_cases hp : encode i = none
  · rw [exec_internal_frame hp hx h]
  · by_cases hs : i = .shutdown
    · subst hs; cases h; rfl
    · by_cases hi : i = .init
      · subst hi; cases h; rfl
      · rw [exec_port_frame hp hs hi h]

/-- `enabled` is written by no operation but SHUTDOWN and INIT (R33). -/
theorem exec_enabled_of_ne {i : Instr} {s t : State} (hs : i ≠ .shutdown) (hi : i ≠ .init) (h : exec i s = .next t) :
    t.enabled = s.enabled := by
  by_cases hp : encode i = none
  · by_cases hx : ∃ m, i = .xchg m
    · obtain ⟨m, rfl⟩ := hx
      cases h; rw [State.xchg_frame]
    · rw [exec_internal_frame hp (not_exists.1 hx) h]
  · rw [exec_port_frame hp hs hi h]

/-! ### The words of the port -/

theorem withoutBuffer_ok {w : BitVec 8} {i j : Instr} (h : withoutBuffer w j = .ok i) : i = j := by
  unfold withoutBuffer at h
  split at h <;> cases h
  rfl

/-- A word names an operation that has a word (R105): link events and internal operations are named by none. -/
theorem encode_ne_none_of_decode {w : PortWord} {i : Instr} (h : decode w = .ok i) : encode i ≠ none := by
  cases w with
  | cw w =>
    simp only [decode, decodeCW] at h
    split at h
    case h_3 | h_4 | h_6 => cases h; nofun -- FREE, SEND, RESERVED_101: every index is taken
    all_goals rw [withoutBuffer_ok h]; nofun
  | ba w v =>
    simp only [decode, decodeBA] at h
    split at h <;> cases h <;> nofun

/-- A word at the client port leaves `link_fault` as it is, whether it names an operation or is refused (R43). -/
theorem issueWord_linkFault {w : PortWord} {s t : State} (h : issueWord w s = .next t) : t.linkFault = s.linkFault := by
  unfold issueWord at h
  cases hd : decode w with
  | ok i =>
    rw [hd] at h
    have hx : ∀ m, i ≠ .xchg m := by rintro m rfl; exact encode_ne_none_of_decode hd rfl
    exact exec_linkFault_of_ne_xchg hx h
  | error r => rw [hd] at h; cases h; rfl

/-! ### `link_fault` along a step -/

/-- An entry of the schedule that is no exchange and no hardware reset leaves `link_fault` as it is (R43). -/
theorem runEvent_linkFault {e : Event} {rest : List Event} {s t : State} (hx : ∀ m, e ≠ .xchg m) (hr : e ≠ .hwReset)
    (h : runEvent e rest s = .next t) : t.linkFault = s.linkFault := by
  cases e with
  | edge => exact (exec_linkFault_of_ne_xchg (i := .edge) nofun h :)
  | xchg m => exact absurd rfl (hx m)
  | issue w =>
    simp only [runEvent] at h
    split at h
    · exact (issueWord_linkFault h :)
    · cases h; rw [State.clientProceed_frame]
  | proceed => cases h; rw [State.clientProceed_frame]
  | hwReset => exact absurd rfl hr

/-- An exchange as the next entry sets `link_fault` when it is a link violation, and only then (R43, R179). -/
theorem runEvent_xchg_linkFault {m : Byte} {rest : List Event} {s t : State} (h : runEvent (.xchg m) rest s = .next t) :
    t.linkFault = (s.linkFault || (s.enabled && !s.busy)) := by
  cases h; rw [State.xchg_frame]

/-! ### Reset -/

/-- A header byte of an empty list of pool bytes is 0x00 (R41). -/
theorem byteAt_reset_header (i : BufIdx) {off : Offset} (h : off.val < 4) : State.reset.byteAt i off = 0x00#8 := by
  have hm : poolKey i off % 64 < 4 := by rw [poolKey_mod]; exact h
  simp [State.byteAt, State.reset, State.resetWith, Memory.read, Memory.lookup, unlistedByte, hm]

/-- The buffers are linked in ascending order after reset (R41). -/
theorem nextOf_linksReset {i j : BufIdx} (h : j.val = i.val + 1) : Links.reset.nextOf i = some j := by
  simp [Links.nextOf, Links.reset, Vector.get_eq_getElem, ← h]

end Sys2Proof.Machine
end

section
/-! The statements of the family `10_state.md`: what reset leaves, `link_fault` and `enabled`. -/

namespace Sys2Proof.Machine

/-- Settles O43: an exchange sets the mark exactly outside a frame while enabled, and no other entry writes it. -/
theorem linkFaultIsSticky : Obligations.LinkFaultIsSticky := by
  refine ⟨rfl, fun s t h hr => ?_⟩
  cases hin : s.inputs with
  | nil =>
    simp only [step, hin] at h
    cases h
    exact ⟨id, fun h0 => by simp [h0]⟩
  | cons e rest =>
    simp only [step, hin] at h
    by_cases hx : ∃ m, e = .xchg m
    · obtain ⟨m, rfl⟩ := hx
      have ht := runEvent_xchg_linkFault h
      exact ⟨fun h1 => by simp [ht, h1], fun h0 => by simp [ht, h0]⟩
    · have hne : ∀ m, e ≠ .xchg m := not_exists.1 hx
      have ht := runEvent_linkFault hne (fun he => hr rest (by rw [hin, he])) h
      exact ⟨fun h1 => ht.trans h1, fun h0 => by simp [ht, h0, hne]⟩

/-- Settles O44, from the frames of the operations. -/
theorem enabledBitRules : Obligations.EnabledBitRules := by
  refine ⟨rfl, ?shutdown, ?init, ?others, ?proceed, ?edge, ?xchg⟩
  case shutdown => intro s t h; cases h; rfl
  case init => intro s t h; cases h; rfl
  case others => exact fun i s t hs hi h => exec_enabled_of_ne hs hi h
  case proceed => intro s; rw [State.clientProceed_frame]
  case edge => exact fun s he => congrArg Host.Outcome.next (State.edge_of_disabled he)
  case xchg =>
    intro s t m he h
    cases h
    rw [State.xchg_of_disabled m he]

/-- Settles O1, item by item of R41's table. -/
theorem resetLeavesTheListedValues : Obligations.ResetLeavesTheListedValues :=
  ⟨fun i _ h => byteAt_reset_header i h, fun _ _ h => nextOf_linksReset h, rfl, rfl, rfl, rfl,
    State.ownerOf_resetWith ptb, rfl, rfl, rfl, rfl, rfl, rfl, rfl, rfl, rfl, rfl⟩

end Sys2Proof.Machine
end

section
/-! SUPPORT. Each micro-step of a queue operation as the one write it makes to the link space: Q_INIT, and the two sides of
DEQ.LONE and DEQ.UNLINK. -/

namespace Sys2Proof.Machine

@[simp] theorem Links.next_setQueue (l : Links) (q : QueueName) (v : Queue) : (l.setQueue q v).next = l.next := by
  cases q <;> rfl

/-- After Q_INIT the queue is quiescent with no node (R121). -/
theorem Links.quiescent_qInit (l : Links) (q : QueueName) : Quiescent (l.qInit q) q [] where
  nodup := List.nodup_nil
  chain := rfl
  head := congrArg Queue.head (l.queue_setQueue_self q Queue.empty)
  last := congrArg Queue.last (l.queue_setQueue_self q Queue.empty)

theorem Links.deqLone_of_last {l : Links} {q : QueueName} {h : BufIdx} (hl : (l.queue q).last = .node h) :
    l.deqLone q h = (true, l.setQueue q { l.queue q with last := .sent }) := by
  rw [Links.deqLone_eq, if_pos hl]

theorem Links.deqLone_of_last_ne {l : Links} {q : QueueName} {h : BufIdx} (hl : (l.queue q).last ≠ .node h) :
    l.deqLone q h = (false, l) := by
  rw [Links.deqLone_eq, if_neg hl]

theorem Links.deqUnlink_of_head {l : Links} {q : QueueName} {h : BufIdx} (n : Option BufIdx)
    (hh : (l.queue q).head = some h) : l.deqUnlink q h n = l.setQueue q { l.queue q with head := n } := by
  rw [Links.deqUnlink, Links.casHead, if_pos hh]

theorem Links.deqUnlink_of_head_ne {l : Links} {q : QueueName} {h : BufIdx} (n : Option BufIdx)
    (hh : (l.queue q).head ≠ some h) : l.deqUnlink q h n = l := by
  rw [Links.deqUnlink, Links.casHead, if_neg hh]

theorem retOfSucc_deqSucc (l : Links) (h : BufIdx) (lone : Bool) :
    retOfSucc (l.deqSucc h lone) = if l.nextOf h = none ∧ lone = false then .none else .link (l.nextOf h) := by
  unfold Links.deqSucc; split <;> rfl

end Sys2Proof.Machine
end

section
/-! The statements of the family `40_queue.md`: the micro-steps of enqueue and dequeue, run alone. -/

namespace Sys2Proof.Machine

/-- Settles O48: Q_INIT, ENQ.SWAP and ENQ.LINK at the sentinel write one queue object, ENQ.LINK at a node one link. -/
theorem enqueueMicroSteps : Obligations.EnqueueMicroSteps := by
  refine ⟨fun s q => ?qInit, fun s q x => ?enqSwap, fun s q x => ?enqLinkSent, fun s q i x => ?enqLinkNode⟩
  case qInit =>
    exact ⟨_, rfl, s.links.queue_setQueue_self q _, fun _ hq => s.links.queue_setQueue_ne _ hq,
      s.links.next_setQueue q _, congrArg Prod.fst (s.links.quiescent_qInit q).dequeue_nil, rfl⟩
  case enqSwap =>
    exact ⟨_, rfl, rfl, s.links.queue_setQueue_self q _, fun _ hq => s.links.swapLast_other _ hq,
      s.links.next_setQueue q _, fun _ => ⟨_, rfl, congrArg Ret.ref (s.links.swapLast_last q _)⟩, rfl⟩
  case enqLinkSent =>
    exact ⟨_, rfl, s.links.queue_setQueue_self q _, fun _ hq => s.links.setNxt_other .sent _ hq,
      s.links.next_setQueue q _, rfl⟩
  case enqLinkNode =>
    exact ⟨_, rfl, s.links.nextOf_setNext_self i _, fun _ hj => s.links.nextOf_setNext_ne _ hj,
      fun q' => s.links.queue_setNext q' i _, rfl⟩

/-- Settles O49, with the two sides of DEQ.LONE, DEQ.SUCC and DEQ.UNLINK apart. -/
theorem dequeueMicroSteps : Obligations.DequeueMicroSteps := by
  refine ⟨fun s q => ?head, fun s q h hl => ?notLone, fun s q h hl => ?lone, fun s q h lone => ?succ,
    fun s q h n hh => ?notHead, fun s q h n hh => ?unlink, fun s h => ?clear⟩
  case head => cases hd : (s.links.queue q).head <;> simp [exec, execDeqHead, Links.deqHead, retOfNode, hd]
  case notLone => simp only [exec, execDeqLone, Links.deqLone_of_last_ne hl]
  case lone =>
    simp only [exec, execDeqLone, Links.deqLone_of_last hl]
    exact ⟨_, rfl, rfl, s.links.queue_setQueue_self q _, fun _ hq => s.links.queue_setQueue_ne _ hq,
      s.links.next_setQueue q _, rfl⟩
  case succ => simp only [exec, execDeqSucc, retOfSucc_deqSucc]
  case notHead => simp only [exec, execDeqUnlink, Links.deqUnlink_of_head_ne n hh]
  case unlink =>
    simp only [exec, execDeqUnlink, Links.deqUnlink_of_head n hh]
    exact ⟨_, rfl, s.links.queue_setQueue_self q _, fun _ hq => s.links.queue_setQueue_ne _ hq,
      s.links.next_setQueue q _, rfl⟩
  case clear =>
    exact ⟨_, rfl, rfl, s.links.nextOf_setNext_self h _, fun _ hj => s.links.nextOf_setNext_ne _ hj,
      fun q' => s.links.queue_setNext q' h _, rfl⟩

end Sys2Proof.Machine
end

section
/-! SUPPORT. The client port: which command words are refused; what a step of the schedule runs; the header bytes FREE
zeroes and INIT clears; and each port operation by its cases. -/

namespace Sys2Proof.Machine

/-! ### Command words that name no operation (R104, R153) -/

@[simp] theorem cwOp_append (op : BitVec 3) (idx : BitVec 5) : cwOp (op ++ idx) = op :=
  BitVec.extractLsb'_append_eq_left

@[simp] theorem cwIdx_append (op : BitVec 3) (idx : BitVec 5) : cwIdx (op ++ idx) = idx :=
  BitVec.extractLsb'_append_eq_right

/-- FREE, SEND and the reserved code take every index; any other code takes index 0 only. -/
theorem decodeCW_of_idx_ne_zero {op : BitVec 3} {idx : BitVec 5} (hidx : idx ≠ 0#5) (hfree : op ≠ 0b010#3)
    (hsend : op ≠ 0b011#3) (hres : op ≠ 0b101#3) : decodeCW (op ++ idx) = .error (.idxNotZero op idx) := by
  simp only [decodeCW, cwOp_append]
  split
  case h_3 h => exact absurd (BitVec.eq_of_toNat_eq h) hfree
  case h_4 h => exact absurd (BitVec.eq_of_toNat_eq h) hsend
  case h_6 h => exact absurd (BitVec.eq_of_toNat_eq h) hres
  all_goals simp [withoutBuffer, hidx]

/-- An illegal command word is refused with ERR_ILLEGAL, whether the decoder rejects it or names RESERVED_101. -/
theorem issueWord_of_illegal {op : BitVec 3} {idx : BitVec 5}
    (h : op = 0b101#3 ∨ (idx ≠ 0#5 ∧ op ≠ 0b010#3 ∧ op ≠ 0b011#3)) (s : State) :
    issueWord (.cw (op ++ idx)) s = .next (s.refuse .errIllegal) := by
  by_cases hres : op = 0b101#3
  · subst hres
    simp [issueWord, decode, decodeCW, exec, execReserved101]
  · obtain ⟨hidx, hfree, hsend⟩ := h.resolve_left hres
    simp only [issueWord, decode, decodeCW_of_idx_ne_zero hidx hfree hsend hres, State.rejectWord]

/-- The same for a command that takes no buffer, by its code. -/
theorem issueWord_of_idx_ne_zero {idx : BitVec 5} (op : BitVec 3) (hidx : idx ≠ 0#5) (s : State)
    (hop : op ≠ 0b010#3 ∧ op ≠ 0b011#3 := by decide) :
    issueWord (.cw (op ++ idx)) s = .next (s.refuse .errIllegal) :=
  issueWord_of_illegal (.inr ⟨hidx, hop⟩) s

/-! ### What a step runs (R275) -/

theorem step_of_issue {s : State} {w : PortWord} {rest : List Event} (hin : s.inputs = .issue w :: rest)
    (hp : s.cmd.pos = .idle) : step s = issueWord w { s with inputs := rest } := by
  simp [step, hin, runEvent, hp]

theorem step_of_proceed {s : State} {rest : List Event} (hin : s.inputs = .proceed :: rest) :
    step s = .next ({ s with inputs := rest }.clientProceed) := by
  simp [step, hin, runEvent]

/-! ### Header bytes -/

theorem State.byteAt_zeroHeader_header (s : State) (i : BufIdx) {off : Offset} (h : off.val < 4) :
    (s.zeroHeader i).byteAt i off = 0x00#8 := by
  rw [State.byteAt_zeroHeader, if_pos ⟨rfl, h⟩]

theorem State.byteAt_zeroHeader_other (s : State) {i j : BufIdx} {off : Offset} (h : j ≠ i ∨ 4 ≤ off.val) :
    (s.zeroHeader i).byteAt j off = s.byteAt j off := by
  rw [State.byteAt_zeroHeader, if_neg]
  rintro ⟨hj, hoff⟩
  exact h.elim (fun hne => hne hj) (Nat.not_le.2 hoff)

/-- INIT takes the header bytes back to 0x00 and keeps the others (R148). -/
theorem State.byteAt_initialised (s : State) (c : Config) (i : BufIdx) (off : Offset) :
    (s.initialised c).byteAt i off = if off.val < 4 then 0x00#8 else s.byteAt i off := by
  simp only [State.byteAt, State.initialised, Memory.read_clearHeaders, poolKey_mod]

/-! ### Dequeue and ENQ.LINK -/

/-- A dequeue on a quiescent queue answers the oldest node, NONE when there is none (R125, R130). -/
theorem Quiescent.dequeue_fst {l : Links} {q : QueueName} {c : List BufIdx} (hq : Quiescent l q c) :
    (l.dequeue q).1 = c.head? := by
  cases c with
  | nil => rw [hq.dequeue_nil]; rfl
  | cons h t => exact hq.dequeue_cons.1

/-- ENQ.LINK behind the sentinel writes the queue's head word (R123). -/
theorem Links.enqLink_of_sent {l : Links} {p : NodeRef} (hp : p = .sent) (q : QueueName) (x : BufIdx) :
    l.enqLink q p x = l.setQueue q { l.queue q with head := some x } := by
  rw [hp]; rfl

/-- ENQ.LINK behind a node writes that node's link (R123). -/
theorem Links.enqLink_of_node {l : Links} {p : NodeRef} {i : BufIdx} (hp : p = .node i) (q : QueueName) (x : BufIdx) :
    (l.enqLink q p x).nextOf i = some x ∧ (∀ j, j ≠ i → (l.enqLink q p x).nextOf j = l.nextOf j) ∧
      l.enqLink q p x = { l with next := (l.enqLink q p x).next } := by
  subst hp
  exact ⟨l.nextOf_setNext_self i _, fun _ hj => l.nextOf_setNext_ne _ hj, rfl⟩

/-! ### FREE and SEND: the ownership check -/

theorem exec_free_of_not_client {s : State} {i : BufIdx} (h : s.ownerOf i ≠ .client) :
    exec (.free i) s = .next (s.refuse .errOwner) := if_neg h

theorem exec_free_of_client {s : State} {i : BufIdx} (h : s.ownerOf i = .client) :
    exec (.free i) s =
      .next (((s.zeroHeader i).setOwner i .free).beginCommand { s.cmd with pos := .freeSwap, x := i }) := if_pos h

theorem exec_send_of_not_client {s : State} {i : BufIdx} (h : s.ownerOf i ≠ .client) :
    exec (.send i) s = .next (s.refuse .errOwner) := if_neg h

theorem exec_send_of_client {s : State} {i : BufIdx} (h : s.ownerOf i = .client) :
    exec (.send i) s = .next ({ s.setOwner i .outbox with links := (s.links.enqSwap .outbox i).2 }.beginCommand
      { s.cmd with pos := .sendLink, x := i, p := (s.links.enqSwap .outbox i).1 }) := if_pos h

/-! ### Buffer accesses: range, then owner, then offset 36 -/

theorem offsetOfField_of_le {off : BitVec 6} (h : 37 ≤ off.toNat) : offsetOfField off = none :=
  dif_neg (Nat.not_lt.2 h)

theorem offsetOfField_of_val_eq {off : BitVec 6} {o : Offset} (h : o.val = off.toNat) : offsetOfField off = some o := by
  rw [offsetOfField, dif_pos (h ▸ o.isLt)]
  exact congrArg some (Fin.ext h.symm)

theorem exec_bufRd_of_le {off : BitVec 6} (h : 37 ≤ off.toNat) (i : BufIdx) (s : State) :
    exec (.bufRd i off) s = .next (s.refuse .errRange) := by
  simp only [exec, execBufRd, offsetOfField_of_le h]

theorem exec_bufRd_of_val_eq {off : BitVec 6} {o : Offset} (h : o.val = off.toNat) (i : BufIdx) (s : State) :
    exec (.bufRd i off) s =
      if s.ownerOf i = .client then
        if o = offCrcSlot then .next (s.draw.2.respond .ok none (some s.draw.1))
        else .next (s.respond .ok none (some (s.byteAt i o)))
      else .next (s.refuse .errOwner) := by
  simp only [exec, execBufRd, offsetOfField_of_val_eq h, State.memRead_buf]

theorem exec_bufWr_of_le {off : BitVec 6} (h : 37 ≤ off.toNat) (i : BufIdx) (v : Byte) (s : State) :
    exec (.bufWr i off v) s = .next (s.refuse .errRange) := by
  simp only [exec, execBufWr, offsetOfField_of_le h]

theorem exec_bufWr_of_val_eq {off : BitVec 6} {o : Offset} (h : o.val = off.toNat) (i : BufIdx) (v : Byte) (s : State) :
    exec (.bufWr i off v) s =
      if s.ownerOf i = .client then
        if o = offCrcSlot then .next (s.respond .ok none none)
        else .next ((s.memWrite (.buf i) o v).respond .ok none none)
      else .next (s.refuse .errOwner) := by
  simp only [exec, execBufWr, offsetOfField_of_val_eq h]

theorem offset_ne_crcSlot {o : Offset} (h : o.val < 36) : o ≠ offCrcSlot :=
  fun e => Nat.ne_of_lt h (congrArg Fin.val e)

end Sys2Proof.Machine
end

section
/-! The statements of the family `41_pool_commands.md`: the client port's commands and buffer accesses, and the
handler's two helpers. -/

namespace Sys2Proof.Machine

/-- Settles O10: with no command in progress the step is the port's answer to the word. -/
theorem illegalCommandWordsAreRefused : Obligations.IllegalCommandWordsAreRefused := by
  refine ⟨fun s rest op idx hp hin h => ?_, fun s idx => rfl⟩
  rw [step_of_issue hin hp, issueWord_of_illegal h]
  rfl

/-- Settles O13, with NONE and a buffer as the two answers of the dequeue. -/
theorem allocDequeuesFree : Obligations.AllocDequeuesFree := by
  refine ⟨fun s hd => ?none, fun s r hd => ?some, fun s f ib ob hq hp => ?empty, fun s idx hidx => ?illegal⟩
  case none => simp only [exec, execAlloc, State.allocInternal, hd, Links.dequeue_none hd]; rfl
  case some =>
    simp only [exec, execAlloc, State.allocInternal, hd]
    exact ⟨_, rfl, rfl, State.ownerOf_setOwner_self _ r _, fun _ hj => State.ownerOf_setOwner_ne _ _ hj, rfl,
      fun _ _ => rfl, rfl⟩
  case empty =>
    have hfree : Quiescent s.links .free f := (freeForm_iff (by simp [hp])).1 hq.freeForm
    rw [hfree.dequeue_fst, List.head?_eq_none_iff]
  case illegal => exact issueWord_of_idx_ne_zero 0b001#3 hidx s

/-- Settles O16, one clause per micro-step. -/
theorem freeRunsItsThreeMicroSteps : Obligations.FreeRunsItsThreeMicroSteps := by
  refine ⟨fun s i h => ?refused, fun s i h => ?zero, fun s rest hin hp => ?swap, fun s rest hin hp => ?link⟩
  case refused => exact exec_free_of_not_client h
  case zero =>
    exact ⟨_, exec_free_of_client h, fun _ hoff => s.byteAt_zeroHeader_header i hoff,
      fun _ _ h => s.byteAt_zeroHeader_other h, State.ownerOf_setOwner_self _ i _,
      fun _ hj => State.ownerOf_setOwner_ne _ _ hj, rfl, rfl⟩
  case swap =>
    simp only [step_of_proceed hin, State.clientProceed, hp]
    rfl
  case link =>
    simp only [step_of_proceed hin, State.clientProceed, hp]
    exact ⟨_, rfl, fun hs => Links.enqLink_of_sent hs .free _, fun _ hn => Links.enqLink_of_node hn .free _, rfl⟩

/-- Settles O18, one clause per micro-step. -/
theorem sendRunsItsTwoMicroSteps : Obligations.SendRunsItsTwoMicroSteps := by
  refine ⟨fun s i h => ?refused, fun s i h => ?swap, fun s rest hin hp => ?link⟩
  case refused => exact exec_send_of_not_client h
  case swap =>
    exact ⟨_, exec_send_of_client h, s.ownerOf_setOwner_self i _, fun _ hj => s.ownerOf_setOwner_ne _ hj, rfl, rfl,
      fun _ _ => rfl, rfl⟩
  case link =>
    simp only [step_of_proceed hin, State.clientProceed, hp]
    exact ⟨_, rfl, fun hs => Links.enqLink_of_sent hs .outbox _, fun _ hn => Links.enqLink_of_node hn .outbox _, rfl⟩

/-- Settles O24, item by item of R148. -/
theorem initRestoresTheResetState : Obligations.InitRestoresTheResetState := by
  refine ⟨fun s => ?items, fun s idx hidx => issueWord_of_idx_ne_zero 0b111#3 hidx s⟩
  have hbyte := s.byteAt_initialised ptb
  exact ⟨_, rfl, rfl, fun i off hoff => (hbyte i off).trans (if_pos hoff),
    fun i off hoff => (hbyte i off).trans (if_neg (Nat.not_lt.2 hoff)), rfl, State.ownerOf_resetWith ptb,
    rfl, rfl, rfl, rfl, rfl, rfl, rfl, rfl, rfl⟩

/-- Settles O27: the range check, the owner check, then offset 36 apart from the others. -/
theorem bufferReadAnswers : Obligations.BufferReadAnswers := by
  refine fun s i off => ⟨fun h => ?range, fun h ho => ?owner, fun h ho => ?slot, fun o h ho hc => ?byte⟩
  case range => exact exec_bufRd_of_le h i s
  case owner => rw [exec_bufRd_of_val_eq (o := ⟨off.toNat, h⟩) rfl, if_neg ho]; rfl
  case slot => rw [exec_bufRd_of_val_eq (o := offCrcSlot) h.symm, if_pos ho, if_pos rfl]; rfl
  case byte => rw [exec_bufRd_of_val_eq h, if_pos hc, if_neg (offset_ne_crcSlot ho)]; rfl

/-- Settles O28: the range check, the owner check, then offset 36 apart from the others. -/
theorem bufferWriteStoresOneByte : Obligations.BufferWriteStoresOneByte := by
  refine fun s i off v => ⟨fun h => ?range, fun h ho => ?owner, fun h ho => ?slot, fun o h ho hc => ?byte⟩
  case range => exact exec_bufWr_of_le h i v s
  case owner => rw [exec_bufWr_of_val_eq (o := ⟨off.toNat, h⟩) rfl, if_neg ho]; rfl
  case slot => rw [exec_bufWr_of_val_eq (o := offCrcSlot) h.symm, if_pos ho, if_pos rfl]; rfl
  case byte =>
    rw [exec_bufWr_of_val_eq h, if_pos hc, if_neg (offset_ne_crcSlot ho)]
    refine ⟨_, rfl, ?_, fun j w hw => ?_, rfl⟩
    · rw [State.respond_byteAt, State.byteAt_memWrite, if_pos ⟨rfl, rfl⟩]
    · exact s.byteAt_memWrite_target _ j o w v (hw.imp_left fun hj e => hj (Target.buf.inj e).symm)

/-- Settles O47, from the dequeue and the header laws. -/
theorem handlerAllocatesAndFrees : Obligations.HandlerAllocatesAndFrees := by
  refine ⟨fun s => ?alloc, fun s i => ?free⟩
  case alloc => exact ⟨_, rfl, rfl, rfl, fun _ _ => rfl, rfl⟩
  case free =>
    exact ⟨_, rfl, fun _ hoff => s.byteAt_zeroHeader_header i hoff, fun _ _ h => s.byteAt_zeroHeader_other h,
      State.ownerOf_setOwner_self _ i _, fun _ hj => State.ownerOf_setOwner_ne _ _ hj, rfl, rfl⟩

/-- Settles O12: the answer, and the refusal of a nonzero index. -/
theorem nopAnswersOkAndChangesNothing : Obligations.NopAnswersOkAndChangesNothing :=
  ⟨fun _ => rfl, fun s _ hidx => issueWord_of_idx_ne_zero 0b000#3 hidx s⟩

/-- Settles O23: after SHUTDOWN `enabled` is 0, which is all that EDGE and XCHG then read. -/
theorem shutdownPowersDownTheTransport : Obligations.ShutdownPowersDownTheTransport := by
  refine ⟨fun s => rfl, fun s t h => ?after, fun s idx hidx => issueWord_of_idx_ne_zero 0b110#3 hidx s⟩
  have hoff : t.enabled = false := by cases h; rfl
  refine ⟨congrArg Host.Outcome.next (State.edge_of_disabled hoff), fun m => ⟨_, rfl, ?_⟩⟩
  rw [State.xchg_of_disabled m hoff]

end Sys2Proof.Machine
end

section
/-! SUPPORT. The parts of START and FINISH and an exchange, as the statements of `42_transaction.md` read them: what a
staging leaves in its register, the links and the owners, what a disposal leaves when it is due, and the transmit side of
an exchange in each range of `k`. -/

namespace Sys2Proof.Machine

/-! ### Receive staging (R163, R175) -/

theorem State.stageRx_of_some {s : State} {i : BufIdx} (h : s.curRx = some i) : s.stageRx = s := by
  simp only [State.stageRx, h]

/-- An empty receive slot takes what the dequeue of FREE gives, NONE included, with the links it leaves. -/
theorem State.stageRx_of_none {s : State} (h : s.curRx = none) :
    s.stageRx.curRx = (s.links.dequeue .free).1 ∧ s.stageRx.links = (s.links.dequeue .free).2 := by
  obtain ⟨i, hi, -⟩ | ⟨-, hd, he⟩ | ⟨r, -, hd, he⟩ := s.stageRx_cases
  · exact absurd (h.symm.trans hi) (by simp)
  · rw [he, h, hd, Links.dequeue_none hd]
    exact ⟨rfl, rfl⟩
  · rw [he, hd]
    exact ⟨rfl, rfl⟩

/-- Only a newly staged buffer changes its owner. -/
theorem State.stageRx_ownerOf (s : State) (j : BufIdx) : s.stageRx.ownerOf j =
    if s.curRx = none ∧ s.stageRx.curRx = some j then .rxStaged else s.ownerOf j := by
  obtain ⟨i, hi, he⟩ | ⟨hc, -, he⟩ | ⟨r, hc, -, he⟩ := s.stageRx_cases
  · simp [he, hi]
  · simp [he, hc]
  · simp only [he, hc, true_and, Option.some.injEq, eq_comm (a := r)]
    exact s.ownerOf_setOwner r j .rxStaged

theorem State.stageRx_inbox (s : State) : s.stageRx.links.inbox = s.links.inbox := by
  cases hc : s.curRx with
  | some i => rw [State.stageRx_of_some hc]
  | none =>
    rw [(State.stageRx_of_none hc).2]
    exact s.links.dequeue_other (q := .free) (q' := .inbox) (by decide)

/-! ### Transmit staging (R164, R175) -/

theorem State.stageTx_of_some {s : State} {i : BufIdx} (h : s.curTx = some i) : s.stageTx = s := by
  simp only [State.stageTx, h]

/-- An empty transmit slot takes what the dequeue of OUTBOX gives, NONE included, with the links it leaves. -/
theorem State.stageTx_of_none {s : State} (h : s.curTx = none) :
    s.stageTx.curTx = (s.links.dequeue .outbox).1 ∧ s.stageTx.links = (s.links.dequeue .outbox).2 := by
  obtain ⟨i, hi, -⟩ | ⟨-, hd, he⟩ | ⟨r, -, hd, he⟩ := s.stageTx_cases
  · exact absurd (h.symm.trans hi) (by simp)
  · rw [he, h, hd, Links.dequeue_none hd]
    exact ⟨rfl, rfl⟩
  · rw [he, hd]
    exact ⟨rfl, rfl⟩

/-- Only a newly staged buffer changes its owner. -/
theorem State.stageTx_ownerOf (s : State) (j : BufIdx) : s.stageTx.ownerOf j =
    if s.curTx = none ∧ s.stageTx.curTx = some j then .txStaged else s.ownerOf j := by
  obtain ⟨i, hi, he⟩ | ⟨hc, -, he⟩ | ⟨r, hc, -, he⟩ := s.stageTx_cases
  · simp [he, hi]
  · simp [he, hc]
  · simp only [he, hc, true_and, Option.some.injEq, eq_comm (a := r)]
    exact s.ownerOf_setOwner r j .txStaged

theorem State.stageTx_inbox (s : State) : s.stageTx.links.inbox = s.links.inbox := by
  cases hc : s.curTx with
  | some i => rw [State.stageTx_of_some hc]
  | none =>
    rw [(State.stageTx_of_none hc).2]
    exact s.links.dequeue_other (q := .outbox) (q' := .inbox) (by decide)

/-! ### Both stagings, receive first -/

theorem State.prestage_curRx (s : State) : s.prestage.curRx = s.stageRx.curRx := s.stageRx.stageTx_curRx

theorem State.prestage_of_curTx_some {s : State} {i : BufIdx} (h : s.curTx = some i) : s.prestage = s.stageRx :=
  State.stageTx_of_some (s.stageRx_curTx.trans h)

theorem State.prestage_of_curTx_none {s : State} (h : s.curTx = none) :
    s.prestage.curTx = (s.stageRx.links.dequeue .outbox).1 ∧ s.prestage.links = (s.stageRx.links.dequeue .outbox).2 :=
  State.stageTx_of_none (s.stageRx_curTx.trans h)

theorem State.prestage_ownerOf (s : State) (j : BufIdx) : s.prestage.ownerOf j =
    if s.curTx = none ∧ s.prestage.curTx = some j then .txStaged
    else if s.curRx = none ∧ s.prestage.curRx = some j then .rxStaged
    else s.ownerOf j := by
  rw [s.prestage_curRx, ← s.stageRx_ownerOf j, ← s.stageRx_curTx]
  exact s.stageRx.stageTx_ownerOf j

/-- What the two stagings leave in the registers, the links and the owners, for all four combinations of staged slots. -/
theorem State.prestage_stages (u : State) :
    (∀ i, u.curRx = some i → u.prestage.curRx = some i) ∧ (∀ i, u.curTx = some i → u.prestage.curTx = some i) ∧
    (u.curRx = none → u.prestage.curRx = (u.links.dequeue .free).1) ∧
    (∀ i, u.curRx = some i → u.curTx = none → u.prestage.curTx = (u.links.dequeue .outbox).1 ∧
      u.prestage.links = (u.links.dequeue .outbox).2) ∧
    (u.curRx = none → u.curTx = none → u.prestage.curTx = ((u.links.dequeue .free).2.dequeue .outbox).1 ∧
      u.prestage.links = ((u.links.dequeue .free).2.dequeue .outbox).2) ∧
    (∀ i, u.curRx = none → u.curTx = some i → u.prestage.links = (u.links.dequeue .free).2) ∧
    (∀ i j, u.curRx = some i → u.curTx = some j → u.prestage.links = u.links) ∧
    (∀ r, u.curRx = none → u.prestage.curRx = some r → u.prestage.curTx ≠ some r → u.prestage.ownerOf r = .rxStaged) ∧
    (∀ r, u.curTx = none → u.prestage.curTx = some r → u.prestage.ownerOf r = .txStaged) ∧
    (∀ j, (u.curRx = none → u.prestage.curRx ≠ some j) → (u.curTx = none → u.prestage.curTx ≠ some j) →
      u.prestage.ownerOf j = u.ownerOf j) := by
  refine ⟨fun i hr => ?rxKept, fun i ht => ?txKept, fun hr => ?rxTaken, fun i hr ht => ?txTaken, fun hr ht => ?bothTaken,
    fun i hr ht => ?rxLinks, fun i j hr ht => ?noLinks, fun r hr hr' ht' => ?rxOwner, fun r ht ht' => ?txOwner,
    fun j hr ht => ?otherOwner⟩
  case rxKept => rw [u.prestage_curRx, State.stageRx_of_some hr, hr]
  case txKept => rw [State.prestage_of_curTx_some ht, State.stageRx_curTx, ht]
  case rxTaken => rw [u.prestage_curRx, (State.stageRx_of_none hr).1]
  case txTaken => simpa only [State.stageRx_of_some hr] using State.prestage_of_curTx_none ht
  case bothTaken => simpa only [(State.stageRx_of_none hr).2] using State.prestage_of_curTx_none ht
  case rxLinks => rw [State.prestage_of_curTx_some ht, (State.stageRx_of_none hr).2]
  case noLinks => rw [State.prestage_of_curTx_some ht, State.stageRx_of_some hr]
  case rxOwner => rw [u.prestage_ownerOf, if_neg fun h => ht' h.2, if_pos ⟨hr, hr'⟩]
  case txOwner => rw [u.prestage_ownerOf, if_pos ⟨ht, ht'⟩]
  case otherOwner => rw [u.prestage_ownerOf, if_neg fun h => ht h.1 h.2, if_neg fun h => hr h.1 h.2]

/-! ### START (R162) -/

/-- START stores no byte. -/
theorem State.start_byteAt (s : State) (j : BufIdx) (w : Offset) : (s.start ptb).byteAt j w = s.byteAt j w :=
  s.prestage_byteAt j w

/-- START leaves INBOX alone. -/
theorem State.start_inbox (s : State) : (s.start ptb).links.inbox = s.links.inbox :=
  s.stageRx.stageTx_inbox.trans s.stageRx_inbox

/-! ### The disposals, when they are due (R168, R169) -/

theorem State.disposeRx_of_complete {s : State} {i : BufIdx} (ht : s.dmaRx.tcif = true) (hc : s.curRx = some i) :
    s.disposeRx = { s.crcFlag.setOwner i .inbox with links := s.links.enqueue .inbox i, curRx := none } := by
  simp only [State.disposeRx, hc, ht, if_true]

theorem State.disposeTx_of_complete {s : State} {i : BufIdx} (ht : s.dmaTx.tcif = true) (hc : s.curTx = some i) :
    s.disposeTx = { s.freeInternal i with curTx := none } := by
  simp only [State.disposeTx, hc, ht, if_true]

/-! ### FINISH (R167) -/

/-- FINISH touches a channel's `en` only. -/
theorem State.finish_dma (s : State) :
    (s.finish ptb).dmaRx = s.dmaRx.disable ∧ (s.finish ptb).dmaTx = s.dmaTx.disable := by
  simp [State.finish]

/-- FINISH re-arms the SPI unit, whatever the earlier parts found (R174). -/
theorem State.finish_spi (s : State) : (s.finish ptb).spi =
    { lead := s.spi.lead, k := 0, rxcrc := linkCrc.init, txcrc := linkCrc.init, crcerr := false } := by
  simp [State.finish]

/-! ### The transmit side of an exchange (R171) -/

/-- One byte moved, below the channel's count. -/
theorem Dma.advance_of_lt {count : Nat} {d : Dma count} (h : d.pos.val < count) :
    d.advance = { d with
      pos := ⟨d.pos.val + 1, Nat.succ_lt_succ h⟩, tcif := d.tcif || decide (d.pos.val + 1 = count) } :=
  dif_pos (Nat.succ_lt_succ h)

/-- An exchange whose outgoing byte leaves the transmit side as it was. -/
theorem State.exchange_tx_kept {c : Config} (m : Byte) {s : State} {b : Byte} {n : Nat}
    (h : s.outgoing c s.spi.k = (b, { s with draws := n })) :
    (s.exchange c m).miso = some b ∧ (s.exchange c m).spi.txcrc = s.spi.txcrc ∧ (s.exchange c m).dmaTx = s.dmaTx := by
  rw [s.exchange_miso, s.exchange_txcrc, s.exchange_dmaTx, h]
  exact ⟨rfl, rfl, rfl⟩

/-- A data byte sent: it is the byte at the channel's position, fed to `txcrc`, and the channel moves on. -/
theorem State.exchange_tx_data {c : Config} (m : Byte) {s : State} (hl : c.lead = 1) (h1 : 1 ≤ s.spi.k)
    (h36 : s.spi.k ≤ 36) (he : s.dmaTx.en = true) :
    (s.exchange c m).miso = some (s.memRead s.dmaTx.idx s.dmaTx.pos) ∧
    (s.exchange c m).spi.txcrc = c.linkCrc.step s.spi.txcrc (s.memRead s.dmaTx.idx s.dmaTx.pos) ∧
    (s.exchange c m).dmaTx = s.dmaTx.advance := by
  rw [s.exchange_miso, s.exchange_txcrc, s.exchange_dmaTx, s.outgoing_data c hl h1 h36 he]
  exact ⟨rfl, rfl, rfl⟩

/-- From exchange 37 on nothing of the host's byte is kept (R178). -/
theorem State.exchange_of_beyond (c : Config) (m : Byte) {s : State} (h : 37 ≤ s.spi.k) :
    s.exchange c m = { (s.outgoing c s.spi.k).2 with
      spi := { (s.outgoing c s.spi.k).2.spi with k := s.spi.k + 1 }, miso := some (s.outgoing c s.spi.k).1 } := by
  simp only [State.exchange, State.incoming_beyond c m _ h]

/-- XCHG inside a transaction. -/
theorem exec_xchg_of_busy {s : State} (m : Byte) (he : s.enabled = true) (hb : s.busy = true) :
    exec (.xchg m) s = .next (s.exchange ptb m) :=
  congrArg Host.Outcome.next (State.xchg_of_busy m he hb)

theorem crcErrAfter_eq_true_iff (crcerr : Bool) (m rxcrc : Byte) :
    crcErrAfter crcerr m rxcrc = true ↔ crcerr = true ∨ m ≠ rxcrc := by
  simp only [crcErrAfter, Bool.or_eq_true, decide_eq_true_eq]

end Sys2Proof.Machine
end

section
/-! The statements of the family `42_transaction.md`: EDGE, START and FINISH part by part, and the exchanges. -/

namespace Sys2Proof.Machine

/-- Settles O31: the stagings leave the unit's registers and INBOX alone; arming and preloading write the rest. -/
theorem startArmsAndPreloads : Obligations.StartArmsAndPreloads := by
  refine ⟨rfl, fun s => ⟨{ s.start ptb with ret := .done }, rfl, rfl, rfl, rfl, ?spi, ?xferId, s.start_inbox,
    s.start_byteAt, ?frame⟩⟩
  case spi => rw [s.start_frame]
  case xferId =>
    rw [s.start_frame]
    exact BitVec.toNat_add s.xferId 1#8
  case frame => rw [s.start_frame]

/-- Settles O32: START stages what the two stagings stage, and the parts after them touch none of it. -/
theorem startStagesFromFreeAndOutbox : Obligations.StartStagesFromFreeAndOutbox :=
  fun s => ⟨{ s.prestage.armDma.preloadTransferId with busy := true, ret := .done }, rfl, s.prestage_stages⟩

/-- Settles O34: the disposal that is not due, then the flagged byte, the owner and the links of the one that is. -/
theorem receivedFrameIsDisposed : Obligations.ReceivedFrameIsDisposed := by
  refine fun s => ⟨State.disposeRx_of_not, fun i ht hc => ?_⟩
  have hbyte (j : BufIdx) (w : Offset) : s.disposeRx.byteAt j w = s.crcFlag.byteAt j w := by
    rw [State.disposeRx_of_complete ht hc]; rfl
  have howner (j : BufIdx) : s.disposeRx.ownerOf j = (s.crcFlag.setOwner i .inbox).ownerOf j := by
    rw [State.disposeRx_of_complete ht hc]; rfl
  refine ⟨?flag, fun j w h => ?bytes, ?owner, fun j hj => ?owners, ?links, ?frame⟩
  case flag => simp [hbyte, s.crcFlag_byteAt, hc, ht]
  case bytes =>
    rw [hbyte, s.crcFlag_byteAt, if_neg]
    rintro ⟨hij, hw, -⟩
    exact h.elim (fun hj => hj (Option.some.inj (hc.symm.trans hij)).symm) fun hne => hne hw
  case owner => rw [howner, State.ownerOf_setOwner_self]
  case owners =>
    rw [howner, State.ownerOf_setOwner_ne _ _ hj]
    simp only [State.ownerOf, State.crcFlag_owner]
  case links => rw [State.disposeRx_of_complete ht hc]
  case frame =>
    have hnone : s.disposeRx.curRx = none := by rw [State.disposeRx_of_complete ht hc]
    rw [← hnone]
    exact s.disposeRx_frame

/-- Settles O35: the disposal that is not due, then `free_internal` of the one that is. -/
theorem sentBufferIsDisposed : Obligations.SentBufferIsDisposed := by
  refine fun s => ⟨State.disposeTx_of_not, fun i ht hc => ?_⟩
  rw [State.disposeTx_of_complete ht hc]
  exact ⟨fun _ hoff => s.byteAt_zeroHeader_header i hoff, fun _ _ h => s.byteAt_zeroHeader_other h,
    State.ownerOf_setOwner_self _ i _, fun _ hj => State.ownerOf_setOwner_ne _ _ hj, rfl, rfl⟩

/-- Settles O36. -/
theorem finishRearmsTheSpi : Obligations.FinishRearmsTheSpi :=
  fun s => ⟨{ s.finish ptb with ret := .done }, rfl, s.finish_spi⟩

/-- Settles O37: the two stagings, from the state after FINISH's earlier parts. -/
theorem finishPrestagesTheNextBuffers : Obligations.FinishPrestagesTheNextBuffers := by
  intro s
  let u := s.disableDma.disposeRx.disposeTx.spiRearm linkCrc
  obtain ⟨rxKept, txKept, rxTaken, txTaken, bothTaken, rxLinks, noLinks, rxOwner, txOwner, otherOwner⟩ := u.prestage_stages
  exact ⟨{ u.prestage with busy := false, ret := .done }, u, rfl, rfl, rxKept, txKept, rxTaken, txTaken, bothTaken, rxLinks,
    noLinks, rxOwner, txOwner, otherOwner, u.prestage_byteAt⟩

/-- Settles O39, one clause per range of `k`. -/
theorem exchangeSendsTheOutgoingByte : Obligations.ExchangeSendsTheOutgoingByte := by
  refine fun s m he hb htx _ => ⟨s.exchange ptb m, exec_xchg_of_busy m he hb, rfl, s.exchange_lead ptb m, fun hk => ?lead,
    fun h1 h36 hpos => ?data, fun hk => ?crc, fun hk => ?beyond, s.exchange_frame ptb m⟩
  case lead => exact State.exchange_tx_kept m (s.outgoing_lead ptb rfl hk)
  case data =>
    obtain ⟨hmiso, hcrc, hdma⟩ := State.exchange_tx_data (c := ptb) m rfl h1 h36 htx
    have hlast : s.dmaTx.pos.val + 1 = s.spi.k := by omega
    rw [hdma, Dma.advance_of_lt (by omega), ← hlast]
    exact ⟨hmiso, hcrc, rfl, rfl, htx, rfl⟩
  case crc => exact State.exchange_tx_kept m (s.outgoing_crc ptb rfl hk)
  case beyond => exact State.exchange_tx_kept m (s.outgoing_beyond ptb rfl hk)

/-- Settles O40, one clause per range of `k`. -/
theorem exchangeStoresTheIncomingByte : Obligations.ExchangeStoresTheIncomingByte := by
  refine fun s m he hb hrx => ⟨s.exchange ptb m, exec_xchg_of_busy m he hb, fun o ho hk => ?data, fun hk => ?crc,
    fun hk => ?beyond⟩
  case data =>
    obtain ⟨hdma, hcrc, herr, -⟩ := s.exchange_rx_data ptb m hk hrx
    refine ⟨fun i hi => s.exchange_byteAt_data ptb m hi ho hk hrx, fun j w h => ?_, hcrc, herr, ?_⟩
    · exact s.exchange_byteAt_other ptb m j w (h.imp_right fun hw e => hw (Fin.ext (e.trans ho.symm)))
    · rw [hdma]
      exact ⟨rfl, rfl⟩
  case crc =>
    obtain ⟨hdma, hcrc, herr, -⟩ := s.exchange_rx_crc ptb m hk hrx
    refine ⟨fun j w h => s.exchange_byteAt_other ptb m j w (hk ▸ h), hcrc, ?_, hdma⟩
    rw [herr, crcErrAfter_eq_true_iff]
  case beyond =>
    obtain ⟨hdma, hcrc, herr, -⟩ := s.exchange_rx_beyond ptb m hk
    exact ⟨fun j w => s.exchange_byteAt_other ptb m j w (.inr (by omega)), hcrc, herr, hdma⟩

/-- Settles O30: the three cases of the dispatch. -/
theorem edgeAlternatesStartAndFinish : Obligations.EdgeAlternatesStartAndFinish := by
  refine fun s => ⟨fun he => ?disabled, fun he hb => ⟨_, rfl, ?start, rfl⟩, fun he hb => ⟨_, rfl, ?finish, rfl⟩⟩
  case disabled => exact congrArg Host.Outcome.next (State.edge_of_disabled he)
  case start =>
    refine congrArg Host.Outcome.next ((State.edge_of_start he hb).trans ?_)
    rw [s.start_frame]
  case finish =>
    refine congrArg Host.Outcome.next ((State.edge_of_finish he hb).trans ?_)
    rw [s.finish_frame]

/-- Settles O33: the parts by definition, the fields they leave by the frame of FINISH. -/
theorem finishRunsItsPartsInOrder : Obligations.FinishRunsItsPartsInOrder := by
  intro s
  obtain ⟨hrx, htx⟩ := s.finish_dma
  refine ⟨{ s.finish ptb with ret := .done }, rfl, rfl, rfl, hrx, htx, ?_⟩
  rw [s.finish_frame]
  exact ⟨rfl, rfl, rfl, rfl, rfl, rfl, rfl, rfl, rfl⟩

/-- Settles O41: only the outgoing byte acts. -/
theorem exchangesBeyondTheFrameOnlyCount : Obligations.ExchangesBeyondTheFrameOnlyCount := by
  refine ⟨fun s m he hb hk => ?crc, fun s m he hb hk => ?beyond⟩
  case crc =>
    rw [exec_xchg_of_busy m he hb, State.exchange_of_beyond ptb m (by omega), s.outgoing_crc ptb rfl hk, hk]
  case beyond =>
    rw [exec_xchg_of_busy m he hb, State.exchange_of_beyond ptb m (by omega), s.outgoing_beyond ptb rfl hk]

end Sys2Proof.Machine
end

section
/-! SUPPORT. The CRC steps that branch, a lemma per side: CRC.RX_CHECK on a match and on a mismatch (R194), and CRC.FLAG
where it is not due, with the bytes it never writes (R196). -/

namespace Sys2Proof.Machine

theorem exec_crcRxCheck (s : State) (m : Byte) :
    exec (.crcRxCheck m) s = .next { s.crcRxCheck m with ret := .done } := rfl

theorem State.crcRxCheck_of_eq {s : State} {m : Byte} (h : m = s.spi.rxcrc) : s.crcRxCheck m = s := by
  simp only [State.crcRxCheck, crcErrAfter, h, ne_eq, not_true_eq_false, decide_false, Bool.or_false]

theorem State.crcRxCheck_of_ne {s : State} {m : Byte} (h : m ≠ s.spi.rxcrc) :
    s.crcRxCheck m = { s with spi := { s.spi with crcerr := true } } := by
  rw [State.crcRxCheck, (crcErrAfter_eq_true_iff _ _ _).2 (.inr h)]

theorem exec_crcFlag (s : State) : exec .crcFlag s = .next { s.crcFlag with ret := .done } := rfl

theorem State.crcFlag_of_not {s : State} (h : s.dmaRx.tcif = false ∨ s.curRx = none ∨ s.spi.crcerr = false) :
    s.crcFlag = s := by
  cases hc : s.curRx with
  | none => simp only [State.crcFlag, hc]
  | some i =>
    have hoff : (s.dmaRx.tcif && s.spi.crcerr) = false := by
      rw [Bool.and_eq_false_iff]
      simpa [hc] using h
    simp only [State.crcFlag, hc, hoff, Bool.false_eq_true, if_false]

/-- CRC.FLAG writes the flags byte of the staged buffer only. -/
theorem State.crcFlag_byteAt_of_ne {s : State} {i j : BufIdx} {w : Offset} (hc : s.curRx = some i)
    (h : j ≠ i ∨ w ≠ 3) : s.crcFlag.byteAt j w = s.byteAt j w := by
  rw [s.crcFlag_byteAt, if_neg]
  rintro ⟨hj, hw, -⟩
  exact h.elim (fun hne => hne (Option.some.inj (hc.symm.trans hj)).symm) fun hne => hne hw

end Sys2Proof.Machine
end

section
/-! The statements of the family `43_crc_validator.md`: the steps of the CRC harness, and the flag of a failed check. -/

namespace Sys2Proof.Machine

/-- Settles O52: the bytes after CRC.FLAG, its frame, and the sides on which it is not due. -/
theorem crcFlagOrsTheErrorBit : Obligations.CrcFlagOrsTheErrorBit := by
  refine ⟨fun s i ht hc he => ⟨{ s.crcFlag with ret := .done }, exec_crcFlag s, ?flag, fun j w h => ?bytes, ?frame⟩,
    fun s h => ?notDue⟩
  case flag => exact (s.crcFlag_byteAt i 3).trans (if_pos ⟨hc, rfl, ht, he⟩)
  case bytes => exact State.crcFlag_byteAt_of_ne hc h
  case frame => rw [s.crcFlag_frame]
  case notDue => rw [exec_crcFlag, State.crcFlag_of_not h]

/-- Settles O51: the steps without a branch by their definitions, CRC.RX_CHECK by its two sides. -/
theorem crcHarnessSteps : Obligations.CrcHarnessSteps := by
  refine ⟨fun _ => rfl, fun _ _ => rfl, fun s m h => ?agree, fun s m h => ?differ, fun _ _ => rfl, fun _ => rfl⟩
  case agree => rw [exec_crcRxCheck, State.crcRxCheck_of_eq h]
  case differ => rw [exec_crcRxCheck, State.crcRxCheck_of_ne h]

end Sys2Proof.Machine
end

section
/-! SUPPORT. What a port operation answers in the step that issues it: a refusal that changes nothing, or an answer with
none of the error statuses (R210, R211). -/

namespace Sys2Proof.Machine

/-- The statuses by which the port refuses an operation (R210). -/
def Status.Refuses (st : Status) : Prop := st = .errOwner ∨ st = .errIllegal ∨ st = .errRange

/-- No response stands at the port with a status that refuses. -/
def State.Accepted (t : State) : Prop := ∀ r, t.resp = some r → ¬ Status.Refuses r.status

/-- The outcome of an operation on `s`: the refusal of `s` as it stands, or a state with no refusal at the port. -/
def RefusesOrAccepts (s : State) (a : Answer) : Prop :=
  ∀ t, a = .next t → (∃ st, t = s.refuse st) ∨ t.Accepted

theorem State.accepted_respond (s : State) {st : Status} (h : st = .ok ∨ st = .okIdx ∨ st = .none) (idx : Option BufIdx)
    (data : Option Byte) : (s.respond st idx data).Accepted := by
  intro r hr
  cases hr
  obtain rfl | rfl | rfl := h <;> simp [Status.Refuses]

/-- A command that goes on in later micro-steps has given no response yet (R140). -/
theorem State.accepted_beginCommand (s : State) (c : Cmd) : (s.beginCommand c).Accepted := nofun

theorem refusesOrAccepts_refuse {s : State} {st : Status} : RefusesOrAccepts s (.next (s.refuse st)) := by
  rintro t ⟨⟩
  exact .inl ⟨st, rfl⟩

theorem refusesOrAccepts_respond {s u : State} {st : Status} {idx : Option BufIdx} {data : Option Byte}
    (h : st = .ok ∨ st = .okIdx ∨ st = .none := by decide) : RefusesOrAccepts s (.next (u.respond st idx data)) := by
  rintro t ⟨⟩
  exact .inr (u.accepted_respond h idx data)

theorem refusesOrAccepts_beginCommand {s u : State} {c : Cmd} : RefusesOrAccepts s (.next (u.beginCommand c)) := by
  rintro t ⟨⟩
  exact .inr (u.accepted_beginCommand c)

/-- Every operation that has a port word refuses without effect or answers with no error status. -/
theorem exec_port_refusesOrAccepts {i : Instr} (hp : encode i ≠ none) (s : State) : RefusesOrAccepts s (exec i s) := by
  cases i
  case nop | shutdown | init => exact refusesOrAccepts_respond
  case reserved101 => exact refusesOrAccepts_refuse
  case alloc =>
    simp only [exec, execAlloc]
    split
    · exact refusesOrAccepts_respond
    · exact refusesOrAccepts_respond
  case receive =>
    simp only [exec, execReceive]
    split
    · exact refusesOrAccepts_respond
    · exact refusesOrAccepts_beginCommand
  case free b =>
    by_cases ho : s.ownerOf b = .client
    · exact exec_free_of_client ho ▸ refusesOrAccepts_beginCommand
    · exact exec_free_of_not_client ho ▸ refusesOrAccepts_refuse
  case send b =>
    by_cases ho : s.ownerOf b = .client
    · exact exec_send_of_client ho ▸ refusesOrAccepts_beginCommand
    · exact exec_send_of_not_client ho ▸ refusesOrAccepts_refuse
  case bufRd b off =>
    by_cases hoff : off.toNat < 37
    · rw [exec_bufRd_of_val_eq (o := ⟨off.toNat, hoff⟩) rfl]
      split_ifs
      · exact refusesOrAccepts_respond
      · exact refusesOrAccepts_respond
      · exact refusesOrAccepts_refuse
    · exact exec_bufRd_of_le (Nat.not_lt.1 hoff) b s ▸ refusesOrAccepts_refuse
  case bufWr b off v =>
    by_cases hoff : off.toNat < 37
    · rw [exec_bufWr_of_val_eq (o := ⟨off.toNat, hoff⟩) rfl]
      split_ifs
      · exact refusesOrAccepts_respond
      · exact refusesOrAccepts_respond
      · exact refusesOrAccepts_refuse
    · exact exec_bufWr_of_le (Nat.not_lt.1 hoff) b v s ▸ refusesOrAccepts_refuse
  all_goals exact absurd rfl hp

end Sys2Proof.Machine
end

section
/-! The statement of the family `60_exceptions.md`: refused operations of the port. -/

namespace Sys2Proof.Machine

/-- Settles O29: an answer with an error status is the refusal, which writes the response and nothing else. -/
theorem refusedOperationChangesNoState : Obligations.RefusedOperationChangesNoState := by
  intro i s t r hp h hr hst
  obtain ⟨st, rfl⟩ | haccepted := exec_port_refusesOrAccepts hp s t h
  · cases hr
    exact ⟨rfl, rfl⟩
  · exact absurd hst (haccepted r hr)

end Sys2Proof.Machine
end

section
/-! SUPPORT. The invariants of R276 under each operation of the step relation: the link's events, every operation of the
port, every later micro-step of a client command, and the hardware reset. -/

namespace Sys2Proof.Machine

/-! ### The DMA and SPI items -/

/-- START arms both channels at position 0, where `k` is (R165). -/
theorem TransferInv.start {s : State} (h : TransferInv s) (hb : s.busy = false) : TransferInv (s.start ptb) := by
  have hk : (s.start ptb).spi.k = 0 := by rw [s.start_frame]; exact h.idleK hb
  constructor <;> intro hb'
  case idleK | idleErr | idleRxCrc | idleTxCrc | idleEn => cases hb'
  all_goals intro _
  case armed => exact ⟨rfl, rfl⟩
  case rxTarget | txTarget => rfl
  case rxPos | txPos => rw [hk]; rfl
  case rxDone | txDone => rw [hk]; simp [State.start_ptb, Dma.arm]

/-- FINISH disables both channels and re-arms the SPI unit (R167, R174). -/
theorem TransferInv.finish (s : State) : TransferInv (s.finish ptb) := by
  obtain ⟨hrx, htx⟩ := s.finish_dma
  constructor <;> intro hb
  case idleK | idleErr | idleRxCrc | idleTxCrc => rw [s.finish_spi]
  case idleEn => rw [hrx, htx]; exact ⟨rfl, rfl⟩
  all_goals cases hb

/-- The receive channel after exchange `k` stands at `k + 1`, and is complete from the 37th exchange on (R172). -/
theorem TransferInv.exchange_dmaRx {s : State} (m : Byte) (h : TransferInv s) (he : s.enabled = true)
    (hb : s.busy = true) :
    (s.exchange ptb m).dmaRx.en = true ∧ (s.exchange ptb m).dmaRx.idx = s.dmaRx.idx ∧
    (s.exchange ptb m).dmaRx.pos.val = min (s.spi.k + 1) 37 ∧
    ((s.exchange ptb m).dmaRx.tcif = true ↔ 37 ≤ s.spi.k + 1) := by
  have hen := (h.armed hb he).1
  have hpos := h.rxPos hb he
  have hdone := h.rxDone hb he
  rcases Nat.lt_trichotomy s.spi.k 36 with hk | hk | hk
  · rw [(s.exchange_rx_data ptb m hk hen).1]
    refine ⟨hen, rfl, ?_, hdone.trans ?_⟩
    · simp only [Dma.receivedAt]; omega
    · omega
  · rw [(s.exchange_rx_crc ptb m hk hen).1, hk]
    exact ⟨hen, rfl, rfl, by simp [Dma.receivedAll]⟩
  · rw [(s.exchange_rx_beyond ptb m hk).1]
    exact ⟨hen, rfl, by omega, hdone.trans (by omega)⟩

/-- The transmit channel after exchange `k` stands at `k`, and is complete from the 37th exchange on (R171). -/
theorem TransferInv.exchange_dmaTx {s : State} (m : Byte) (h : TransferInv s) (he : s.enabled = true)
    (hb : s.busy = true) :
    (s.exchange ptb m).dmaTx.en = true ∧ (s.exchange ptb m).dmaTx.idx = s.dmaTx.idx ∧
    (s.exchange ptb m).dmaTx.pos.val = min s.spi.k 36 ∧
    ((s.exchange ptb m).dmaTx.tcif = true ↔ 37 ≤ s.spi.k + 1) := by
  have hen := (h.armed hb he).2
  have hpos := h.txPos hb he
  have hdone := h.txDone hb he
  by_cases hk : 1 ≤ s.spi.k ∧ s.spi.k ≤ 36
  · obtain ⟨h1, h36⟩ := hk
    rw [(State.exchange_tx_data (c := ptb) m rfl h1 h36 hen).2.2, Dma.advance_of_lt (by omega)]
    refine ⟨hen, rfl, ?_, ?_⟩
    · show s.dmaTx.pos.val + 1 = _
      omega
    · rw [Bool.or_eq_true, decide_eq_true_eq, hdone]
      omega
  · have hkept : (s.exchange ptb m).dmaTx = s.dmaTx := by
      rcases (by omega : s.spi.k = 0 ∨ s.spi.k = 37 ∨ 38 ≤ s.spi.k) with h0 | h37 | h38
      · exact (State.exchange_tx_kept m (s.outgoing_lead ptb rfl h0)).2.2
      · exact (State.exchange_tx_kept m (s.outgoing_crc ptb rfl h37)).2.2
      · exact (State.exchange_tx_kept m (s.outgoing_beyond ptb rfl h38)).2.2
    rw [hkept]
    exact ⟨hen, rfl, by omega, hdone.trans (by omega)⟩

/-- Inside a transaction the receive channel points at the staged buffer (R276). -/
theorem TransferInv.dmaRx_idx_ne {s : State} {i : BufIdx} (h : TransferInv s) (he : s.enabled = true)
    (hb : s.busy = true) (hi : s.curRx ≠ some i) : s.dmaRx.idx ≠ .buf i := by
  rw [h.rxTarget hb he]
  cases hc : s.curRx with
  | none => nofun
  | some r => exact fun e => hi (hc.trans (congrArg some (Target.buf.inj e)))

/-- An exchange inside a transaction keeps the DMA and SPI items (R171, R172). -/
theorem TransferInv.exchange {s : State} (m : Byte) (h : TransferInv s) (he : s.enabled = true) (hb : s.busy = true) :
    TransferInv (s.exchange ptb m) := by
  have hb' : (s.exchange ptb m).busy = true := by rw [s.exchange_frame]; exact hb
  obtain ⟨-, -, hcurRx, hcurTx, -⟩ := s.exchange_queues ptb m
  obtain ⟨hrxEn, hrxIdx, hrxPos, hrxDone⟩ := h.exchange_dmaRx m he hb
  obtain ⟨htxEn, htxIdx, htxPos, htxDone⟩ := h.exchange_dmaTx m he hb
  constructor <;> intro hbusy
  case idleK | idleErr | idleRxCrc | idleTxCrc | idleEn => rw [hb'] at hbusy; cases hbusy
  all_goals intro _
  case armed => exact ⟨hrxEn, htxEn⟩
  case rxTarget => rw [hrxIdx, hcurRx, h.rxTarget hb he]
  case txTarget => rw [htxIdx, hcurTx, h.txTarget hb he]
  case rxPos => exact hrxPos
  case txPos => exact htxPos
  case rxDone => exact hrxDone
  case txDone => exact htxDone

/-! ### Link events -/

theorem Inv.start {s : State} (h : Inv s) (hb : s.busy = false) : Inv (s.start ptb) := by
  obtain ⟨hpool, htransfer, hheader, f, ib, ob, hq⟩ := h
  obtain ⟨f', ob', hq'⟩ := hq.start ptb
  have hpool' : (s.start ptb).pool = s.pool := by rw [s.start_frame]
  exact ⟨hpool' ▸ hpool, htransfer.start hb, hheader.stageRx.stageTx.congr rfl rfl rfl, f', ib, ob', hq'⟩

theorem Inv.finish {s : State} (h : Inv s) : Inv (s.finish ptb) := by
  obtain ⟨hpool, -, hheader, f, ib, ob, hq⟩ := h
  obtain ⟨f', ob', hq'⟩ := hq.finish ptb
  have hdisabled : HeaderInv s.disableDma := hheader.congr rfl rfl rfl
  have hdisposed : HeaderInv (s.disableDma.disposeRx.disposeTx.spiRearm linkCrc) :=
    (hdisabled.disposeRx (hq.congr rfl rfl rfl rfl rfl)).disposeTx.congr rfl rfl rfl
  have hwf : s.disableDma.disposeRx.disposeTx.pool.wf = true := State.wf_disposeTx (State.wf_disposeRx hpool)
  refine ⟨?_, TransferInv.finish s, hdisposed.stageRx.stageTx.congr rfl rfl rfl, f', _, ob', hq'⟩
  have hpool' : (s.finish ptb).pool = s.disableDma.disposeRx.disposeTx.pool :=
    State.prestage_pool (s.disableDma.disposeRx.disposeTx.spiRearm linkCrc)
  exact hpool' ▸ hwf

/-- EDGE by the three cases of its dispatch (R160). -/
theorem State.edge_cases (s : State) :
    (s.enabled = false ∧ s.edge ptb = s) ∨
    (s.enabled = true ∧ s.busy = false ∧ s.edge ptb = s.start ptb) ∨
    (s.enabled = true ∧ s.busy = true ∧ s.edge ptb = s.finish ptb) := by
  rcases s.enabled.eq_false_or_eq_true with he | he
  · rcases s.busy.eq_false_or_eq_true with hb | hb
    · exact .inr (.inr ⟨he, hb, State.edge_of_finish he hb⟩)
    · exact .inr (.inl ⟨he, hb, State.edge_of_start he hb⟩)
  · exact .inl ⟨he, State.edge_of_disabled he⟩

/-- XCHG is an exchange inside a transaction; outside it writes the ports, the draw counter and the fault mark (R179). -/
theorem State.xchg_cases (m : Byte) (s : State) :
    (s.enabled = true ∧ s.busy = true ∧ s.xchg ptb m = s.exchange ptb m) ∨
    ∃ b n fault, s.xchg ptb m = { s with miso := b, draws := n, linkFault := fault } := by
  rcases s.enabled.eq_false_or_eq_true with he | he
  · rcases s.busy.eq_false_or_eq_true with hb | hb
    · exact .inl ⟨he, hb, State.xchg_of_busy m he hb⟩
    · exact .inr ⟨_, _, _, State.xchg_of_idle m he hb⟩
  · exact .inr ⟨_, _, _, State.xchg_of_disabled m he⟩

/-- EDGE keeps the invariants (R160). -/
theorem Inv.edge {s : State} (h : Inv s) : Inv (s.edge ptb) := by
  obtain ⟨-, hs⟩ | ⟨-, hb, hs⟩ | ⟨-, -, hs⟩ := s.edge_cases <;> rw [hs]
  · exact h
  · exact h.start hb
  · exact h.finish

/-- The buffers in FREE keep their bytes in an exchange: the receive channel points at none of them (R276). -/
theorem Inv.exchange {s : State} (m : Byte) (h : Inv s) (he : s.enabled = true) (hb : s.busy = true) :
    Inv (s.exchange ptb m) := by
  obtain ⟨hpool, htransfer, hheader, f, ib, ob, hq⟩ := h
  obtain ⟨hlinks, howner, hcurRx, hcurTx, hcmd⟩ := s.exchange_queues ptb m
  have hfree (i : BufIdx) : (s.exchange ptb m).ownerOf i = s.ownerOf i := by simp only [State.ownerOf, howner]
  refine ⟨State.wf_exchange ptb m hpool, htransfer.exchange m he hb, ?_, f, ib, ob,
    hq.congr hlinks howner hcurRx hcurTx hcmd⟩
  refine hheader.mono (fun i hi => hfree i ▸ hi) fun i hi off => s.exchange_byteAt_other ptb m i off (.inl ?_)
  refine htransfer.dmaRx_idx_ne he hb fun hstaged => ?_
  have howned := (hq.ownRx i).2 hstaged
  rw [hi] at howned
  cases howned

/-- XCHG keeps the invariants, a link violation included (R179, log entry 12). -/
theorem Inv.xchg {s : State} (m : Byte) (h : Inv s) : Inv (s.xchg ptb m) := by
  obtain ⟨he, hb, hs⟩ | ⟨b, n, fault, hs⟩ := s.xchg_cases m <;> rw [hs]
  · exact h.exchange m he hb
  · exact h.congrFields rfl rfl rfl rfl rfl rfl

/-! ### The operations of the port -/

theorem Inv.respond {s : State} (h : Inv s) (st : Status) (idx : Option BufIdx) (data : Option Byte) :
    Inv (s.respond st idx data) :=
  h.congrFields rfl rfl rfl rfl rfl rfl

/-- What ALLOC answers (R141): NONE, or the buffer that the dequeue of FREE gives. -/
theorem exec_alloc_cases (s : State) :
    ((s.links.dequeue .free).1 = none ∧ exec .alloc s = .next (s.respond .none none none)) ∨
    ∃ r, (s.links.dequeue .free).1 = some r ∧ exec .alloc s =
      .next (({ s with links := (s.links.dequeue .free).2 }.setOwner r .client).respond .okIdx (some r) none) := by
  cases hd : (s.links.dequeue .free).1 with
  | none => exact .inl ⟨rfl, by simp only [exec, execAlloc, State.allocInternal, hd, Links.dequeue_none hd]⟩
  | some r => exact .inr ⟨r, rfl, by simp only [exec, execAlloc, State.allocInternal, hd]⟩

/-- What RECEIVE's first micro-step does (R144): NONE, or the command stands before RECEIVE.LONE. -/
theorem exec_receive_cases (s : State) :
    (s.links.inbox.head = none ∧ exec .receive s = .next (s.respond .none none none)) ∨
    ∃ h, s.links.inbox.head = some h ∧
      exec .receive s = .next (s.beginCommand { s.cmd with pos := .recvLone, h := h }) := by
  cases hd : s.links.inbox.head with
  | none => exact .inl ⟨rfl, by simp only [exec, execReceive, Links.deqHead, Links.queue, hd]⟩
  | some h => exact .inr ⟨h, rfl, by simp only [exec, execReceive, Links.deqHead, Links.queue, hd]⟩

/-- What a buffer read answers (R146): a refusal, or a byte; it changes no item of the state but a draw. -/
theorem exec_bufRd_cases (i : BufIdx) (off : BitVec 6) (s : State) :
    ∃ st data n, st ≠ .okIdx ∧ exec (.bufRd i off) s = .next ({ s with draws := n }.respond st none data) := by
  by_cases hoff : off.toNat < 37
  · rw [exec_bufRd_of_val_eq (o := ⟨off.toNat, hoff⟩) rfl]
    split_ifs
    · exact ⟨.ok, _, s.draws + 1, nofun, rfl⟩
    · exact ⟨.ok, _, s.draws, nofun, rfl⟩
    · exact ⟨.errOwner, _, s.draws, nofun, rfl⟩
  · exact ⟨.errRange, none, s.draws, nofun, exec_bufRd_of_le (Nat.not_lt.1 hoff) i s⟩

/-- What a buffer write does (R147): it answers without a store, or stores one byte of a buffer the client holds. -/
theorem exec_bufWr_cases (i : BufIdx) (off : BitVec 6) (v : Byte) (s : State) :
    (∃ st, st ≠ .okIdx ∧ exec (.bufWr i off v) s = .next (s.respond st none none)) ∨
    ∃ o, s.ownerOf i = .client ∧ exec (.bufWr i off v) s = .next ((s.memWrite (.buf i) o v).respond .ok none none) := by
  by_cases hoff : off.toNat < 37
  · rw [exec_bufWr_of_val_eq (o := ⟨off.toNat, hoff⟩) rfl]
    split_ifs with hc
    · exact .inl ⟨.ok, nofun, rfl⟩
    · exact .inr ⟨_, hc, rfl⟩
    · exact .inl ⟨.errOwner, nofun, rfl⟩
  · exact .inl ⟨.errRange, nofun, exec_bufWr_of_le (Nat.not_lt.1 hoff) i v s⟩

theorem Inv.alloc {s : State} {r : BufIdx} (h : Inv s) (hd : (s.links.dequeue .free).1 = some r) :
    Inv ({ s with links := (s.links.dequeue .free).2 }.setOwner r .client) := by
  obtain ⟨hpool, htransfer, hheader, f, ib, ob, hq⟩ := h
  obtain ⟨f', -, hq'⟩ := hq.alloc (t := { s with links := (s.links.dequeue .free).2 }.setOwner r .client) hd rfl
    (fun i => s.ownerOf_setOwner r i .client) rfl rfl rfl
  refine ⟨hpool, htransfer.congrFields rfl, hheader.mono (fun i hi => ?_) fun _ _ _ => rfl, f', ib, ob, hq'⟩
  rw [State.ownerOf_setOwner] at hi
  split at hi
  · cases hi
  · exact hi

theorem Inv.freeZero {s : State} {i : BufIdx} (h : Inv s) (hp : s.cmd.pos = .idle) (hi : s.ownerOf i = .client) :
    Inv (((s.zeroHeader i).setOwner i .free).beginCommand { s.cmd with pos := .freeSwap, x := i }) := by
  obtain ⟨hpool, htransfer, hheader, f, ib, ob, hq⟩ := h
  have howner := (s.zeroHeader i).ownerOf_setOwner i
  refine ⟨State.wf_zeroHeader i hpool, htransfer.congrFields rfl, fun j hj off hoff => ?_, f, ib, ob,
    hq.freeZero hp hi rfl (fun j => howner j .free) rfl rfl rfl rfl⟩
  by_cases hji : j = i
  · rw [hji]
    exact s.byteAt_zeroHeader_header i hoff
  · have hfree : s.ownerOf j = .free := ((howner j .free).trans (if_neg hji)).symm.trans hj
    exact (s.byteAt_zeroHeader_other (.inl hji)).trans (hheader j hfree off hoff)

theorem Inv.sendSwap {s : State} {i : BufIdx} (h : Inv s) (hp : s.cmd.pos = .idle) (hi : s.ownerOf i = .client) :
    Inv ({ s.setOwner i .outbox with links := (s.links.enqSwap .outbox i).2 }.beginCommand
      { s.cmd with pos := .sendLink, x := i, p := (s.links.enqSwap .outbox i).1 }) := by
  obtain ⟨hpool, htransfer, hheader, f, ib, ob, hq⟩ := h
  have howner (j : BufIdx) := s.ownerOf_setOwner i j .outbox
  refine ⟨hpool, htransfer.congrFields rfl, hheader.mono (fun j hj => ?_) fun _ _ _ => rfl, f, ib, _,
    hq.sendSwap hp hi rfl howner rfl rfl rfl rfl rfl⟩
  have hj' := (howner j).symm.trans hj
  split at hj'
  · cases hj'
  · exact hj'

theorem Inv.recvHead {s : State} {b : BufIdx} (h : Inv s) (hp : s.cmd.pos = .idle) (hb : s.links.inbox.head = some b) :
    Inv (s.beginCommand { s.cmd with pos := .recvLone, h := b }) := by
  obtain ⟨hpool, htransfer, hheader, f, ib, ob, hq⟩ := h
  exact ⟨hpool, htransfer.congrFields rfl, hheader.congr rfl rfl rfl, f, ib, ob,
    hq.recvHead hp hb rfl rfl rfl rfl rfl rfl⟩

/-- A store into a buffer the client holds touches no header of a buffer in FREE. -/
theorem Inv.memWrite {s : State} {i : BufIdx} (o : Offset) (v : Byte) (h : Inv s) (hi : s.ownerOf i = .client) :
    Inv (s.memWrite (.buf i) o v) := by
  obtain ⟨hpool, htransfer, hheader, f, ib, ob, hq⟩ := h
  refine ⟨State.wf_memWrite _ o v hpool, htransfer.congrFields rfl, hheader.mono (fun _ hj => hj) fun j hj off => ?_,
    f, ib, ob, hq.congr rfl rfl rfl rfl rfl⟩
  refine s.byteAt_memWrite_target _ j o off v (.inl fun e => ?_)
  rw [Target.buf.inj e, hj] at hi
  cases hi

/-- Disabled, the transfer invariant says only what holds between frames (R152). -/
theorem Inv.shutdown {s : State} (h : Inv s) :
    Inv { s with enabled := false, dmaRx := s.dmaRx.disable, dmaTx := s.dmaTx.disable } := by
  obtain ⟨hpool, htransfer, hheader, f, ib, ob, hq⟩ := h
  refine ⟨hpool, ?_, hheader.congr rfl rfl rfl, f, ib, ob, hq.congr rfl rfl rfl rfl rfl⟩
  constructor
  case idleK => exact htransfer.idleK
  case idleErr => exact htransfer.idleErr
  case idleRxCrc => exact htransfer.idleRxCrc
  case idleTxCrc => exact htransfer.idleTxCrc
  case idleEn => exact fun _ => ⟨rfl, rfl⟩
  all_goals exact fun _ he => absurd he (by simp)

theorem Inv.initialised {s : State} (h : Inv s) : Inv (s.initialised ptb) :=
  Inv.ofReset (Memory.wf_clearHeaders h.pool) rfl (State.ownerOf_resetWith ptb) rfl rfl rfl rfl rfl rfl rfl
    fun i _ off hoff => (s.byteAt_initialised ptb i off).trans (if_pos hoff)

/-- Every operation of the port, issued with no command in progress, keeps the invariants (R275, R276). -/
theorem Inv.exec_port {i : Instr} {s t : State} (h : Inv s) (hp : s.cmd.pos = .idle) (hport : encode i ≠ none)
    (he : exec i s = .next t) : Inv t := by
  cases i
  case nop | reserved101 => cases he; exact h.respond _ _ _
  case shutdown => cases he; exact h.shutdown.respond _ _ _
  case init => cases he; exact h.initialised.respond _ _ _
  case alloc =>
    obtain ⟨-, ha⟩ | ⟨r, hd, ha⟩ := exec_alloc_cases s <;> cases ha.symm.trans he
    · exact h.respond _ _ _
    · exact (h.alloc hd).respond _ _ _
  case free b =>
    by_cases ho : s.ownerOf b = .client
    · cases (exec_free_of_client ho).symm.trans he; exact h.freeZero hp ho
    · cases (exec_free_of_not_client ho).symm.trans he; exact h.respond _ _ _
  case send b =>
    by_cases ho : s.ownerOf b = .client
    · cases (exec_send_of_client ho).symm.trans he; exact h.sendSwap hp ho
    · cases (exec_send_of_not_client ho).symm.trans he; exact h.respond _ _ _
  case receive =>
    obtain ⟨-, ha⟩ | ⟨b, hb, ha⟩ := exec_receive_cases s <;> cases ha.symm.trans he
    · exact h.respond _ _ _
    · exact h.recvHead hp hb
  case bufRd b off =>
    obtain ⟨st, data, n, -, ha⟩ := exec_bufRd_cases b off s
    cases ha.symm.trans he
    exact h.congrFields rfl rfl rfl rfl rfl rfl
  case bufWr b off v =>
    obtain ⟨st, -, ha⟩ | ⟨o, ho, ha⟩ := exec_bufWr_cases b off v s <;> cases ha.symm.trans he
    · exact h.respond _ _ _
    · exact (h.memWrite o v ho).respond _ _ _
  all_goals exact absurd rfl hport

/-- A word at the port keeps the invariants, whether it names an operation or is refused (R153). -/
theorem Inv.issueWord {w : PortWord} {s t : State} (h : Inv s) (hp : s.cmd.pos = .idle)
    (he : issueWord w s = .next t) : Inv t := by
  unfold Machine.issueWord at he
  cases hd : decode w with
  | ok i => rw [hd] at he; exact h.exec_port hp (encode_ne_none_of_decode hd) he
  | error r => rw [hd] at he; cases he; exact h.respond _ _ _

/-! ### The later micro-steps of a client command -/

/-- Each later micro-step keeps the queue invariant (R272). -/
theorem QueueInv.clientProceed {s : State} {f ib ob : List BufIdx} (h : QueueInv s f ib ob) :
    ∃ f' ib' ob', QueueInv s.clientProceed f' ib' ob' := by
  cases hp : s.cmd.pos <;> simp only [State.clientProceed, hp]
  case idle => exact ⟨f, ib, ob, h⟩
  case freeSwap => exact ⟨_, _, _, h.freeSwap hp⟩
  case freeLink => exact ⟨_, _, _, h.freeLink hp⟩
  case sendLink => exact ⟨_, _, _, h.sendLink hp⟩
  case recvLone =>
    obtain ⟨ib', h'⟩ := h.recvLone hp
    exact ⟨f, ib', ob, h'⟩
  case recvSucc => exact ⟨_, _, _, h.recvSucc hp⟩
  case recvUnlink =>
    obtain ⟨ib', h'⟩ := h.recvUnlink hp
    exact ⟨f, ib', ob, h'⟩
  case recvClear => exact ⟨_, _, _, h.recvClear hp⟩

/-- The only owner a later micro-step writes is that of the buffer RECEIVE hands out (R144). -/
theorem State.clientProceed_ownerOf (s : State) (i : BufIdx) : s.clientProceed.ownerOf i =
    if s.cmd.pos = .recvClear ∧ i = s.cmd.h then .client else s.ownerOf i := by
  cases hp : s.cmd.pos <;> simp only [State.clientProceed, hp]
  case recvClear =>
    simp only [true_and]
    exact s.ownerOf_setOwner s.cmd.h i .client
  case recvSucc =>
    unfold State.recvSucc
    split <;> simp [State.ownerOf]
  all_goals rfl

theorem State.clientProceed_byteAt (s : State) (i : BufIdx) (off : Offset) :
    s.clientProceed.byteAt i off = s.byteAt i off := by
  rw [State.clientProceed_frame]
  rfl

/-- Every later micro-step of a client command keeps the invariants (R275, R276). -/
theorem Inv.clientProceed {s : State} (h : Inv s) : Inv s.clientProceed := by
  obtain ⟨hpool, htransfer, hheader, f, ib, ob, hq⟩ := h
  have hpool' : s.clientProceed.pool = s.pool := by rw [State.clientProceed_frame]
  refine ⟨hpool' ▸ hpool, htransfer.congrFields ?_,
    hheader.mono (fun i hi => ?_) fun i _ off => s.clientProceed_byteAt i off, hq.clientProceed⟩
  · rw [State.clientProceed_frame]
  · rw [State.clientProceed_ownerOf] at hi
    split at hi
    · cases hi
    · exact hi

/-! ### The hardware reset, and a step -/

/-- A state with nothing listed in its pool has zero headers (R41). -/
theorem State.byteAt_of_pool_nil {s : State} (h : s.pool = []) (i : BufIdx) {off : Offset} (hoff : off.val < 4) :
    s.byteAt i off = 0x00#8 := by
  have hm : poolKey i off % 64 < 4 := by rw [poolKey_mod]; exact hoff
  simp [State.byteAt, h, Memory.read, Memory.lookup, unlistedByte, hm]

theorem Inv.reset : Inv State.reset :=
  Inv.ofReset rfl rfl (State.ownerOf_resetWith ptb) rfl rfl rfl rfl rfl rfl rfl fun i _ _ hoff =>
    byteAt_reset_header i hoff

theorem Inv.hardwareReset (s : State) : Inv (s.hardwareReset ptb) :=
  Inv.ofReset rfl rfl (State.ownerOf_resetWith ptb) rfl rfl rfl rfl rfl rfl rfl
    fun i _ _ hoff => State.byteAt_of_pool_nil rfl i hoff

theorem Inv.withInputs {s : State} (h : Inv s) (rest : List Event) : Inv { s with inputs := rest } :=
  h.congrFields rfl rfl rfl rfl rfl rfl

/-- Every entry of the schedule keeps the invariants. -/
theorem Inv.runEvent {e : Event} {rest : List Event} {s t : State} (h : Inv s) (he : runEvent e rest s = .next t) :
    Inv t := by
  cases e with
  | edge => cases he; exact (h.withInputs rest).edge
  | xchg m => cases he; exact (h.withInputs rest).xchg m
  | issue w =>
    simp only [Machine.runEvent] at he
    split at he
    · rename_i hp
      exact (h.withInputs rest).issueWord hp he
    · cases he; exact h.clientProceed
  | proceed => cases he; exact (h.withInputs rest).clientProceed
  | hwReset => cases he; exact Inv.hardwareReset _

end Sys2Proof.Machine
end

section
/-! The statements over the invariants of R276: they hold after reset, and every step keeps them. -/

namespace Sys2Proof.Machine

/-- Settles O3, by the entry of the schedule that the step takes. -/
theorem everyStepKeepsTheInvariants : Obligations.EveryStepKeepsTheInvariants := by
  intro s t h he
  cases hin : s.inputs with
  | nil =>
    simp only [step, hin, silentStep] at he
    cases he
    exact h
  | cons e rest =>
    simp only [step, hin] at he
    exact h.runEvent he

/-- Settles O2, from the reset contents of the queues. -/
theorem resetMeetsTheInvariants : Obligations.ResetMeetsTheInvariants := by
  have hfree := (QueueInv.ofReset (s := State.reset) rfl (State.ownerOf_resetWith ptb) rfl rfl rfl).freeForm
  exact ⟨Inv.reset, (freeForm_iff (by decide)).1 hfree⟩

end Sys2Proof.Machine
end

section
/-! SUPPORT. The words of the port and their fields (R100, R103), the response word and the answers that carry a buffer
(R102), and that every operation answers a next state (R275). -/

namespace Sys2Proof

/-! ### The response (R102) -/

theorem Response.word_toNat (r : Response) : r.word.toNat = 32 * r.status.bits.toNat + r.idxField.toNat := by
  have hcat : r.word.toNat = r.status.bits.toNat <<< 5 ||| r.idxField.toNat := BitVec.toNat_append _ _
  rw [hcat, ← Nat.shiftLeft_add_eq_or_of_lt r.idxField.isLt, Nat.shiftLeft_eq, Nat.mul_comm]

theorem Response.idxField_of_ne {r : Response} (h : r.status ≠ .okIdx) : r.idxField = 0#5 := by
  unfold Response.idxField
  split
  · exact absurd ‹_› h
  · rfl

/-- The response carries a buffer exactly when its status says so. -/
def Response.IdxAgrees (r : Response) : Prop := r.idx ≠ none ↔ r.status = .okIdx

end Sys2Proof

namespace Sys2Proof.Machine

/-! ### Words and fields -/

theorem packCW_fields (w : BitVec 8) : packCW (cwOp w) (cwIdx w) = w := BitVec.extractLsb'_append_extractLsb'

@[simp] theorem baW_packBA (b : BitVec 1) (idx : BitVec 5) (off : BitVec 6) : baW (packBA b idx off) = b :=
  (BitVec.extractLsb'_append_eq_of_le (by decide)).trans BitVec.extractLsb'_append_eq_left

@[simp] theorem baIdx_packBA (b : BitVec 1) (idx : BitVec 5) (off : BitVec 6) : baIdx (packBA b idx off) = idx :=
  (BitVec.extractLsb'_append_eq_of_le (by decide)).trans BitVec.extractLsb'_append_eq_right

@[simp] theorem baOff_packBA (b : BitVec 1) (idx : BitVec 5) (off : BitVec 6) : baOff (packBA b idx off) = off :=
  BitVec.extractLsb'_append_eq_right

theorem packBA_fields (w : BitVec 12) : packBA (baW w) (baIdx w) (baOff w) = w :=
  (congrArg (· ++ baOff w) (BitVec.extractLsb'_append_extractLsb'_eq_extractLsb' rfl)).trans
    BitVec.extractLsb'_append_extractLsb'

/-- A command that takes no buffer comes with index 0 (R100). -/
theorem cwIdx_of_withoutBuffer {w : BitVec 8} {i j : Instr} (h : withoutBuffer w j = .ok i) : cwIdx w = 0#5 := by
  unfold withoutBuffer at h
  split at h
  · assumption
  · cases h

theorem eq_ofNat_of_toNat_eq {w n : Nat} {x : BitVec w} (h : x.toNat = n) : x = BitVec.ofNat w n := by
  rw [← h, BitVec.ofNat_toNat, BitVec.setWidth_eq]

/-- A command word that decodes is the encoding of the operation (R101). -/
theorem encode_of_decodeCW {op : BitVec 3} {idx : BitVec 5} {i : Instr} (h : decodeCW (op ++ idx) = .ok i) :
    encode i = some (.cw (packCW op idx)) := by
  simp only [decodeCW, cwOp_append, cwIdx_append] at h
  split at h
  case h_3 ho | h_4 ho | h_6 ho =>
    cases h
    obtain rfl := eq_ofNat_of_toNat_eq ho
    rfl
  case h_8 =>
    obtain rfl := withoutBuffer_ok h
    obtain rfl : idx = 0#5 := (cwIdx_append op idx).symm.trans (cwIdx_of_withoutBuffer h)
    have hop : op.toNat = 7 := by have := op.isLt; grind
    obtain rfl := eq_ofNat_of_toNat_eq hop
    rfl
  all_goals
    rename_i ho
    obtain rfl := withoutBuffer_ok h
    obtain rfl : idx = 0#5 := (cwIdx_append op idx).symm.trans (cwIdx_of_withoutBuffer h)
    obtain rfl := eq_ofNat_of_toNat_eq ho
    rfl

/-! ### The answers of the port (R102) -/

/-- Whatever response stands at the port, it carries a buffer exactly when its status says so. -/
def State.RespAgrees (t : State) : Prop := ∀ r, t.resp = some r → r.IdxAgrees

theorem State.respAgrees_respond (s : State) {st : Status} {idx : Option BufIdx} (data : Option Byte)
    (h : idx ≠ none ↔ st = .okIdx) : (s.respond st idx data).RespAgrees := by
  rintro r ⟨⟩
  exact h

theorem State.respAgrees_respond_none (s : State) {st : Status} (data : Option Byte) (h : st ≠ .okIdx) :
    (s.respond st none data).RespAgrees :=
  s.respAgrees_respond data (by simp [h])

theorem State.respAgrees_beginCommand (s : State) (c : Cmd) : (s.beginCommand c).RespAgrees := nofun

/-- What an operation of the port answers carries a buffer exactly with OK_IDX. -/
theorem exec_port_respAgrees {i : Instr} {s t : State} (hp : encode i ≠ none) (he : exec i s = .next t) :
    t.RespAgrees := by
  cases i
  case nop | reserved101 | shutdown | init => cases he; exact State.respAgrees_respond_none _ _ nofun
  case alloc =>
    obtain ⟨-, ha⟩ | ⟨r, -, ha⟩ := exec_alloc_cases s <;> cases ha.symm.trans he
    · exact State.respAgrees_respond_none _ _ nofun
    · exact State.respAgrees_respond _ _ (by simp)
  case free b =>
    by_cases ho : s.ownerOf b = .client
    · cases (exec_free_of_client ho).symm.trans he; exact State.respAgrees_beginCommand _ _
    · cases (exec_free_of_not_client ho).symm.trans he; exact State.respAgrees_respond_none _ _ nofun
  case send b =>
    by_cases ho : s.ownerOf b = .client
    · cases (exec_send_of_client ho).symm.trans he; exact State.respAgrees_beginCommand _ _
    · cases (exec_send_of_not_client ho).symm.trans he; exact State.respAgrees_respond_none _ _ nofun
  case receive =>
    obtain ⟨-, ha⟩ | ⟨b, -, ha⟩ := exec_receive_cases s <;> cases ha.symm.trans he
    · exact State.respAgrees_respond_none _ _ nofun
    · exact State.respAgrees_beginCommand _ _
  case bufRd b off =>
    obtain ⟨st, data, n, hst, ha⟩ := exec_bufRd_cases b off s
    cases ha.symm.trans he
    exact State.respAgrees_respond_none _ _ hst
  case bufWr b off v =>
    obtain ⟨st, hst, ha⟩ | ⟨o, -, ha⟩ := exec_bufWr_cases b off v s <;> cases ha.symm.trans he
    · exact State.respAgrees_respond_none _ _ hst
    · exact State.respAgrees_respond_none _ _ nofun
  all_goals exact absurd rfl hp

theorem issueWord_respAgrees {w : PortWord} {s t : State} (he : issueWord w s = .next t) : t.RespAgrees := by
  unfold issueWord at he
  cases hd : decode w with
  | ok i => rw [hd] at he; exact exec_port_respAgrees (encode_ne_none_of_decode hd) he
  | error r => rw [hd] at he; cases he; exact State.respAgrees_respond_none _ _ nofun

/-- A later micro-step leaves the response port as it was, or answers. -/
theorem State.clientProceed_resp (s : State) : s.clientProceed.resp = s.resp ∨ s.clientProceed.RespAgrees := by
  cases hp : s.cmd.pos <;> simp only [State.clientProceed, hp]
  case freeLink | sendLink => exact .inr (State.respAgrees_respond_none _ _ nofun)
  case recvClear => exact .inr (State.respAgrees_respond _ _ (by simp))
  case recvSucc =>
    unfold State.recvSucc
    split
    · exact .inr (State.respAgrees_respond_none _ _ nofun)
    · exact .inl rfl
  case idle => simp
  all_goals exact .inl rfl

/-- An operation that is not of the port leaves the response port alone. -/
theorem exec_internal_resp {i : Instr} {s t : State} (hp : encode i = none) (he : exec i s = .next t) :
    t.resp = s.resp := by
  by_cases hx : ∃ m, i = .xchg m
  · obtain ⟨m, rfl⟩ := hx
    cases he
    rw [State.xchg_frame]
  · rw [exec_internal_frame hp (not_exists.1 hx) he]

/-! ### Every operation answers (R275) -/

theorem exec_answers (i : Instr) (s : State) : ∃ t, exec i s = .next t := by
  cases i
  case alloc => obtain ⟨-, ha⟩ | ⟨r, -, ha⟩ := exec_alloc_cases s <;> exact ⟨_, ha⟩
  case free b =>
    by_cases ho : s.ownerOf b = .client
    · exact ⟨_, exec_free_of_client ho⟩
    · exact ⟨_, exec_free_of_not_client ho⟩
  case send b =>
    by_cases ho : s.ownerOf b = .client
    · exact ⟨_, exec_send_of_client ho⟩
    · exact ⟨_, exec_send_of_not_client ho⟩
  case receive => obtain ⟨-, ha⟩ | ⟨b, -, ha⟩ := exec_receive_cases s <;> exact ⟨_, ha⟩
  case bufRd b off =>
    obtain ⟨st, data, n, -, ha⟩ := exec_bufRd_cases b off s
    exact ⟨_, ha⟩
  case bufWr b off v => obtain ⟨st, -, ha⟩ | ⟨o, -, ha⟩ := exec_bufWr_cases b off v s <;> exact ⟨_, ha⟩
  all_goals exact ⟨_, rfl⟩

theorem issueWord_answers (w : PortWord) (s : State) : ∃ t, issueWord w s = .next t := by
  unfold issueWord
  cases decode w with
  | ok i => exact exec_answers i s
  | error r => exact ⟨_, rfl⟩

theorem runEvent_answers (e : Event) (rest : List Event) (s : State) : ∃ t, runEvent e rest s = .next t := by
  cases e with
  | issue w =>
    simp only [runEvent]
    split
    · exact issueWord_answers w _
    · exact ⟨_, rfl⟩
  | edge | xchg | proceed | hwReset => exact ⟨_, rfl⟩

/-! ### The default link CRC (R191) -/

/-- Zero bytes leave the accumulator of the default CRC at 0. -/
theorem crcOf_replicate_zero (n : Nat) : crcOf defaultLinkCrc (List.replicate n 0x00#8) = 0x00#8 := by
  induction n with
  | zero => rfl
  | succ n ih =>
    have hstep : defaultLinkCrc.step defaultLinkCrc.init 0x00#8 = defaultLinkCrc.init := by decide
    rw [List.replicate_succ, crcOf, List.foldl_cons, hstep]
    exact ih

/-! ### The transfer id (R32) -/

theorem State.edge_xferId (s : State) :
    (s.edge ptb).xferId = if s.enabled = true ∧ s.busy = false then s.xferId + 1#8 else s.xferId := by
  obtain ⟨he, hs⟩ | ⟨he, hb, hs⟩ | ⟨-, hb, hs⟩ := s.edge_cases <;> rw [hs]
  · rw [if_neg (by simp [he])]
  · rw [State.start_frame, if_pos ⟨he, hb⟩]
  · rw [State.finish_frame, if_neg (by simp [hb])]

/-- Only START, EDGE and INIT write `xfer_id`. -/
theorem exec_xferId_of_ne {i : Instr} {s t : State} (hstart : i ≠ .start) (hedge : i ≠ .edge) (hinit : i ≠ .init)
    (he : exec i s = .next t) : t.xferId = s.xferId := by
  by_cases hp : encode i = none
  · cases i
    case start => exact absurd rfl hstart
    case edge => exact absurd rfl hedge
    case nop | alloc | free | send | receive | reserved101 | shutdown | init | bufRd | bufWr => cases hp
    case xchg m => cases he; rw [State.xchg_frame]
    case finish => cases he; rw [State.finish_frame]
    case crcFlag => cases he; rw [State.crcFlag_frame]
    all_goals cases he; rfl
  · by_cases hs : i = .shutdown
    · subst hs; cases he; rfl
    · rw [exec_port_frame hp hs hinit he]

end Sys2Proof.Machine
end

section
/-! The statements of the encoding, of the answers, and of what single operations keep. -/

namespace Sys2Proof.Machine

/-- Settles O7, by the row of the operation; the fields come back as they were packed. -/
theorem encodedOperationDecodesToItself : Obligations.EncodedOperationDecodesToItself := by
  intro i w h
  cases i
  case bufRd b off | bufWr b off v => cases h; simp [decode, decodeBA, bufOfField, fieldOfBuf]
  case nop | alloc | receive | shutdown | init => cases h; rfl
  case free | send | reserved101 => cases h; simp [decode, decodeCW, packCW, bufOfField, fieldOfBuf]
  all_goals cases h

/-- Settles O8: a command word by its code and index, a buffer-access word by its top bit. -/
theorem decodedWordIsItsOperationsEncoding : Obligations.DecodedWordIsItsOperationsEncoding := by
  refine ⟨fun w i h => ?command, fun w v i h => ?access⟩
  case command =>
    rw [← packCW_fields w] at h ⊢
    exact encode_of_decodeCW h
  case access =>
    have hbit : w.getLsbD 11 = (baW w).getLsbD 0 := by simp [baW]
    obtain hw | hw := BitVec.eq_zero_or_eq_one (baW w)
    · simp only [decode, decodeBA, hw] at h
      cases h
      show some (PortWord.ba (packBA 0#1 (baIdx w) (baOff w)) 0#8) = _
      rw [hbit, hw, ← hw, packBA_fields]
      simp [hw]
    · simp only [decode, decodeBA, hw] at h
      cases h
      show some (PortWord.ba (packBA 1#1 (baIdx w) (baOff w)) v) = _
      rw [hbit, ← hw, packBA_fields]
      simp [hw]

/-- Settles O9: each word by its bits. -/
theorem wordsOfTheSpecDecode : Obligations.WordsOfTheSpecDecode := by
  unfold Obligations.WordsOfTheSpecDecode
  decide

/-- Settles O11, clause by clause of R102. -/
theorem responseWordLayout : Obligations.ResponseWordLayout := by
  refine ⟨fun i d => Response.word_toNat _, fun r h => ?noIndex, rfl, rfl, rfl, rfl, rfl, rfl, fun st => ?code, rfl, rfl,
    fun i s t r hp he => exec_port_respAgrees hp he r, fun w s t r he => issueWord_respAgrees he r,
    fun s r hs => ?proceed, fun i s t hp he => exec_internal_resp hp he⟩
  case noIndex => rw [Response.word_toNat, Response.idxField_of_ne h]; rfl
  case code => cases st <;> rfl
  case proceed =>
    intro hr
    obtain hkept | hagrees := s.clientProceed_resp
    · exact absurd (hkept.symm.trans hr) hs
    · exact hagrees r hr

/-- Settles O5: no operation refuses, and every entry of the schedule runs one or goes on. -/
theorem everyOperationAndStepAnswers : Obligations.EveryOperationAndStepAnswers := by
  refine ⟨exec_answers, fun s => ?_⟩
  unfold step
  split
  · exact ⟨s, rfl⟩
  · exact runEvent_answers _ _ s

/-- Settles O4: the schedule's entry is taken off, and the decoded operation runs. -/
theorem stepRunsTheDecodedOperation : Obligations.StepRunsTheDecodedOperation := by
  refine ⟨fun s rest w i hin hp hd => ?issue, fun s rest hin => ?edge, fun s rest m hin => ?xchg,
    fun s nbits w p i hw hd => ?word⟩
  case issue => rw [step_of_issue hin hp, issueWord, hd]
  case edge => simp only [step, hin, runEvent]
  case xchg => simp only [step, hin, runEvent]
  case word =>
    simp only [State.withFetchWord, hw]
    rw [step_of_issue (s := s.placeWord p) rfl rfl, issueWord, hd]
    rfl

/-- Settles O25: INIT copies each of these items. -/
theorem initKeepsWhatIsNoItemOfTheState : Obligations.InitKeepsWhatIsNoItemOfTheState :=
  fun s => ⟨(s.initialised ptb).respond .ok none none, rfl, rfl, rfl, rfl, rfl, rfl, rfl, rfl⟩

/-- Settles O26, by the entry that the step takes. -/
theorem hardwareResetGivesTheResetState : Obligations.HardwareResetGivesTheResetState := by
  intro s rest hin
  simp only [step, hin, runEvent]
  rfl

/-- Settles O42: the draw while disabled, and the link violation. -/
theorem exchangeOutsideATransaction : Obligations.ExchangeOutsideATransaction := by
  refine ⟨fun s m he => congrArg Host.Outcome.next (State.xchg_of_disabled m he), fun s m he hb => ⟨_, rfl, ?_⟩⟩
  rw [State.xchg_of_idle m he hb]
  exact ⟨rfl, rfl⟩

/-- Settles O53: the three check values, by the rounds of R191. -/
theorem defaultCrcCheckValues : Obligations.DefaultCrcCheckValues := by
  refine ⟨rfl, crcOf_replicate_zero 36, ?_⟩
  simp [crcOf, defaultLinkCrc, crc8Step, crc8Rounds, crc8Round, BitVec.msb]

/-- Settles O45: EDGE, START and INIT by what each writes, every other operation by its frame. -/
theorem onlyStartAdvancesTheTransferId : Obligations.OnlyStartAdvancesTheTransferId := by
  refine ⟨fun i s t he => ?_, fun s => by rw [State.clientProceed_frame]⟩
  by_cases hedge : i = .edge
  · subst hedge
    cases he
    simp [State.edge_xferId]
  by_cases hstart : i = .start
  · subst hstart
    cases he
    rw [if_pos (.inl rfl), State.start_frame]
  by_cases hinit : i = .init
  · subst hinit
    cases he
    rfl
  · simp only [hedge, hstart, hinit, false_and, or_self, if_false]
    exact exec_xferId_of_ne hstart hedge hinit he

/-- Settles O46: with Z as target the one store has no effect, with Z as source the byte read is 0x00. -/
theorem zeroBufferSendsZeroAndStoresNothing : Obligations.ZeroBufferSendsZeroAndStoresNothing := by
  refine fun s m he hb htx => ⟨_, exec_xchg_of_busy m he hb, fun hz => ?target, fun hz h1 h36 => ?source⟩
  case target =>
    obtain h | ⟨o, v, -, h⟩ := s.exchange_pool ptb m
    · exact h
    · rw [h, hz, State.memWrite_zero]
  case source => rw [(State.exchange_tx_data (c := ptb) m rfl h1 h36 htx).1, hz, State.memRead_zero]

/-- Settles O54, from the frames of the client's operations and micro-steps. -/
theorem clientTouchesNoHandlerRegister : Obligations.ClientTouchesNoHandlerRegister := by
  refine ⟨fun i s t hp hi hs he => ?_, fun s => ?_⟩
  · rw [exec_port_frame hp hs hi he]
    exact ⟨rfl, rfl, rfl, rfl, rfl, rfl, rfl, rfl⟩
  · rw [State.clientProceed_frame]
    exact ⟨rfl, rfl, rfl, rfl, rfl, rfl, rfl, rfl⟩

end Sys2Proof.Machine
end

section
/-! SUPPORT. The client's commands from issue to answer: the micro-steps of RECEIVE by their cases, a whole dequeue and a
whole enqueue as the micro-steps of a command, and who owns the buffers that the client and the handler touch. -/

namespace Sys2Proof.Machine

/-! ### The micro-steps of RECEIVE by their cases (R144) -/

theorem State.recvLone_of_last {s : State} (h : s.links.inbox.last = .node s.cmd.h) : s.recvLone = { s with
    links := { s.links with inbox := { s.links.inbox with last := .sent } }
    cmd := { s.cmd with pos := .recvSucc, lone := true } } := by
  rw [State.recvLone, Links.deqLone_of_last (q := .inbox) h]
  rfl

theorem State.recvLone_of_last_ne {s : State} (h : s.links.inbox.last ≠ .node s.cmd.h) :
    s.recvLone = { s with cmd := { s.cmd with pos := .recvSucc, lone := false } } := by
  rw [State.recvLone, Links.deqLone_of_last_ne (q := .inbox) h]

theorem State.recvSucc_of_deqSucc {s : State} {n : Option BufIdx} (h : s.links.deqSucc s.cmd.h s.cmd.lone = some n) :
    s.recvSucc = { s with cmd := { s.cmd with pos := .recvUnlink, s := n } } := by
  simp only [State.recvSucc, h]

theorem State.recvSucc_of_succ {s : State} (h : s.links.nextOf s.cmd.h ≠ none ∨ s.cmd.lone = true) :
    s.recvSucc = { s with cmd := { s.cmd with pos := .recvUnlink, s := s.links.nextOf s.cmd.h } } := by
  refine State.recvSucc_of_deqSucc (if_neg ?_)
  rintro ⟨hnext, hlone⟩
  exact h.elim (fun hne => hne hnext) fun hl => by rw [hlone] at hl; cases hl

/-- The guard of R127: no successor, and not the lone node. -/
theorem State.recvSucc_of_none {s : State} (h : s.links.nextOf s.cmd.h = none) (hlone : s.cmd.lone = false) :
    s.recvSucc = { s with
      cmd := { s.cmd with pos := .idle, s := none }
      resp := some { status := .none, idx := none, data := none } } := by
  have hguard : s.links.deqSucc s.cmd.h s.cmd.lone = none := if_pos ⟨h, hlone⟩
  simp only [State.recvSucc, hguard]
  rfl

theorem State.recvUnlink_of_head {s : State} (h : s.links.inbox.head = some s.cmd.h) : s.recvUnlink = { s with
    links := { s.links with inbox := { s.links.inbox with head := s.cmd.s } }
    cmd := { s.cmd with pos := .recvClear } } := by
  rw [State.recvUnlink, Links.deqUnlink_of_head (q := .inbox) _ h]
  rfl

theorem State.recvUnlink_of_head_ne {s : State} (h : s.links.inbox.head ≠ some s.cmd.h) :
    s.recvUnlink = { s with cmd := { s.cmd with pos := .recvClear } } := by
  rw [State.recvUnlink, Links.deqUnlink_of_head_ne (q := .inbox) _ h]

/-! ### Steps one after the other -/

theorem stepN_of_step {s t : State} (n : Nat) (h : step s = .next t) : stepN (n + 1) s = stepN n t := by
  simp only [stepN, h]

theorem stepN_of_proceed {s : State} {rest : List Event} (n : Nat) (hin : s.inputs = .proceed :: rest) :
    stepN (n + 1) s = stepN n ({ s with inputs := rest }.clientProceed) :=
  stepN_of_step n (step_of_proceed hin)

/-- A dequeue that returns a node ran all five micro-steps (R130). -/
theorem Links.dequeue_some {l : Links} {q : QueueName} {h : BufIdx} (hd : (l.dequeue q).1 = some h) :
    (l.queue q).head = some h ∧ ∃ n, (l.deqLone q h).2.deqSucc h (l.deqLone q h).1 = some n ∧
      (l.dequeue q).2 = ((l.deqLone q h).2.deqUnlink q h n).deqClear h := by
  unfold Links.dequeue at hd ⊢
  split at hd
  · cases hd
  · rename_i h' hhead
    split at hd
    · cases hd
    · rename_i n hn
      cases hd
      exact ⟨hhead, n, hn, rfl⟩

/-- RECEIVE's micro-steps without another step between them are a dequeue of INBOX (R130, R144). -/
theorem stepN_receive {s : State} {h : BufIdx} {rest : List Event} (hp : s.cmd.pos = .idle)
    (hin : s.inputs = .issue (.cw 0x80#8) :: .proceed :: .proceed :: .proceed :: .proceed :: rest)
    (hd : (s.links.dequeue .inbox).1 = some h) : ∃ c : Cmd, c.pos = .idle ∧ stepN 5 s = .next
      (({ s with inputs := rest, links := (s.links.dequeue .inbox).2, cmd := c }.setOwner h .client).respond
        .okIdx (some h) none) := by
  obtain ⟨hhead, n, hn, hlinks⟩ := Links.dequeue_some hd
  have hissue : step s = exec .receive { s with inputs := .proceed :: .proceed :: .proceed :: .proceed :: rest } :=
    step_of_issue hin hp
  have hexec : exec .receive { s with inputs := .proceed :: .proceed :: .proceed :: .proceed :: rest } = .next
      ({ s with inputs := .proceed :: .proceed :: .proceed :: .proceed :: rest }.beginCommand
        { s.cmd with pos := .recvLone, h := h }) := by
    simp only [exec, execReceive, Links.deqHead, hhead]
  refine ⟨{ s.cmd with pos := .idle, h := h, lone := (s.links.deqLone .inbox h).1, s := n }, rfl, ?_⟩
  rw [stepN_of_step 4 (hissue.trans hexec), stepN_of_proceed 3 rfl, stepN_of_proceed 2 rfl]
  simp only [State.clientProceed, State.beginCommand, State.recvLone]
  rw [State.recvSucc_of_deqSucc (n := n) hn, stepN_of_proceed 1 rfl, stepN_of_proceed 0 rfl, hlinks]
  rfl

/-- FREE's micro-steps without another step between them are an enqueue to FREE (R124, R142). -/
theorem stepN_free {s : State} {i : BufIdx} {rest : List Event} (hp : s.cmd.pos = .idle)
    (hin : s.inputs = .issue (.cw (0b010#3 ++ fieldOfBuf i)) :: .proceed :: .proceed :: rest)
    (hi : s.ownerOf i = .client) : ∃ c : Cmd, c.pos = .idle ∧ stepN 3 s = .next
      (({ (s.zeroHeader i).setOwner i .free with inputs := rest, links := s.links.enqueue .free i, cmd := c }).respond
        .ok none none) := by
  have hissue : step s = exec (.free i) { s with inputs := .proceed :: .proceed :: rest } := by
    rw [step_of_issue hin hp]
    simp [issueWord, decode, decodeCW, bufOfField, fieldOfBuf]
  refine ⟨{ s.cmd with pos := .idle, x := i, p := (s.links.enqSwap .free i).1 }, rfl, ?_⟩
  rw [stepN_of_step 2 (hissue.trans (exec_free_of_client hi)), stepN_of_proceed 1 rfl, stepN_of_proceed 0 rfl]
  rfl

/-! ### Owners of the nodes a dequeue returns -/

theorem QueueInv.ownerOf_dequeue_free {s : State} {f ib ob : List BufIdx} {r : BufIdx} (h : QueueInv s f ib ob)
    (hd : (s.links.dequeue .free).1 = some r) : s.ownerOf r = .free := by
  obtain ⟨f', rfl, -⟩ := h.freeForm.dequeue_some (t := { s with links := (s.links.dequeue .free).2 }) hd rfl rfl
  exact (h.ownFree r).2 (.inl List.mem_cons_self)

theorem QueueInv.ownerOf_dequeue_outbox {s : State} {f ib ob : List BufIdx} {r : BufIdx} (h : QueueInv s f ib ob)
    (hd : (s.links.dequeue .outbox).1 = some r) : s.ownerOf r = .outbox := by
  obtain ⟨ob', rfl, -⟩ := h.outboxForm.dequeue_some (t := { s with links := (s.links.dequeue .outbox).2 }) hd rfl rfl
  exact (h.ownOutbox r).2 List.mem_cons_self

/-- Before RECEIVE.CLEAR the node in hand is still INBOX's (R30). -/
theorem QueueInv.ownerOf_recvClear {s : State} {f ib ob : List BufIdx} (h : QueueInv s f ib ob)
    (hp : s.cmd.pos = .recvClear) : s.ownerOf s.cmd.h = .inbox :=
  (h.ownInbox _).2 (.inr (by simp [State.receiveHolds, hp]))

/-! ### What an operation leaves of buffer `i` -/

/-- Buffer `i` has its owner and its bytes in `t` as in `s`. -/
def SameBuffer (i : BufIdx) (s t : State) : Prop := t.ownerOf i = s.ownerOf i ∧ ∀ off, t.byteAt i off = s.byteAt i off

theorem SameBuffer.refl {i : BufIdx} {s : State} : SameBuffer i s s := ⟨rfl, fun _ => rfl⟩

theorem SameBuffer.trans {i : BufIdx} {s t u : State} (h : SameBuffer i s t) (h' : SameBuffer i t u) :
    SameBuffer i s u :=
  ⟨h'.1.trans h.1, fun off => (h'.2 off).trans (h.2 off)⟩

theorem SameBuffer.congr {i : BufIdx} {s t u : State} (h : SameBuffer i s t) (ho : u.owner = t.owner)
    (hp : u.pool = t.pool) (hr : u.resets = t.resets) : SameBuffer i s u :=
  h.trans ⟨by simp only [State.ownerOf, ho], fun _ => by simp only [State.byteAt, hp, hr]⟩

theorem sameBuffer_setOwner {i r : BufIdx} (s : State) (o : Owner) (h : i ≠ r) : SameBuffer i s (s.setOwner r o) :=
  ⟨s.ownerOf_setOwner_ne o h, fun _ => rfl⟩

/-- No operation of the port but INIT touches a buffer that is neither the client's nor in FREE (R68). -/
theorem exec_port_sameBuffer {e : Instr} {s t : State} {f ib ob : List BufIdx} {i : BufIdx} (hq : QueueInv s f ib ob)
    (hclient : s.ownerOf i ≠ .client) (hfree : s.ownerOf i ≠ .free) (hport : encode e ≠ none) (hinit : e ≠ .init)
    (he : exec e s = .next t) : SameBuffer i s t := by
  have hne {b : BufIdx} (hb : s.ownerOf b = .client) : i ≠ b := fun e => hclient (e ▸ hb)
  cases e
  case nop | reserved101 | shutdown => cases he; exact SameBuffer.refl
  case init => exact absurd rfl hinit
  case alloc =>
    obtain ⟨-, ha⟩ | ⟨r, hd, ha⟩ := exec_alloc_cases s <;> cases ha.symm.trans he
    · exact SameBuffer.refl
    · exact sameBuffer_setOwner s .client fun e => hfree (e ▸ hq.ownerOf_dequeue_free hd)
  case free b =>
    by_cases ho : s.ownerOf b = .client
    · cases (exec_free_of_client ho).symm.trans he
      exact ⟨State.ownerOf_setOwner_ne _ _ (hne ho), fun off => s.byteAt_zeroHeader_other (.inl (hne ho))⟩
    · cases (exec_free_of_not_client ho).symm.trans he; exact SameBuffer.refl
  case send b =>
    by_cases ho : s.ownerOf b = .client
    · cases (exec_send_of_client ho).symm.trans he; exact sameBuffer_setOwner s .outbox (hne ho)
    · cases (exec_send_of_not_client ho).symm.trans he; exact SameBuffer.refl
  case receive =>
    obtain ⟨-, ha⟩ | ⟨b, -, ha⟩ := exec_receive_cases s <;> cases ha.symm.trans he
    · exact SameBuffer.refl
    · exact SameBuffer.refl
  case bufRd b off =>
    obtain ⟨st, data, n, -, ha⟩ := exec_bufRd_cases b off s
    cases ha.symm.trans he
    exact SameBuffer.refl
  case bufWr b off v =>
    obtain ⟨st, -, ha⟩ | ⟨o, ho, ha⟩ := exec_bufWr_cases b off v s <;> cases ha.symm.trans he
    · exact SameBuffer.refl
    · exact ⟨rfl, fun off => s.byteAt_memWrite_target _ i o off v (.inl fun e => hne ho (Target.buf.inj e).symm)⟩
  all_goals exact absurd rfl hport

theorem State.clientProceed_sameBuffer {s : State} {f ib ob : List BufIdx} {i : BufIdx} (hq : QueueInv s f ib ob)
    (hi : s.ownerOf i ≠ .inbox) : SameBuffer i s s.clientProceed := by
  refine ⟨?_, s.clientProceed_byteAt i⟩
  rw [State.clientProceed_ownerOf, if_neg]
  rintro ⟨hp, rfl⟩
  exact hi (hq.ownerOf_recvClear hp)

/-- A staged buffer is owned by the slot that holds it (R30). -/
theorem QueueInv.ownerOf_staged {s : State} {f ib ob : List BufIdx} {i : BufIdx} (h : QueueInv s f ib ob)
    (hi : s.curRx = some i ∨ s.curTx = some i) : s.ownerOf i = .rxStaged ∨ s.ownerOf i = .txStaged :=
  hi.imp (h.ownRx i).2 (h.ownTx i).2

/-- A buffer of the client's is in neither slot (R30). -/
theorem QueueInv.not_staged_of_client {s : State} {f ib ob : List BufIdx} {i : BufIdx} (h : QueueInv s f ib ob)
    (hi : s.ownerOf i = .client) : s.curRx ≠ some i ∧ s.curTx ≠ some i := by
  rw [ne_eq, ne_eq, ← h.ownRx, ← h.ownTx, hi]
  decide

/-- The two slots never hold the same buffer (R30). -/
theorem QueueInv.curRx_ne_curTx {s : State} {f ib ob : List BufIdx} {i j : BufIdx} (h : QueueInv s f ib ob)
    (hi : s.curRx = some i) (hj : s.curTx = some j) : i ≠ j := by
  rintro rfl
  have := (h.ownRx i).2 hi
  rw [(h.ownTx i).2 hj] at this
  cases this

/-! ### What the parts of START and FINISH leave of a buffer -/

theorem QueueInv.stageRx_sameBuffer {s : State} {f ib ob : List BufIdx} {i : BufIdx} (h : QueueInv s f ib ob)
    (hi : s.ownerOf i ≠ .free) : SameBuffer i s s.stageRx := by
  obtain ⟨j, -, he⟩ | ⟨-, -, he⟩ | ⟨r, -, hd, he⟩ := s.stageRx_cases <;> rw [he]
  · exact SameBuffer.refl
  · exact SameBuffer.refl
  · exact sameBuffer_setOwner s .rxStaged fun e => hi (e ▸ h.ownerOf_dequeue_free hd)

theorem QueueInv.stageTx_sameBuffer {s : State} {f ib ob : List BufIdx} {i : BufIdx} (h : QueueInv s f ib ob)
    (hi : s.ownerOf i ≠ .outbox) : SameBuffer i s s.stageTx := by
  obtain ⟨j, -, he⟩ | ⟨-, -, he⟩ | ⟨r, -, hd, he⟩ := s.stageTx_cases <;> rw [he]
  · exact SameBuffer.refl
  · exact SameBuffer.refl
  · exact sameBuffer_setOwner s .txStaged fun e => hi (e ▸ h.ownerOf_dequeue_outbox hd)

theorem QueueInv.prestage_sameBuffer {s : State} {f ib ob : List BufIdx} {i : BufIdx} (h : QueueInv s f ib ob)
    (hfree : s.ownerOf i ≠ .free) (houtbox : s.ownerOf i ≠ .outbox) : SameBuffer i s s.prestage := by
  have hrx := h.stageRx_sameBuffer hfree
  obtain ⟨f', h'⟩ := h.stageRx
  exact hrx.trans (h'.stageTx_sameBuffer (hrx.1 ▸ houtbox))

/-- Receive disposal is not due and does nothing, or a complete frame stands in a buffer (R168). -/
theorem State.disposeRx_cases (s : State) :
    s.disposeRx = s ∨ ∃ r, s.curRx = some r ∧ s.dmaRx.tcif = true := by
  by_cases hn : s.dmaRx.tcif = false ∨ s.curRx = none
  · exact .inl (State.disposeRx_of_not hn)
  · simp only [not_or, Bool.not_eq_false] at hn
    obtain ⟨r, hr⟩ := Option.ne_none_iff_exists'.1 hn.2
    exact .inr ⟨r, hr, hn.1⟩

/-- Transmit disposal is not due and does nothing, or a buffer is completely sent (R169). -/
theorem State.disposeTx_cases (s : State) :
    s.disposeTx = s ∨ ∃ r, s.curTx = some r ∧ s.dmaTx.tcif = true := by
  by_cases hn : s.dmaTx.tcif = false ∨ s.curTx = none
  · exact .inl (State.disposeTx_of_not hn)
  · simp only [not_or, Bool.not_eq_false] at hn
    obtain ⟨r, hr⟩ := Option.ne_none_iff_exists'.1 hn.2
    exact .inr ⟨r, hr, hn.1⟩

theorem disposeRx_sameBuffer {s : State} {i : BufIdx} (hi : s.curRx ≠ some i) : SameBuffer i s s.disposeRx := by
  obtain hs | ⟨r, hr, hdone⟩ := s.disposeRx_cases
  · rw [hs]
    exact SameBuffer.refl
  · have hir : i ≠ r := fun e => hi (e ▸ hr)
    rw [State.disposeRx_of_complete hdone hr]
    have hflag : SameBuffer i s s.crcFlag :=
      ⟨by simp only [State.ownerOf, State.crcFlag_owner], fun off => State.crcFlag_byteAt_of_ne hr (.inl hir)⟩
    exact hflag.trans (sameBuffer_setOwner s.crcFlag .inbox hir)

theorem disposeTx_sameBuffer {s : State} {i : BufIdx} (hi : s.curTx ≠ some i) : SameBuffer i s s.disposeTx := by
  obtain hs | ⟨r, hr, hdone⟩ := s.disposeTx_cases
  · rw [hs]
    exact SameBuffer.refl
  · have hir : i ≠ r := fun e => hi (e ▸ hr)
    rw [State.disposeTx_of_complete hdone hr]
    exact ⟨State.ownerOf_setOwner_ne _ _ hir, fun off => s.byteAt_zeroHeader_other (.inl hir)⟩

end Sys2Proof.Machine
end

section
/-! The statements of the client's commands: their micro-steps, whole commands on a quiescent queue, and what they leave
of the staged buffers. -/

namespace Sys2Proof.Machine

/-- Settles O6, position by position. -/
theorem clientGoesOnByTheMicroStepTable : Obligations.ClientGoesOnByTheMicroStepTable := by
  intro s rest hin
  refine ⟨_, step_of_proceed hin, by rw [State.clientProceed_frame], ?_⟩
  refine ⟨fun hp => ?idle, fun hp => ?freeSwap, fun hp => ?freeLink, fun hp => ?sendLink, fun hp => ?recvLone,
    fun hp h => ?succ, fun hp h hlone => ?none, fun hp => ?recvUnlink, fun hp => ?recvClear⟩
  all_goals simp only [State.clientProceed, hp]
  case succ => rw [State.recvSucc_of_succ (s := { s with inputs := rest }) h]; exact ⟨rfl, rfl⟩
  case none => rw [State.recvSucc_of_none (s := { s with inputs := rest }) h hlone]; exact ⟨rfl, rfl, rfl⟩
  all_goals exact ⟨rfl, rfl⟩

/-- Settles O20: each micro-step by its two sides. -/
theorem receiveRunsItsMicroSteps : Obligations.ReceiveRunsItsMicroSteps := by
  refine ⟨fun s hd => ?empty, fun s h hd => ?head, fun s rest hin hp => ?lone, fun s rest hin hp => ?succ,
    fun s rest hin hp => ?unlink, fun s rest hin hp => ?clear, fun s idx hidx => issueWord_of_idx_ne_zero 0b100#3 hidx s⟩
  case empty =>
    obtain ⟨-, ha⟩ | ⟨b, hb, -⟩ := exec_receive_cases s
    · exact ha
    · rw [hd] at hb; cases hb
  case head =>
    obtain ⟨hn, -⟩ | ⟨b, hb, ha⟩ := exec_receive_cases s
    · rw [hd] at hn; cases hn
    · obtain rfl : h = b := Option.some.inj (hd.symm.trans hb)
      exact ha
  all_goals simp only [step_of_proceed hin, State.clientProceed, hp]
  case lone =>
    exact ⟨fun h => by rw [State.recvLone_of_last (s := { s with inputs := rest }) h],
      fun h => by rw [State.recvLone_of_last_ne (s := { s with inputs := rest }) h]⟩
  case succ =>
    exact ⟨fun h => by rw [State.recvSucc_of_succ (s := { s with inputs := rest }) h],
      fun h hlone => by rw [State.recvSucc_of_none (s := { s with inputs := rest }) h hlone]⟩
  case unlink =>
    exact ⟨fun h => by rw [State.recvUnlink_of_head (s := { s with inputs := rest }) h],
      fun h => by rw [State.recvUnlink_of_head_ne (s := { s with inputs := rest }) h]⟩
  case clear =>
    exact ⟨_, rfl, s.links.nextOf_setNext_self _ _, fun _ hj => s.links.nextOf_setNext_ne _ hj, rfl,
      s.ownerOf_setOwner_self _ _, fun _ hj => s.ownerOf_setOwner_ne _ hj, rfl⟩

/-- Settles O14: NONE on the empty queue, else the head. -/
theorem allocReturnsTheOldestFreeBuffer : Obligations.AllocReturnsTheOldestFreeBuffer := by
  refine ⟨fun s hq => ?empty, fun s r c hq => ?oldest⟩
  all_goals obtain ⟨hn, ha⟩ | ⟨r', hr, ha⟩ := exec_alloc_cases s
  · exact ha
  · rw [hq.dequeue_nil] at hr; cases hr
  · rw [hq.dequeue_cons.1] at hn; cases hn
  · obtain ⟨hd, hq'⟩ := hq.dequeue_cons
    obtain rfl : r = r' := Option.some.inj (hd.symm.trans hr)
    have hnext := s.links.dequeue_nextOf .free
    refine ⟨_, ha, rfl, State.ownerOf_setOwner_self _ r _, hq', (hnext r).trans (if_pos hd), fun j hj => ?_,
      s.links.dequeue_other (q' := .inbox) (by decide), s.links.dequeue_other (q' := .outbox) (by decide)⟩
    refine (hnext j).trans (if_neg ?_)
    rw [hd]
    exact fun e => hj (Option.some.inj e).symm

/-- Settles O15: the buffer was in FREE, whose headers are zero. -/
theorem allocatedBufferHasAZeroHeader : Obligations.AllocatedBufferHasAZeroHeader := by
  intro s t r h _ he hr
  obtain ⟨f, ib, ob, hq⟩ := h.queues
  obtain ⟨-, ha⟩ | ⟨r', hd, ha⟩ := exec_alloc_cases s <;> cases ha.symm.trans he
  · cases hr
  · obtain rfl : r' = r := by simpa using hr
    exact ⟨State.ownerOf_setOwner_self _ _ _, h.header _ (hq.ownerOf_dequeue_free hd)⟩

/-- Settles O17: the three steps are an enqueue to FREE. -/
theorem freeAppendsToFree : Obligations.FreeAppendsToFree := by
  intro s i c rest hp hin hi hq hic hnext
  obtain ⟨cmd, hpos, hrun⟩ := stepN_free hp hin hi
  exact ⟨_, hrun, hq.enqueue hic hnext, State.ownerOf_setOwner_self _ i _, hpos, rfl, rfl,
    fun _ hoff => s.byteAt_zeroHeader_header i hoff, fun _ _ h => s.byteAt_zeroHeader_other h⟩

/-- Settles O21: the five steps are a dequeue of INBOX. -/
theorem receiveReturnsTheOldestFrame : Obligations.ReceiveReturnsTheOldestFrame := by
  intro s h c rest hp hin hq
  obtain ⟨hd, hq'⟩ := hq.dequeue_cons
  obtain ⟨cmd, hpos, hrun⟩ := stepN_receive hp hin hd
  exact ⟨_, hrun, rfl, State.ownerOf_setOwner_self _ h _, hq', (s.links.dequeue_nextOf .inbox h).trans (if_pos hd), hpos,
    rfl, fun _ _ => rfl⟩

/-- Settles O50: the handler's dequeue before and after ENQ.LINK, of FREE and of OUTBOX. -/
theorem spuriousEmptinessIsHarmless : Obligations.SpuriousEmptinessIsHarmless := by
  intro s p x a b ha
  obtain ⟨r, c, hc⟩ : ∃ r c, a ++ x :: b = r :: c := by cases a <;> exact ⟨_, _, rfl⟩
  have hlinked {q : QueueName} (hf : EnqueueInFlight s.links q p x a b) :
      ((s.links.enqLink q p x).dequeue q).1 = some r ∧ Quiescent ((s.links.enqLink q p x).dequeue q).2 q c :=
    (hc ▸ hf.enqLink).dequeue_cons
  rw [hc]
  refine ⟨fun hf => ⟨?none, _, _, r, rfl, rfl, ?returned, rfl, (hlinked hf).2⟩, fun hf => ⟨?none', _, r, rfl,
    (hlinked hf).1, rfl, (hlinked hf).2⟩⟩
  case none => simp only [exec, execAllocInternal, State.allocInternal, hf.dequeue_none ha, retOfNode]
  case returned => exact congrArg retOfNode (hlinked hf).1
  case none' => rw [State.takeOutbox, hf.dequeue_none ha]

/-- Settles O56: a staged buffer is neither the client's nor in FREE or INBOX. -/
theorem clientLeavesStagedBuffersAlone : Obligations.ClientLeavesStagedBuffersAlone := by
  refine ⟨fun s t e i h hi _ hport hinit he => ?_, fun s i h hi => ?_⟩
  all_goals
    obtain ⟨f, ib, ob, hq⟩ := h.queues
    have howner := hq.ownerOf_staged hi
  · refine exec_port_sameBuffer hq ?_ ?_ hport hinit he <;> rcases howner with ho | ho <;> rw [ho] <;> decide
  · refine State.clientProceed_sameBuffer hq ?_
    rcases howner with ho | ho <;> rw [ho] <;> decide

end Sys2Proof.Machine
end

section
/-! SUPPORT. EDGE and XCHG over the whole state: FINISH's disposals as one state, what a link event leaves of a buffer it
does not own, and OUTBOX with a SEND in flight. -/

namespace Sys2Proof.Machine

/-! ### FINISH as its disposals and its staging (R167) -/

/-- The state after FINISH's parts but the pre-staging. -/
def State.disposed (s : State) : State := s.disableDma.disposeRx.disposeTx.spiRearm linkCrc

theorem State.finish_eq (s : State) : s.finish ptb = { s.disposed.prestage with busy := false } := rfl

/-- The disposals append a complete frame to INBOX and leave OUTBOX's content (R168, R169). -/
theorem QueueInv.disposed {s : State} {f ib ob : List BufIdx} (h : QueueInv s f ib ob) :
    ∃ f' ib', QueueInv s.disposed f' ib' ob := by
  have hdisabled : QueueInv s.disableDma f ib ob := h.congr rfl rfl rfl rfl rfl
  obtain ⟨ib', hrx⟩ : ∃ ib', QueueInv s.disableDma.disposeRx f ib' ob := by
    obtain hs | ⟨r, hr, hdone⟩ := s.disableDma.disposeRx_cases
    · exact ⟨ib, hs.symm ▸ hdisabled⟩
    · exact ⟨_, hdisabled.disposeRx hr hdone⟩
  obtain ⟨f', htx⟩ : ∃ f', QueueInv s.disableDma.disposeRx.disposeTx f' ib' ob := by
    obtain hs | ⟨r, hr, hdone⟩ := s.disableDma.disposeRx.disposeTx_cases
    · exact ⟨f, hs.symm ▸ hrx⟩
    · exact ⟨_, hrx.disposeTx hr hdone⟩
  exact ⟨f', ib', htx.congr rfl rfl rfl rfl rfl⟩

/-- The disposals touch the staged buffers only. -/
theorem State.disposed_sameBuffer {s : State} {i : BufIdx} (hrx : s.curRx ≠ some i) (htx : s.curTx ≠ some i) :
    SameBuffer i s s.disposed := by
  have h1 : SameBuffer i s.disableDma s.disableDma.disposeRx := disposeRx_sameBuffer hrx
  have h2 : SameBuffer i s.disableDma.disposeRx s.disableDma.disposeRx.disposeTx :=
    disposeTx_sameBuffer (by rw [State.disposeRx_curTx]; exact htx)
  exact (h1.trans h2).congr rfl rfl rfl

theorem State.finish_byteAt (s : State) (j : BufIdx) (w : Offset) : (s.finish ptb).byteAt j w = s.disposed.byteAt j w := by
  rw [State.finish_eq]
  exact s.disposed.prestage_byteAt j w

/-! ### The client's buffers -/

/-- EDGE touches no buffer of the client's (R68). -/
theorem Inv.edge_sameBuffer {s : State} {i : BufIdx} (h : Inv s) (hi : s.ownerOf i = .client) :
    SameBuffer i s (s.edge ptb) := by
  obtain ⟨f, ib, ob, hq⟩ := h.queues
  -- neither staging touches a buffer that is still the client's
  have hprestage {t : State} {f' ib' : List BufIdx} (ht : QueueInv t f' ib' ob) (ho : t.ownerOf i = .client) :
      SameBuffer i t t.prestage := ht.prestage_sameBuffer (by simp [ho]) (by simp [ho])
  obtain ⟨-, hs⟩ | ⟨-, -, hs⟩ | ⟨-, -, hs⟩ := s.edge_cases <;> rw [hs]
  · exact SameBuffer.refl
  · exact (hprestage hq hi).congr rfl rfl rfl
  · obtain ⟨f', ib', hq'⟩ := hq.disposed
    obtain ⟨hrx, htx⟩ := hq.not_staged_of_client hi
    have hdisposed := State.disposed_sameBuffer hrx htx
    exact (hdisposed.trans (hprestage hq' (hdisposed.1.trans hi))).congr rfl rfl rfl

theorem State.exchange_sameBuffer {s : State} {i : BufIdx} (m : Byte) (hi : s.dmaRx.idx ≠ .buf i) :
    SameBuffer i s (s.exchange ptb m) := by
  obtain ⟨-, howner, -⟩ := s.exchange_queues ptb m
  exact ⟨by simp only [State.ownerOf, howner], fun off => s.exchange_byteAt_other ptb m i off (.inl hi)⟩

/-- XCHG touches no buffer but the one staged for receive (R68). -/
theorem Inv.xchg_sameBuffer {s : State} {i : BufIdx} (m : Byte) (h : Inv s) (hi : s.curRx ≠ some i) :
    SameBuffer i s (s.xchg ptb m) := by
  obtain ⟨he, hb, hs⟩ | ⟨b, n, fault, hs⟩ := s.xchg_cases m <;> rw [hs]
  · exact State.exchange_sameBuffer m (h.transfer.dmaRx_idx_ne he hb hi)
  · exact SameBuffer.refl

/-! ### OUTBOX with a SEND in flight -/

/-- A chain is what its first node reaches. -/
theorem chainOk_unique {l : Links} {c c' : List BufIdx} (h : chainOk l c = true) (h' : chainOk l c' = true)
    (hhead : c.head? = c'.head?) : c = c' := by
  induction c generalizing c' with
  | nil => exact (List.head?_eq_none_iff.1 hhead.symm).symm
  | cons a t ih =>
    cases c' with
    | nil => cases hhead
    | cons a' t' =>
      obtain rfl : a = a' := Option.some.inj hhead
      obtain ⟨ha, ht⟩ := (chainOk_cons l a t).1 h
      obtain ⟨ha', ht'⟩ := (chainOk_cons l a t').1 h'
      rw [ih ht ht' (ha.symm.trans ha')]

/-- The two parts of a queue with an enqueue in flight are what its head word and the new node reach. -/
theorem EnqueueInFlight.unique {l : Links} {q : QueueName} {p : NodeRef} {x : BufIdx} {a b a' b' : List BufIdx}
    (h : EnqueueInFlight l q p x a b) (h' : EnqueueInFlight l q p x a' b') : a = a' ∧ b = b' :=
  ⟨chainOk_unique h.chainA h'.chainA (h.head.symm.trans h'.head),
    List.tail_eq_of_cons_eq (chainOk_unique h.chainB h'.chainB rfl)⟩

/-- While OUTBOX's content and the command stay, an enqueue in flight stays so, with the same nodes ahead. -/
theorem OutboxForm.inFlight_of_sameContent {s u : State} {ob a : List BufIdx} (hs : OutboxForm s ob)
    (hu : OutboxForm u ob) (hcmd : u.cmd = s.cmd) (hp : s.cmd.pos = .sendLink)
    (hf : EnqueueInFlight s.links .outbox s.cmd.p s.cmd.x a []) :
    EnqueueInFlight u.links .outbox s.cmd.p s.cmd.x a [] := by
  unfold OutboxForm at hs hu
  rw [hcmd] at hu
  rw [hp] at hs hu
  obtain ⟨a₁, b₁, rfl, hf₁⟩ := hs
  obtain ⟨rfl, rfl⟩ := hf.unique hf₁
  obtain ⟨a₂, b₂, hsame, hf₂⟩ := hu
  have hx : s.cmd.x ∉ a := fun hm => (List.nodup_append.1 hf.nodup).2.2 _ hm _ List.mem_cons_self rfl
  obtain ⟨rfl, -, rfl⟩ := (List.append_cons_inj_of_notMem hx List.not_mem_nil).1 hsame
  exact hf₂

/-- A dequeue with an enqueue in flight takes the oldest reachable node, or none (R131). -/
theorem EnqueueInFlight.dequeue {l : Links} {q : QueueName} {p : NodeRef} {x : BufIdx} {a b : List BufIdx}
    (h : EnqueueInFlight l q p x a b) : ∃ d a', a = d ++ a' ∧ d.length ≤ 1 ∧ (l.dequeue q).1 = d.head? ∧
      EnqueueInFlight (l.dequeue q).2 q p x a' b := by
  match a, h with
  | [], h | [_], h =>
    have hnone := h.dequeue_none (by simp)
    exact ⟨[], _, rfl, by simp, congrArg Prod.fst hnone, hnone ▸ h⟩
  | z :: w :: c, h => exact ⟨[z], w :: c, rfl, by simp, h.dequeue_cons⟩

/-- Transmit staging with a SEND in flight: at most the oldest packet leaves, and it is staged (R131, R164). -/
theorem State.stageTx_inFlight {s : State} {p : NodeRef} {x : BufIdx} {a b : List BufIdx}
    (h : EnqueueInFlight s.links .outbox p x a b) : ∃ d a', a = d ++ a' ∧ d.length ≤ 1 ∧
      (∀ i ∈ d, s.stageTx.curTx = some i ∧ s.stageTx.ownerOf i = .txStaged) ∧
      EnqueueInFlight s.stageTx.links .outbox p x a' b := by
  cases hc : s.curTx with
  | some i =>
    rw [State.stageTx_of_some hc]
    exact ⟨[], a, rfl, by simp, by simp, h⟩
  | none =>
    obtain ⟨hcur, hlinks⟩ := State.stageTx_of_none hc
    obtain ⟨d, a', rfl, hlen, hd, hf⟩ := h.dequeue
    refine ⟨d, a', rfl, hlen, fun i hi => ?_, hlinks ▸ hf⟩
    have hstaged : s.stageTx.curTx = some i := by
      rw [hcur, hd]
      match d, hlen, hi with
      | [z], _, hi => exact congrArg some (List.mem_singleton.1 hi).symm
    exact ⟨hstaged, by rw [State.stageTx_ownerOf, if_pos ⟨hc, hstaged⟩]⟩

end Sys2Proof.Machine
end

section
/-! The statements of EDGE and XCHG over the invariants. -/

namespace Sys2Proof.Machine

/-- Settles O19: OUTBOX keeps its content until the transmit staging, the last part to write a queue. -/
theorem edgeKeepsASendInFlight : Obligations.EdgeKeepsASendInFlight := by
  intro s a h hp hf
  obtain ⟨f, ib, ob, hq⟩ := h.queues
  -- the transmit staging of a state with OUTBOX's content and the command of `s`
  have hstage {u : State} {f' ib' : List BufIdx} (hu : QueueInv u f' ib' ob) (hcmd : u.cmd = s.cmd) :=
    State.stageTx_inFlight (hq.outboxForm.inFlight_of_sameContent hu.outboxForm hcmd hp hf)
  have hexec : exec .edge s = .next (s.edge ptb) := rfl
  obtain ⟨-, hs⟩ | ⟨-, -, hs⟩ | ⟨-, -, hs⟩ := s.edge_cases <;> rw [hs] at hexec
  · exact ⟨s, [], a, hexec, rfl, by simp, by simp, rfl, hf⟩
  · obtain ⟨f', hq'⟩ := hq.stageRx
    obtain ⟨d, a', ha, hlen, hstaged, hf'⟩ := hstage hq' (by simp)
    exact ⟨_, d, a', hexec, ha, hlen, hstaged, by rw [s.start_frame], hf'⟩
  · obtain ⟨f', ib', hq'⟩ := hq.disposed
    obtain ⟨f'', hq''⟩ := hq'.stageRx
    obtain ⟨d, a', ha, hlen, hstaged, hf'⟩ := hstage hq'' (by simp [State.disposed])
    exact ⟨_, d, a', hexec, ha, hlen, hstaged, by rw [s.finish_frame], hf'⟩

/-- Settles O22: 37 exchanges completed the receive channel, so FINISH appends the buffer to INBOX. -/
theorem frameQueuedDuringReceiveIsKept : Obligations.FrameQueuedDuringReceiveIsKept := by
  intro s f ib ob i h hq hb he hi hk
  have hdone : s.dmaRx.tcif = true := (h.transfer.rxDone hb he).2 hk
  obtain ⟨f', ob', hq'⟩ := hq.finish ptb
  refine ⟨_, congrArg Host.Outcome.next (State.edge_of_finish he hb), by rw [s.finish_frame], ?_⟩
  simpa [hdone, hi] using hq'.inboxForm

/-- Settles O38: the transmit disposal runs before the receive staging. -/
theorem bufferJustSentIsRestaged : Obligations.BufferJustSentIsRestaged := by
  intro s i he hb hrx htx hdone hq hnext
  have hdisposed : s.disposed = ({ s.disableDma.freeInternal i with curTx := none } : State).spiRearm linkCrc := by
    rw [State.disposed, State.disposeRx_of_not (s := s.disableDma) (.inr hrx),
      State.disposeTx_of_complete (s := s.disableDma) hdone htx]
  have hfree : Quiescent s.disposed.links .free [i] := by
    rw [hdisposed]
    exact hq.enqueue (by simp) hnext
  have hrx' : s.disposed.curRx = none := by rw [hdisposed]; exact hrx
  have htx' : s.disposed.curTx = none := by rw [hdisposed]; rfl
  obtain ⟨-, -, rxTaken, -, bothTaken, -⟩ := s.disposed.prestage_stages
  obtain ⟨htaken, hempty⟩ := hfree.dequeue_cons
  refine ⟨_, congrArg Host.Outcome.next (State.edge_of_finish he hb), (rxTaken hrx').trans htaken, ?_, fun off hoff => ?_⟩
  · have hlinks : (s.finish ptb).links = ((s.disposed.links.dequeue .free).2.dequeue .outbox).2 := (bothTaken hrx' htx').2
    rw [hlinks]
    exact hempty.congr (Links.dequeue_other _ (by decide)) (by simp)
  · rw [State.finish_byteAt, hdisposed]
    exact s.byteAt_zeroHeader_header i hoff

/-- Settles O55: neither event writes a buffer of the client's, and its link is `NIL` by the invariants after it. -/
theorem linkEventsLeaveClientBuffersAlone : Obligations.LinkEventsLeaveClientBuffersAlone := by
  intro s t e i h hi hevent he
  obtain ⟨hinv, howner, hbytes⟩ : Inv t ∧ SameBuffer i s t := by
    obtain rfl | ⟨m, rfl⟩ := hevent <;> cases he
    · exact ⟨h.edge, h.edge_sameBuffer hi⟩
    · obtain ⟨f, ib, ob, hq⟩ := h.queues
      exact ⟨h.xchg m, h.xchg_sameBuffer m (hq.not_staged_of_client hi).1⟩
  obtain ⟨f, ib, ob, hq⟩ := hinv.queues
  have hclient : t.ownerOf i = .client := howner.trans hi
  exact ⟨hclient, hq.cleared i (.inl hclient), hbytes⟩

/-- Settles O60: the flags the invariants give after the exchange. -/
theorem bothChannelsCompleteTogether : Obligations.BothChannelsCompleteTogether := by
  intro s t m h he hb hx
  cases (exec_xchg_of_busy m he hb).symm.trans hx
  have hrx := (h.transfer.exchange_dmaRx m he hb).2.2.2
  have htx := (h.transfer.exchange_dmaTx m he hb).2.2.2
  exact ⟨hrx.trans Nat.succ_le_succ_iff, htx.trans Nat.succ_le_succ_iff⟩

end Sys2Proof.Machine
end

section
/-! SUPPORT. A whole frame (R181): EDGE, any number of exchanges, EDGE. `AfterExchanges s ms t` says of the state `t` after
the host's bytes `ms` all that the statements need, by induction on the exchanges. -/

namespace Sys2Proof.Machine

/-! ### The exchanges of a frame, one after the other -/

/-- The state after the host's bytes `ms`, inside a transaction. -/
def State.exchanged (s : State) (ms : List Byte) : State := ms.foldl (fun t m => t.exchange ptb m) s

theorem State.exchanged_concat (s : State) (ms : List Byte) (m : Byte) :
    s.exchanged (ms ++ [m]) = (s.exchanged ms).exchange ptb m := by
  simp only [State.exchanged, List.foldl_append, List.foldl_cons, List.foldl_nil]

theorem execAll_exchanges {s : State} (ms : List Byte) (he : s.enabled = true) (hb : s.busy = true) :
    execAll (exchanges ms) s = .next (s.exchanged ms) := by
  induction ms generalizing s with
  | nil => rfl
  | cons m ms ih =>
    have he' : (s.exchange ptb m).enabled = true := by rw [s.exchange_frame]; exact he
    have hb' : (s.exchange ptb m).busy = true := by rw [s.exchange_frame]; exact hb
    simp only [exchanges, List.map_cons, execAll, exec_xchg_of_busy m he hb]
    exact ih he' hb'

/-! ### What the exchanges of a frame leave -/

theorem crcOf_concat (c : LinkCrc) (v : List Byte) (b : Byte) : crcOf c (v ++ [b]) = c.step (crcOf c v) b := by
  simp only [crcOf, List.foldl_append, List.foldl_cons, List.foldl_nil]

/-- The 36 data bytes of the transmit source, as they stand in `s` (R171). -/
def State.txBytes (s : State) : List Byte :=
  (List.finRange 36).map fun j => s.memRead (targetOf s.curTx) ⟨j.val, by omega⟩

@[simp] theorem State.length_txBytes (s : State) : s.txBytes.length = 36 := by simp [State.txBytes]

theorem State.getElem_txBytes (s : State) {n : Nat} (h : n < 36) :
    s.txBytes[n]'(by simpa using h) = s.memRead (targetOf s.curTx) ⟨n, by omega⟩ := by
  simp [State.txBytes]

/-- `t` is the state after the exchanges of the host's bytes `ms` in a transaction that began in `s`. -/
structure AfterExchanges (s : State) (ms : List Byte) (t : State) : Prop where
  inv : Inv t
  frame : t = { s with
    pool := t.pool, dmaRx := t.dmaRx, dmaTx := t.dmaTx, spi := t.spi, miso := t.miso, draws := t.draws }
  k : t.spi.k = ms.length
  lead : t.spi.lead = s.spi.lead
  rxcrc : t.spi.rxcrc = crcOf linkCrc (ms.take 36)
  crcerr : t.spi.crcerr = true ↔ 37 ≤ ms.length ∧ ms.getD 36 0x00#8 ≠ crcOf linkCrc (ms.take 36)
  txcrc : t.spi.txcrc = crcOf linkCrc (s.txBytes.take (ms.length - 1))
  stored : ∀ (r : BufIdx) (o : Offset), s.curRx = some r → o.val < ms.length → o.val < 36 →
    t.byteAt r o = ms.getD o.val 0x00#8
  kept : ∀ (j : BufIdx) (w : Offset), s.curRx ≠ some j → t.byteAt j w = s.byteAt j w

section
variable {s t : State} {ms : List Byte} (h : AfterExchanges s ms t)
include h

theorem AfterExchanges.enabled : t.enabled = s.enabled := by rw [h.frame]
theorem AfterExchanges.busy : t.busy = s.busy := by rw [h.frame]
theorem AfterExchanges.curRx : t.curRx = s.curRx := by rw [h.frame]
theorem AfterExchanges.curTx : t.curTx = s.curTx := by rw [h.frame]
theorem AfterExchanges.xferId : t.xferId = s.xferId := by rw [h.frame]
theorem AfterExchanges.linkFault : t.linkFault = s.linkFault := by rw [h.frame]

theorem AfterExchanges.queues {f ib ob : List BufIdx} (hq : QueueInv s f ib ob) : QueueInv t f ib ob := by
  refine hq.congr ?_ ?_ h.curRx h.curTx ?_ <;> rw [h.frame]

/-- The transmit source is not the buffer received into, so its bytes are still what they were. -/
theorem AfterExchanges.memRead_tx (o : Offset) : t.memRead (targetOf t.curTx) o = s.memRead (targetOf s.curTx) o := by
  rw [h.curTx]
  cases htx : s.curTx with
  | none => rfl
  | some i =>
    obtain ⟨f, ib, ob, hq⟩ := h.inv.queues
    refine h.kept i o fun hrx => ?_
    exact hq.curRx_ne_curTx (h.curRx.trans hrx) (h.curTx.trans htx) rfl

variable (he : s.enabled = true) (hb : s.busy = true)
include he hb

/-- The byte that the transmit channel reads for exchange `k = 1..36`. -/
theorem AfterExchanges.memRead_dmaTx {n : Nat} (hn : n < 36) (hlen : ms.length = n + 1) :
    t.memRead t.dmaTx.idx t.dmaTx.pos = s.memRead (targetOf s.curTx) ⟨n, by omega⟩ := by
  have hb' := h.busy.trans hb
  have he' := h.enabled.trans he
  have hpos : t.dmaTx.pos = ⟨n, by omega⟩ := Fin.ext (by
    rw [h.inv.transfer.txPos hb' he', h.k, hlen]
    simp only [Nat.add_sub_cancel]
    omega)
  rw [h.inv.transfer.txTarget hb' he', hpos]
  exact h.memRead_tx _

/-- One more exchange on the receive side: the host's byte goes into the CRC, or is checked against it (R172, R194). -/
theorem AfterExchanges.rx_step (m : Byte) :
    (t.exchange ptb m).spi.rxcrc = crcOf linkCrc ((ms ++ [m]).take 36) ∧
    ((t.exchange ptb m).spi.crcerr = true ↔
      37 ≤ (ms ++ [m]).length ∧ (ms ++ [m]).getD 36 0x00#8 ≠ crcOf linkCrc ((ms ++ [m]).take 36)) := by
  have hen := (h.inv.transfer.armed (h.busy.trans hb) (h.enabled.trans he)).1
  have hk := h.k
  rcases Nat.lt_trichotomy ms.length 36 with hlen | hlen | hlen
  · obtain ⟨-, hcrc, herr, -⟩ := t.exchange_rx_data ptb m (hk ▸ hlen) hen
    have htake : (ms ++ [m]).take 36 = ms.take 36 ++ [m] := by
      rw [List.take_of_length_le (by simp; omega), List.take_of_length_le (by omega)]
    refine ⟨by rw [hcrc, htake, h.rxcrc, crcOf_concat, ptb_linkCrc], ?_⟩
    rw [herr, h.crcerr, List.length_append, List.length_singleton]
    omega
  · obtain ⟨-, hcrc, herr, -⟩ := t.exchange_rx_crc ptb m (hk.trans hlen) hen
    have htake : (ms ++ [m]).take 36 = ms.take 36 := List.take_append_of_le_length (by omega)
    refine ⟨by rw [hcrc, htake, h.rxcrc], ?_⟩
    rw [herr, crcErrAfter_eq_true_iff, h.crcerr, h.rxcrc, htake]
    simp [hlen, List.getD]
  · obtain ⟨-, hcrc, herr, -⟩ := t.exchange_rx_beyond ptb m (by omega)
    have htake : (ms ++ [m]).take 36 = ms.take 36 := List.take_append_of_le_length (by omega)
    refine ⟨by rw [hcrc, htake, h.rxcrc], ?_⟩
    rw [herr, h.crcerr, htake, List.getD_append _ _ _ _ hlen]
    simp only [List.length_append, List.length_singleton]
    exact and_congr_left' (by omega)

/-- One more exchange on the transmit side: the byte sent at `k = 1..36` goes into the CRC (R171, R195). -/
theorem AfterExchanges.tx_step (m : Byte) :
    (t.exchange ptb m).spi.txcrc = crcOf linkCrc (s.txBytes.take ((ms ++ [m]).length - 1)) := by
  have hen := (h.inv.transfer.armed (h.busy.trans hb) (h.enabled.trans he)).2
  have hk := h.k
  have hlen : (ms ++ [m]).length - 1 = ms.length := by simp
  rw [hlen]
  rcases hn : ms.length with _ | n
  · rw [(State.exchange_tx_kept m (t.outgoing_lead ptb rfl (hk.trans hn))).2.1, h.txcrc, hn]
  · by_cases hdata : n < 36
    · rw [(State.exchange_tx_data (c := ptb) m rfl (by omega) (by omega) hen).2.1, h.memRead_dmaTx he hb hdata hn,
        h.txcrc, hn, ← s.getElem_txBytes hdata, List.take_succ_eq_append_getElem (by simpa using hdata),
        crcOf_concat, Nat.add_sub_cancel, ptb_linkCrc]
    · have hkept : (t.exchange ptb m).spi.txcrc = t.spi.txcrc := by
        rcases (by omega : t.spi.k = 37 ∨ 38 ≤ t.spi.k) with h37 | h38
        · exact (State.exchange_tx_kept m (t.outgoing_crc ptb rfl h37)).2.1
        · exact (State.exchange_tx_kept m (t.outgoing_beyond ptb rfl h38)).2.1
      rw [hkept, h.txcrc, hn, List.take_of_length_le (by simp; omega), List.take_of_length_le (by simp; omega)]

/-- One more exchange on the pool: the host's data byte is in the staged buffer, at the offset `k` (R172). -/
theorem AfterExchanges.store_step (m : Byte) {r : BufIdx} {o : Offset} (hr : s.curRx = some r)
    (hlt : o.val < (ms ++ [m]).length) (h36 : o.val < 36) :
    (t.exchange ptb m).byteAt r o = (ms ++ [m]).getD o.val 0x00#8 := by
  have hb' := h.busy.trans hb
  have he' := h.enabled.trans he
  by_cases ho : o.val < ms.length
  · rw [t.exchange_byteAt_other ptb m r o (.inr (by rw [h.k]; omega)), h.stored r o hr ho h36,
      List.getD_append _ _ _ _ ho]
  · have hok : o.val = t.spi.k := by simp at hlt; rw [h.k]; omega
    have hidx : t.dmaRx.idx = .buf r := by rw [h.inv.transfer.rxTarget hb' he', h.curRx, hr]; rfl
    rw [t.exchange_byteAt_data ptb m hidx hok (hok ▸ h36) (h.inv.transfer.armed hb' he').1, hok, h.k]
    simp [List.getD]

theorem AfterExchanges.step (m : Byte) : AfterExchanges s (ms ++ [m]) (t.exchange ptb m) := by
  have hb' := h.busy.trans hb
  have he' := h.enabled.trans he
  obtain ⟨hrxcrc, hcrcerr⟩ := h.rx_step he hb m
  refine ⟨h.inv.exchange m he' hb', ?frame, ?k, ?lead, hrxcrc, hcrcerr, h.tx_step he hb m,
    fun r o hr => h.store_step he hb m hr, fun j w hj => ?kept⟩
  case frame =>
    rw [t.exchange_frame]
    generalize t.exchange ptb m = u
    rw [h.frame]
  case k => rw [State.exchange_k, h.k, List.length_append, List.length_singleton]
  case lead => rw [State.exchange_lead, h.lead]
  case kept =>
    have hidx := h.inv.transfer.dmaRx_idx_ne he' hb' (h.curRx ▸ hj)
    rw [t.exchange_byteAt_other ptb m j w (.inl hidx), h.kept j w hj]

end

/-- Every state after exchanges is so described, by induction on the exchanges from the last one. -/
theorem AfterExchanges.exchanged {s : State} (h : AfterExchanges s [] s) (he : s.enabled = true) (hb : s.busy = true)
    (ms : List Byte) : AfterExchanges s ms (s.exchanged ms) := by
  induction ms using List.reverseRecOn with
  | nil => exact h
  | append_singleton ms m ih => exact s.exchanged_concat ms m ▸ ih.step he hb m

/-- START begins a transaction: `k` is 0 and both CRCs stand at `CRC_INIT` (R162, R276). -/
theorem Inv.afterStart {s : State} (h : Inv s) (hb : s.busy = false) :
    AfterExchanges (s.start ptb) [] (s.start ptb) := by
  have hspi : (s.start ptb).spi = { s.spi with lead := s.xferId } := by rw [s.start_frame]
  refine ⟨h.start hb, rfl, ?_, rfl, ?_, ?_, ?_, fun _ _ _ hlt => absurd hlt (Nat.not_lt_zero _), fun _ _ _ => rfl⟩
  all_goals rw [hspi]
  · exact h.transfer.idleK hb
  · exact h.transfer.idleRxCrc hb
  · simp [h.transfer.idleErr hb]
  · exact h.transfer.idleTxCrc hb

/-- EDGE between frames and the exchanges after it (R160, R170). -/
theorem Inv.frame {s : State} (h : Inv s) (he : s.enabled = true) (hb : s.busy = false) (ms : List Byte) :
    exec .edge s = .next (s.start ptb) ∧
    execAll (exchanges ms) (s.start ptb) = .next ((s.start ptb).exchanged ms) ∧
    AfterExchanges (s.start ptb) ms ((s.start ptb).exchanged ms) := by
  have he' : (s.start ptb).enabled = true := by rw [s.start_frame]; exact he
  exact ⟨congrArg Host.Outcome.next (State.edge_of_start he hb), execAll_exchanges ms he' rfl,
    (h.afterStart hb).exchanged he' rfl ms⟩

/-! ### The closing EDGE -/

/-- The bytes of a completely received buffer after FINISH: only the CRC flag is added (R168). -/
theorem State.finish_byteAt_received {s : State} {r : BufIdx} (w : Offset) (hr : s.curRx = some r)
    (hrt : s.curTx ≠ some r) (hdone : s.dmaRx.tcif = true) : (s.finish ptb).byteAt r w =
      if w = 3 ∧ s.spi.crcerr = true then s.byteAt r w ||| 0x01#8 else s.byteAt r w := by
  have htx : SameBuffer r s.disableDma.disposeRx s.disableDma.disposeRx.disposeTx :=
    disposeTx_sameBuffer (by rw [State.disposeRx_curTx]; exact hrt)
  have hdisposed : (s.finish ptb).byteAt r w = s.disableDma.disposeRx.byteAt r w :=
    (s.finish_byteAt r w).trans (htx.2 w)
  have hflag : s.disableDma.disposeRx.byteAt r w = s.disableDma.crcFlag.byteAt r w := by
    rw [State.disposeRx_of_complete (s := s.disableDma) hdone hr]
    rfl
  rw [hdisposed, hflag, State.crcFlag_byteAt]
  simp [hr, hdone, Dma.disable]

/-- With neither channel complete FINISH disposes of nothing (R176). -/
theorem State.disposed_of_incomplete {s : State} (hrx : s.dmaRx.tcif = false) (htx : s.dmaTx.tcif = false) :
    s.disposed = s.disableDma.spiRearm linkCrc := by
  rw [State.disposed, State.disposeRx_of_not (s := s.disableDma) (.inl hrx),
    State.disposeTx_of_not (s := s.disableDma) (.inl htx)]

end Sys2Proof.Machine
end

section
/-! The statements of a whole frame: EDGE, exchanges, EDGE. -/

namespace Sys2Proof.Machine

/-- Settles O57: 37 exchanges complete the receive channel, so FINISH flags the buffer and appends it to INBOX. -/
theorem fullFrameIsDelivered : Obligations.FullFrameIsDelivered := by
  intro s f ib ob ms h hq he hb hlen
  obtain ⟨hedge, hexchanges, ht⟩ := h.frame he hb ms
  generalize (s.start ptb).exchanged ms = t at hexchanges ht
  have he' : t.enabled = true := by rw [ht.enabled, s.start_frame]; exact he
  have hb' : t.busy = true := ht.busy
  have hdone : t.dmaRx.tcif = true := (ht.inv.transfer.rxDone hb' he').2 (ht.k ▸ hlen)
  obtain ⟨f₀, ob₀, hq₀⟩ := hq.start ptb
  have hqt := ht.queues hq₀
  obtain ⟨f₁, ob₁, hq₁⟩ := hqt.finish ptb
  simp only [hdone, if_true, ht.curRx] at hq₁
  refine ⟨_, t, t.finish ptb, hedge, hexchanges, congrArg Host.Outcome.next (State.edge_of_finish he' hb'), rfl,
    by rw [t.finish_spi], by rw [t.finish_spi], ?xferId, ?linkFault, fun hnone => ?idle, fun r hr => ?received⟩
  case xferId => rw [t.finish_frame, ht.xferId, s.start_frame]
  case linkFault => rw [t.finish_frame, ht.linkFault, s.start_frame]
  case idle => simpa [hnone] using hq₁.inboxForm
  case received =>
    have hrt := ht.curRx.trans hr
    have htr : t.curTx ≠ some r := fun e => hqt.curRx_ne_curTx hrt e rfl
    have hbyte := fun w => State.finish_byteAt_received (s := t) w hrt htr hdone
    rw [hr] at hq₁
    refine ⟨(hq₁.ownInbox r).2 (.inl (by simp)), hq₁.inboxForm, fun off h36 h3 => ?data, ?flags⟩
    case data =>
      have hne : off ≠ 3 := fun e => h3 (congrArg Fin.val e)
      rw [hbyte, if_neg (fun h => hne h.1), ht.stored r off hr (by omega) h36]
    case flags =>
      have hstored : t.byteAt r 3 = ms.getD 3 0x00#8 := ht.stored r 3 hr (Nat.lt_of_lt_of_le (by decide) hlen) (by decide)
      rw [hbyte, hstored]
      by_cases hcrc : ms.getD 36 0x00#8 = crcOf linkCrc (ms.take 36)
      · rw [if_pos hcrc, if_neg fun h => (ht.crcerr.1 h.2).2 hcrc]
      · rw [if_neg hcrc, if_pos ⟨rfl, ht.crcerr.2 ⟨hlen, hcrc⟩⟩]

/-- Settles O58: the preloaded id, then the transmit channel's bytes, then their CRC. -/
theorem frameSendsIdDataAndCrc : Obligations.FrameSendsIdDataAndCrc := by
  intro s t0 t1 ms m h he hb hedge hexchanges
  obtain ⟨hedge', hexchanges', ht⟩ := h.frame he hb ms
  cases hedge'.symm.trans hedge
  cases hexchanges'.symm.trans hexchanges
  generalize (s.start ptb).exchanged ms = t at hexchanges ht
  have he₀ : (s.start ptb).enabled = true := by rw [s.start_frame]; exact he
  have hen := (ht.inv.transfer.armed ht.busy (ht.enabled.trans he₀)).2
  refine ⟨_, exec_xchg_of_busy m (ht.enabled.trans he₀) ht.busy, fun hlen => ?id, fun o hlen h36 => ?data,
    fun hlen => ?crc⟩
  case id =>
    rw [(State.exchange_tx_kept m (t.outgoing_lead ptb rfl (ht.k.trans hlen))).1, ht.lead, s.start_frame]
  case data =>
    rw [(State.exchange_tx_data (c := ptb) m rfl (by rw [ht.k]; omega) (by rw [ht.k]; omega) hen).1,
      ht.memRead_dmaTx he₀ rfl h36 hlen]
  case crc =>
    rw [(State.exchange_tx_kept m (t.outgoing_crc ptb rfl (ht.k.trans hlen))).1, ht.txcrc, hlen,
      List.take_of_length_le (by simp)]
    rfl

/-- Settles O59: neither channel is complete, so FINISH disposes of nothing and its staging keeps what is staged. -/
theorem shortFrameIsRetried : Obligations.ShortFrameIsRetried := by
  intro s f ib ob ms h hq he hb hlen
  obtain ⟨hedge, hexchanges, ht⟩ := h.frame he hb ms
  generalize (s.start ptb).exchanged ms = t at hexchanges ht
  have he' : t.enabled = true := by rw [ht.enabled, s.start_frame]; exact he
  have hb' : t.busy = true := ht.busy
  have hk : ¬ 37 ≤ t.spi.k := by rw [ht.k]; omega
  have hrxDone : t.dmaRx.tcif = false := by simpa [hk] using ht.inv.transfer.rxDone hb' he'
  have htxDone : t.dmaTx.tcif = false := by simpa [hk] using ht.inv.transfer.txDone hb' he'
  have hdisposed := State.disposed_of_incomplete hrxDone htxDone
  have hbyte (j : BufIdx) (w : Offset) : (t.finish ptb).byteAt j w = t.byteAt j w := by
    rw [t.finish_byteAt, hdisposed]
    rfl
  obtain ⟨f₀, ob₀, hq₀⟩ := hq.start ptb
  have hqt := ht.queues hq₀
  obtain ⟨f₁, ob₁, hq₁⟩ := hqt.finish ptb
  obtain ⟨rxKept, txKept, -⟩ := t.disposed.prestage_stages
  refine ⟨_, t, t.finish ptb, hedge, hexchanges, congrArg Host.Outcome.next (State.edge_of_finish he' hb'), rfl,
    fun r hr => ?rx, fun r hr => ?tx, ?inbox⟩
  case rx =>
    have hstaged : (t.finish ptb).curRx = some r := rxKept r (by rw [hdisposed]; exact ht.curRx.trans hr)
    exact ⟨hstaged, (hq₁.ownRx r).2 hstaged, fun off hoff h36 => (hbyte r off).trans (ht.stored r off hr hoff h36)⟩
  case tx =>
    have hstaged : (t.finish ptb).curTx = some r := txKept r (by rw [hdisposed]; exact ht.curTx.trans hr)
    have hne : (s.start ptb).curRx ≠ some r := fun e => hq₀.curRx_ne_curTx e hr rfl
    exact ⟨hstaged, (hq₁.ownTx r).2 hstaged, fun off => (hbyte r off).trans (ht.kept r off hne)⟩
  case inbox => simpa [hrxDone] using hq₁.inboxForm

end Sys2Proof.Machine
end
